-- ==== Sys2Proof/Word.lean ====
section
/-! DEFINITION. The words of the block: unsigned bit vectors of the widths the spec uses (00_scope.md section 5.1). -/

namespace Sys2Proof

/-- A byte: 8 bits in every address space (R40). -/
abbrev Byte := BitVec 8

/-- `u64`: key words, seed, accumulators, results (R4). -/
abbrev Word := BitVec 64

/-- `u128`: compressed values, read as two 64-bit lanes (00_scope.md section 5.1). -/
abbrev DWord := BitVec 128

/-- The 32-bit command word `W` (R61). -/
abbrev CommandWord := BitVec 32

/-- A byte string, lowest address first. -/
abbrev ByteString := List Byte

/-- The key file `KEY[0..37]` (R11). -/
abbrev Key := Vector Word 38

end Sys2Proof
end

