-- ==== Sys2Proof/Config.lean ====
section
/-! DEFINITION. The configuration of an instance of the block: the constants the document fixes (R4) and the record of
parameters it leaves open (R5). The values the spec takes for the open ones stand in `Machine/Parameters.lean`. -/

namespace Sys2Proof

/-- The parameters the document leaves open (R5); fixed for an instance, never state (R31 (c)). -/
structure Params where
  /-- `S1`, the first right-shift count of the short mix, 1 to 63 (R101). -/
  s1 : Nat
  /-- `S2`, the second right-shift count of the short mix, 1 to 63 (R101). -/
  s2 : Nat
  /-- `S3`, the closing right-shift count of the short mix, 1 to 63 (R101). -/
  s3 : Nat
  /-- `SHORT_SEC_SHIFT`, 1 to 25 (R102). -/
  shortSecShift : Nat
  /-- `ACC_INIT`, below 2^64 - 8 (R138). -/
  accInit : Word
  /-- `SHUF(n, i)`, the lane shift of chunk `i` in a block of `n` chunks (R124). -/
  shuf : Nat → Nat → Nat

namespace Config

/-- `CHUNK_BYTES`: bytes in a chunk (R4). -/
@[simp] abbrev chunkBytes : Nat := 16

/-- `BLOCK_CHUNKS`: most chunks in a block (R4). -/
@[simp] abbrev blockChunks : Nat := 16

/-- `BLOCK_BYTES`: most bytes in a block (R4). -/
@[simp] abbrev blockBytes : Nat := 256

/-- `SHORT_MAX`: the longest input, in bytes, that takes the short path (R4). -/
@[simp] abbrev shortMax : Nat := 8

/-- Bytes of `BUF` (R22). -/
@[simp] abbrev bufBytes : Nat := 32

/-- The first address of `PEND` in `BUF` (R22). -/
@[simp] abbrev pendBase : Nat := 16

/-- Bytes of the key image, 38 words of 8 (R63). -/
@[simp] abbrev keyImageBytes : Nat := 304

/-- `OH_PARAM_COUNT`: block-compressor key words (R4). -/
@[simp] abbrev ohParamCount : Nat := 32

/-- `OH_TWIST_COUNT`: twisting key words, used only by the secondary hash (R4). -/
@[simp] abbrev ohTwistCount : Nat := 2

/-- `OH_WORDS` (R4). -/
@[simp] abbrev ohWords : Nat := 34

/-- `P61`, the prime of the field `F` (R4); used only in laws and in the premise on keys. -/
def p61 : Nat := 2 ^ 61 - 1

/-- `RING`, the modulus of the accumulator (R4). -/
def ring : Nat := 2 ^ 64 - 8

/-- `C1`, the first odd multiplier of the short mix (R4). -/
def c1 : Word := 0xBF58476D1CE4E5B9

/-- `C2`, the second odd multiplier of the short mix (R4). -/
def c2 : Word := 0x94D049BB133111EB

/-- `ROT_A`, the first rotation count of the finalizer (R4). -/
def rotA : Nat := 8

/-- `ROT_B`, the second rotation count of the finalizer (R4). -/
def rotB : Nat := 33

end Config

/-- What a register holds after reset where the spec gives no value (R32, R33).

DESIGN CHOICE (log 1, unsafe): all ones, because R33 says "never zero" and U9 "never a fixed 0". No rule reads such a
register before a command has written it. -/
def unwritten (n : Nat) : BitVec n := BitVec.allOnes n

end Sys2Proof
end

