-- ==== Sys2Proof/Machine/Operands.lean ====
section
/-! DEFINITION. Operand assembly and byte strings: slices, little-endian reads and writes (00_scope.md section 5.2,
R42, R43, R69). -/

namespace Sys2Proof.Machine

/-- `b[i:j]`: the elements at offsets `i` up to but not including `j` (00_scope.md section 5.2). -/
def slice {α : Type} (b : List α) (i j : Nat) : List α := (b.drop i).take (j - i)

/-- The little-endian unsigned integer of a byte string: the byte at the lowest address is the least significant
(R42, R43). -/
def leNat : ByteString → Nat
  | [] => 0
  | b :: bs => b.toNat + 256 * leNat bs

/-- `LE64(b)` (00_scope.md section 5.2). -/
def le64 (b : ByteString) : Word := BitVec.ofNat 64 (leNat b)

/-- `LE32(b)`. -/
def le32 (b : ByteString) : BitVec 32 := BitVec.ofNat 32 (leNat b)

/-- `LE16(b)`. -/
def le16 (b : ByteString) : BitVec 16 := BitVec.ofNat 16 (leNat b)

/-- `MemRead(space, addr, n)` on a space whose bytes are `b`: the `n` bytes from `addr` as a little-endian integer
(00_scope.md section 5.2). -/
def memRead (b : ByteString) (addr n : Nat) : Nat := leNat (slice b addr (addr + n))

/-- The low `8n` bits of `v` as `n` little-endian bytes, the inverse of `leNat` (R43). -/
def leBytes : (n v : Nat) → ByteString
  | 0, _ => []
  | n + 1, v => BitVec.ofNat 8 v :: leBytes n (v / 256)

/-- Word `j` of the key image: operand bytes `8j` to `8j + 7` (R63). -/
def imageWord (b : ByteString) (j : Nat) : Word := BitVec.ofNat 64 (memRead b (8 * j) 8)

/-- The key image carried by KEYLD, assembled from its operand bytes (R63). -/
def keyImage (b : ByteString) : Key := Vector.ofFn fun j => imageWord b j.val

/-- The operand bytes of a key image: 38 little-endian words in the order of R11 (R63). -/
def keyImageBytes (k : Key) : ByteString := k.toList.flatMap fun w => leBytes 8 w.toNat

end Sys2Proof.Machine
end

