-- ==== Sys2Proof/Syntax.lean ====
section
/-! DEFINITION. The ten commands (R62), the transactions that carry them (R60) and what the host can do to the block
(R204). -/

namespace Sys2Proof

/-- The commands of the block, one constructor per row of the opcode map (R62), with the operands of the row's format
(R63 to R67). `LEN` is the length of `data` (R64, R66). -/
inductive Instr where
  /-- KEYLD: load the key file from its image (R63, R153). -/
  | keyld (image : Key)
  /-- HASH.P: the primary hash of `data` (R64, R154). -/
  | hashP (seed : Word) (data : ByteString)
  /-- HASH.S: the secondary hash of `data` (R64, R155). -/
  | hashS (seed : Word) (data : ByteString)
  /-- FPRINT: both hashes of `data` (R64, R156). -/
  | fprint (seed : Word) (data : ByteString)
  /-- SINIT.P: initialise the sink, primary mode (R65, R166). -/
  | sinitP (seed : Word)
  /-- SINIT.S: initialise the sink, secondary mode (R65, R167). -/
  | sinitS (seed : Word)
  /-- SINIT.F: initialise the sink, fingerprint mode (R65, R168). -/
  | sinitF (seed : Word)
  /-- SUPD: absorb `data` into the sink (R66, R171). -/
  | supd (data : ByteString)
  /-- SDIG: the digest of what was absorbed (R67, R173). -/
  | sdig
  /-- REGRD: read the register with index `reg` (R67, R157). -/
  | regrd (reg : BitVec 8)
deriving DecidableEq, Repr

/-- A transaction: a command word and the operand bytes that came with it, delivered whole (R60). -/
structure Transaction where
  /-- The command word `W`. -/
  word : CommandWord
  /-- The operand bytes; their number is `NOPER`. -/
  operands : ByteString
deriving DecidableEq, Repr

/-- `NOPER`, the number of operand bytes that came with the command word (R60). -/
def Transaction.noper (t : Transaction) : Nat := t.operands.length

/-- What the host can do to the block (R204). -/
inductive HostEvent where
  /-- A transaction on the command channel. -/
  | transaction (t : Transaction)
  /-- The reset input is asserted and released; `inProgress` is the transaction it abandons, if any (R220, U12). -/
  | reset (inProgress : Option Transaction)
deriving DecidableEq, Repr

end Sys2Proof
end

