-- ==== Sys2Proof/WellFormed.lean ====
section
/-! DEFINITION. Which commands a transaction can carry. -/

namespace Sys2Proof

/-- A byte string whose length the 64-bit operand `LEN` can hold: at most 2^64 - 1 bytes (R64, R66). -/
def lenFits (data : ByteString) : Bool := decide (data.length < 2 ^ 64)

/-- A well-formed command: one that the encodings of R63 to R67 can carry. A REGRD of a reserved register is a legal
word (R72), and every key image of 38 words is accepted (R14). -/
def Instr.wf : Instr → Bool
  | .keyld _ => true
  | .hashP _ data => lenFits data
  | .hashS _ data => lenFits data
  | .fprint _ data => lenFits data
  | .sinitP _ => true
  | .sinitS _ => true
  | .sinitF _ => true
  | .supd data => lenFits data
  | .sdig => true
  | .regrd _ => true

end Sys2Proof
end

