-- ==== Sys2Proof/Decode.lean ====
section
/-! DEFINITION. The command encoding (30_encoding.md): the opcode map, the decoder, total on every transaction and
rejecting by name, and the encoder. -/

namespace Sys2Proof

open Sys2Proof.Machine

/-- The commands by name, without operands. -/
inductive Mnemonic where
  | keyld | hashP | hashS | fprint | sinitP | sinitS | sinitF | supd | sdig | regrd
deriving DecidableEq, Repr

/-- The five operand formats (R63 to R67). -/
inductive Format where
  /-- 304 bytes, the key image (R63). -/
  | k
  /-- SEED, LEN and LEN data bytes (R64). -/
  | b
  /-- SEED (R65). -/
  | i
  /-- LEN and LEN data bytes (R66). -/
  | u
  /-- No operand bytes (R67). -/
  | n
deriving DecidableEq, Repr

/-- Why a transaction carries no command (R72, R74). -/
inductive Reject where
  /-- The word matches no row of the opcode map (R72). -/
  | illegalCommand
  /-- A legal word came with the wrong number of operand bytes (R74). -/
  | malformed
deriving DecidableEq, Repr

/-- A row of the opcode map (R62). -/
structure OpcodeRow where
  command : Mnemonic
  pattern : CommandWord
  mask : CommandWord
  format : Format
deriving DecidableEq, Repr

/-- The opcode map (R62). -/
def opcodeMap : List OpcodeRow :=
  [ ⟨.keyld,  0x00000001, 0xFFFFFFFF, .k⟩,
    ⟨.hashP,  0x00000002, 0xFFFFFFFF, .b⟩,
    ⟨.hashS,  0x00000102, 0xFFFFFFFF, .b⟩,
    ⟨.fprint, 0x00000003, 0xFFFFFFFF, .b⟩,
    ⟨.sinitP, 0x00000004, 0xFFFFFFFF, .i⟩,
    ⟨.sinitS, 0x00000104, 0xFFFFFFFF, .i⟩,
    ⟨.sinitF, 0x00000204, 0xFFFFFFFF, .i⟩,
    ⟨.supd,   0x00000005, 0xFFFFFFFF, .u⟩,
    ⟨.sdig,   0x00000006, 0xFFFFFFFF, .n⟩,
    ⟨.regrd,  0x00000007, 0xFF00FFFF, .n⟩ ]

/-- A word selects a row when `W & mask = match` (R62). -/
def OpcodeRow.selects (r : OpcodeRow) (w : CommandWord) : Bool := w &&& r.mask == r.pattern

/-- The row a command word selects; none for an illegal word (R62, R72). -/
def rowOf (w : CommandWord) : Option OpcodeRow := opcodeMap.find? fun r => r.selects w

/-- `OPC`, `W[7:0]` (R61). -/
def opcField (w : CommandWord) : BitVec 8 := w.extractLsb' 0 8

/-- `MODE`, `W[9:8]` (R61). -/
def modeField (w : CommandWord) : BitVec 2 := w.extractLsb' 8 2

/-- `RSV0`, `W[15:10]` (R61). -/
def rsv0Field (w : CommandWord) : BitVec 6 := w.extractLsb' 10 6

/-- `REG`, `W[23:16]` (R61). -/
def regField (w : CommandWord) : BitVec 8 := w.extractLsb' 16 8

/-- `RSV1`, `W[31:24]` (R61). -/
def rsv1Field (w : CommandWord) : BitVec 8 := w.extractLsb' 24 8

/-- The number of operand bytes a format takes when the bytes of `stream`, a little-endian integer, follow the word
(R68). -/
def operandCount (f : Format) (stream : Nat) : Nat :=
  match f with
  | .k => Config.keyImageBytes
  | .b => 16 + stream / 2 ^ 64 % 2 ^ 64
  | .i => 8
  | .u => 8 + stream % 2 ^ 64
  | .n => 0

/-- The check of R74 and R150 step 3: the operand bytes are as many as the format requires; too few to hold the fixed
operands is malformed as well. -/
def operandsFit (f : Format) (ops : ByteString) : Bool :=
  match f with
  | .k => ops.length == Config.keyImageBytes
  | .b => decide (16 ≤ ops.length) && ops.length == 16 + memRead ops 8 8
  | .i => ops.length == 8
  | .u => decide (8 ≤ ops.length) && ops.length == 8 + memRead ops 0 8
  | .n => ops.length == 0

/-- `SEED`, the first eight operand bytes of formats B and I (R64, R65). -/
def seedOperand (ops : ByteString) : Word := BitVec.ofNat 64 (memRead ops 0 8)

/-- Operand assembly of one command (R69). -/
def assembleOperands (c : Mnemonic) (w : CommandWord) (ops : ByteString) : Instr :=
  match c with
  | .keyld => .keyld (keyImage ops)
  | .hashP => .hashP (seedOperand ops) (ops.drop 16)
  | .hashS => .hashS (seedOperand ops) (ops.drop 16)
  | .fprint => .fprint (seedOperand ops) (ops.drop 16)
  | .sinitP => .sinitP (seedOperand ops)
  | .sinitS => .sinitS (seedOperand ops)
  | .sinitF => .sinitF (seedOperand ops)
  | .supd => .supd (ops.drop 8)
  | .sdig => .sdig
  | .regrd => .regrd (regField w)

/-- Steps 2 and 3 of R150: the command a transaction carries, or why it carries none. -/
def decode (t : Transaction) : Except Reject Instr :=
  match rowOf t.word with
  | none => .error .illegalCommand
  | some r =>
    if operandsFit r.format t.operands then .ok (assembleOperands r.command t.word t.operands)
    else .error .malformed

/-- The operand bytes of format B (R64). -/
def formatB (seed : Word) (data : ByteString) : ByteString :=
  leBytes 8 seed.toNat ++ leBytes 8 data.length ++ data

/-- The operand bytes of format U (R66). -/
def formatU (data : ByteString) : ByteString := leBytes 8 data.length ++ data

/-- The transaction that carries a well-formed command (R62 to R67). -/
def encode : Instr → Transaction
  | .keyld image => ⟨0x00000001, keyImageBytes image⟩
  | .hashP seed data => ⟨0x00000002, formatB seed data⟩
  | .hashS seed data => ⟨0x00000102, formatB seed data⟩
  | .fprint seed data => ⟨0x00000003, formatB seed data⟩
  | .sinitP seed => ⟨0x00000004, leBytes 8 seed.toNat⟩
  | .sinitS seed => ⟨0x00000104, leBytes 8 seed.toNat⟩
  | .sinitF seed => ⟨0x00000204, leBytes 8 seed.toNat⟩
  | .supd data => ⟨0x00000005, formatU data⟩
  | .sdig => ⟨0x00000006, []⟩
  | .regrd reg => ⟨0x00000007 ||| (reg.setWidth 32 <<< 16), []⟩

/-- The serialised form `LE32(W) ∥ operands` (R204). -/
def Transaction.bytes (t : Transaction) : ByteString := leBytes 4 t.word.toNat ++ t.operands

/-- The bytes a well-formed command is sent as. -/
def encodeBytes (i : Instr) : ByteString := (encode i).bytes

/-- The transaction a serialised byte string stands for: the first four bytes are the word, the rest the operands;
fewer than four bytes are no transaction (R60). -/
def parseTransaction (b : ByteString) : Option Transaction :=
  if 4 ≤ b.length then some ⟨le32 (b.take 4), b.drop 4⟩ else none

/-- The transaction whose bits are `w`, of which the low `nbits` are given and the rest are 0: the word is bits 31..0,
the operand bytes follow, as many as the word's format takes (R68). -/
def frameWord (nbits w : Nat) : Transaction :=
  let bits := w % 2 ^ nbits
  let word := BitVec.ofNat 32 bits
  let stream := bits / 2 ^ 32
  match rowOf word with
  | none => ⟨word, leBytes ((nbits - 32) / 8) stream⟩
  | some r => ⟨word, leBytes (operandCount r.format stream) stream⟩

/-- The command the decoder reads from the transaction whose bits are `w`. -/
def decodeTableWord (nbits w : Nat) : Option Instr :=
  match decode (frameWord nbits w) with
  | .ok i => some i
  | .error _ => none

end Sys2Proof
end

