-- ==== Sys2Proof/Machine/Arith.lean ====
section
/-! DEFINITION. The arithmetic primitives (40_primitives.md). Everything is unsigned; nothing sets a flag, traps or
saturates (R92). -/

namespace Sys2Proof.Machine

/-- `add64(a, b)`: the sum modulo 2^64 (R80). -/
def add64 (a b : Word) : Word := a + b

/-- `mul64(a, b)`: the low 64 bits of the product (R81). -/
def mul64 (a b : Word) : Word := a * b

/-- `shr64(a, s)`: the logical right shift (R82). -/
def shr64 (a : Word) (s : Nat) : Word := a >>> s

/-- `shl64(a, s)`: the logical left shift (R83). -/
def shl64 (a : Word) (s : Nat) : Word := a <<< s

/-- `rotl64(a, r)`: the left rotation by `r mod 64` (R84). -/
def rotl64 (a : Word) (r : Nat) : Word :=
  if r % 64 = 0 then a else shl64 a (r % 64) ||| shr64 a (64 - r % 64)

/-- `cat(h, l)`: the value with `h` in lane 1 and `l` in lane 0 (00_scope.md section 5.1). -/
def cat (h l : Word) : DWord := h ++ l

/-- `lo64(v)`, lane 0 (00_scope.md section 5.1). -/
def lo64 (v : DWord) : Word := v.extractLsb' 0 64

/-- `hi64(v)`, lane 1 (00_scope.md section 5.1). -/
def hi64 (v : DWord) : Word := v.extractLsb' 64 64

/-- The exclusive or of a list of 128-bit values; it needs no order (R85). -/
def xorAll (vs : List DWord) : DWord := vs.foldr (· ^^^ ·) 0

/-- The exclusive or of a list of 64-bit values (R85). -/
def xorAll64 (vs : List Word) : Word := vs.foldr (· ^^^ ·) 0

/-- `mul128(a, b)`: the exact product (R86). -/
def mul128 (a b : Word) : DWord := a.setWidth 128 * b.setWidth 128

/-- `clmul(a, b)`: the carry-less product, the exclusive or over the bits `i` of `b` that are 1 of `a · 2^i` (R87). -/
def clmul (a b : Word) : DWord :=
  xorAll ((List.range 64).map fun i => if b.getLsbD i then a.setWidth 128 <<< i else 0)

/-- `add128(a, b)`: the sum modulo 2^128 (R88). -/
def add128 (a b : DWord) : DWord := a + b

/-- `laneshl(v, s)`: each 64-bit lane shifted left on its own (R89). -/
def laneshl (v : DWord) (s : Nat) : DWord := cat (shl64 (hi64 v) s) (shl64 (lo64 v) s)

end Sys2Proof.Machine
end

