-- ==== Sys2Proof/Machine/State.lean ====
section
/-! DEFINITION. The state of the block (10_state.md), plain data, and its value after reset. -/

namespace Sys2Proof.Machine

/-- Why a step stops. No fault of the spec stops one: a fault of R191 is taken, as R196 says, in a next state. -/
inductive Fault where
  /-- A read or write of `BUF` at an address outside 0 to 31, which R40 says does not exist. Raised by SUPD and SDIG,
  and only where `BUFN` holds more than 16, which no rule writes (R22). Safe: the model stops (log 7). -/
  | outsideBuf (address : Nat)
deriving DecidableEq, Repr

/-- Why a step has no meaning. -/
inductive Refusal where
  /-- The command with this mnemonic has no meaning in the model. Raised by no arm of `exec`: every command is
  modelled. Safe: the model would stop. -/
  | notModelled (mnemonic : String)
deriving DecidableEq, Repr

/-- The state of the sink, the register `SSTATE` (R16). -/
inductive SinkState where
  /-- 0: no SINIT.x has initialised the sink since reset or since the key was replaced. -/
  | uninit
  /-- 1: initialised, no byte taken. -/
  | empty
  /-- 2: at least one byte taken. -/
  | accumulating
  /-- 3: the digest has been extracted. -/
  | done
deriving DecidableEq, Repr

/-- Which result SDIG returns, the register `SMODE` (R17); the value 3 is never written, so it has no name (log 8). -/
inductive SinkMode where
  /-- 0: the primary hash. -/
  | primary
  /-- 1: the secondary hash. -/
  | secondary
  /-- 2: the fingerprint, both. -/
  | both
deriving DecidableEq, Repr

/-- The causes of a fault; the set is closed (R191). -/
inductive Cause where
  /-- 0x01. -/
  | illegalCommand
  /-- 0x02. -/
  | malformed
  /-- 0x03. -/
  | noKey
  /-- 0x04. -/
  | keyBusy
  /-- 0x05. -/
  | sinkState
  /-- 0x06. -/
  | lengthOverflow
deriving DecidableEq, Repr

/-- A response: the triple `(code, r0, r1)` (R70). -/
structure Response where
  code : BitVec 8
  r0 : Word
  r1 : Word
deriving DecidableEq, Repr

/-- A byte memory: its cells with addresses strictly rising, none equal to what an unlisted address reads as. -/
abbrev Memory := List Host.Cell

/-- The whole state of one instance of the block (R10), with the two channels of R60 (log 3). -/
structure State where
  /-- `KEY[0..37]` (R11). -/
  key : Key
  /-- `KEY_VALID` (R13). -/
  keyValid : Bool
  /-- `SSTATE` (R16). -/
  sstate : SinkState
  /-- `SMODE` (R17). -/
  smode : SinkMode
  /-- `SSEED` (R15). -/
  sseed : Word
  /-- `ACC[0]`, the primary accumulator (R18). -/
  acc0 : Word
  /-- `ACC[1]`, the secondary accumulator (R18). -/
  acc1 : Word
  /-- `OHACC[0]` (R19). -/
  ohacc0 : DWord
  /-- `OHACC[1]` (R19). -/
  ohacc1 : DWord
  /-- `LRC`, the running checksum (R20). -/
  lrc : DWord
  /-- `CHUNKS` (R21). -/
  chunks : BitVec 4
  /-- `BUF[0..31]`: `PREV` at 0 to 15, `PEND` at 16 to 31 (R22, R40). -/
  buf : Memory
  /-- `BUFN`, the valid bytes in `PEND` (R22). -/
  bufn : BitVec 5
  /-- `BYTES`, the running byte count (R23). -/
  bytes : Word
  /-- `FAULT`, sticky until reset (R25). -/
  fault : Bool
  /-- `FCAUSE`, the cause of the first fault (R25). -/
  fcause : BitVec 8
  /-- What the host has sent and the block has not taken yet, oldest first: the command channel and the reset input
  (R60, log 3). -/
  input : List HostEvent
  /-- The responses given, oldest first: the response channel (R60, R70, log 3). -/
  output : List Response
deriving DecidableEq, Repr

/-- The block right after reset, with nothing sent and nothing answered (R32, R220). Registers the spec gives no value
hold `unwritten` (log 1); no byte of `BUF` is listed (log 2). -/
def State.reset : State where
  key := Vector.replicate 38 (unwritten 64)
  keyValid := false
  sstate := .uninit
  smode := .primary
  sseed := unwritten 64
  acc0 := unwritten 64
  acc1 := unwritten 64
  ohacc0 := unwritten 128
  ohacc1 := unwritten 128
  lrc := unwritten 128
  chunks := unwritten 4
  buf := []
  bufn := unwritten 5
  bytes := unwritten 64
  fault := false
  fcause := 0
  input := []
  output := []

end Sys2Proof.Machine
end

