-- ==== Sys2Proof/Machine/Flags.lean ====
section
/-! DEFINITION. Codes and status views: the encodings of `SSTATE`, `SMODE` and the causes, the views `STATUS` and `POS`,
the wire form of a response. The only flag of the block is `FAULT` (R25); no arithmetic sets one. -/

namespace Sys2Proof.Machine

/-- The encoding of `SSTATE` (R16). -/
def SinkState.code : SinkState → BitVec 2
  | .uninit => 0
  | .empty => 1
  | .accumulating => 2
  | .done => 3

/-- The encoding of `SMODE` (R17). -/
def SinkMode.code : SinkMode → BitVec 2
  | .primary => 0
  | .secondary => 1
  | .both => 2

/-- The code of a cause, in `FCAUSE` and in the response (R191). -/
def Cause.code : Cause → BitVec 8
  | .illegalCommand => 0x01
  | .malformed => 0x02
  | .noKey => 0x03
  | .keyBusy => 0x04
  | .sinkState => 0x05
  | .lengthOverflow => 0x06

/-- The response code OK (R71). -/
def okCode : BitVec 8 := 0x00

/-- The response code REFUSED (R71). -/
def refusedCode : BitVec 8 := 0xFF

/-- `STATUS` (R26): SSTATE in bits 1..0, SMODE in 3..2, KEY_VALID in 4, FAULT in 5, zeros in 7..6, FCAUSE in 15..8,
zeros above. -/
def State.status (s : State) : Word :=
  (0#48 ++ s.fcause ++ 0#2 ++ BitVec.ofBool s.fault ++ BitVec.ofBool s.keyValid ++ s.smode.code ++ s.sstate.code :
    BitVec 64)

/-- `POS` (R27): BUFN in bits 4..0, zeros in 7..5, CHUNKS in 11..8, zeros above. -/
def State.pos (s : State) : Word := (0#52 ++ s.chunks ++ 0#3 ++ s.bufn : BitVec 64)

/-- The wire form of a response: `code`, then `LE64(r0)`, then `LE64(r1)`, 17 bytes (R70). -/
def Response.bytes (r : Response) : ByteString := r.code :: (leBytes 8 r.r0.toNat ++ leBytes 8 r.r1.toNat)

end Sys2Proof.Machine
end

