-- ==== Sys2Proof/Machine/Ops.lean ====
section
/-! DEFINITION. The shared operations over the state: the memory `BUF`, the key file, responding, and taking a fault. -/

namespace Sys2Proof.Machine

/-! ### The memory `BUF` -/

/-- What a byte of `BUF` that nothing has written reads as.

DESIGN CHOICE (log 2, unsafe): 0xFF; the spec gives it no value and says no rule reads it (R33, U10). -/
def unwrittenByte : Byte := 0xFF

/-- Read one byte of a memory. -/
def Memory.read : Memory → Nat → Byte
  | [], _ => unwrittenByte
  | (a, v) :: m, addr => if a = addr then v else Memory.read m addr

/-- Write one byte of a memory, keeping the canonical form. -/
def Memory.write : Memory → Nat → Byte → Memory
  | [], addr, b => if b = unwrittenByte then [] else [(addr, b)]
  | (a, v) :: m, addr, b =>
    if addr < a then (if b = unwrittenByte then (a, v) :: m else (addr, b) :: (a, v) :: m)
    else if addr = a then (if b = unwrittenByte then m else (addr, b) :: m)
    else (a, v) :: Memory.write m addr b

/-- The canonical form from address `lo` up: addresses strictly rising, inside `BUF` (R40), no entry equal to what an
unlisted address reads as. -/
def Memory.wfFrom : Nat → Memory → Bool
  | _, [] => true
  | lo, (a, v) :: m => decide (lo ≤ a) && decide (a < Config.bufBytes) && v != unwrittenByte && Memory.wfFrom (a + 1) m

/-- The canonical form of `BUF`. -/
def Memory.wf (m : Memory) : Bool := Memory.wfFrom 0 m

/-- The `n` bytes of a memory from address `a`, lowest address first. -/
def Memory.bytesAt (m : Memory) (a n : Nat) : ByteString := (List.range n).map fun k => m.read (a + k)

/-- Store a byte string from address `a` up. -/
def Memory.writeBytes (m : Memory) (a : Nat) : ByteString → Memory
  | [] => m
  | b :: bs => Memory.writeBytes (m.write a b) (a + 1) bs

/-- Read `n` bytes of `BUF` from address `a`; an address outside 0 to 31 does not exist (R40). -/
def readBuf (s : State) (a n : Nat) : Except Fault ByteString :=
  if a + n ≤ Config.bufBytes then .ok (s.buf.bytesAt a n) else .error (.outsideBuf (a + n - 1))

/-- Write one byte of `BUF` at address `a`; an address outside 0 to 31 does not exist (R40). -/
def writeBuf (s : State) (a : Nat) (b : Byte) : Except Fault State :=
  if a < Config.bufBytes then .ok { s with buf := s.buf.write a b } else .error (.outsideBuf a)

/-- The 16 bytes of `PEND`, `BUF[16..31]` (R22). -/
def pend (s : State) : ByteString := s.buf.bytesAt Config.pendBase Config.chunkBytes

/-- The address in `BUF` at which the next byte of the input is appended (R169 step 2). -/
def pendAddr (s : State) : Nat := Config.pendBase + s.bufn.toNat

/-! ### The key file -/

/-- `KEY[j]`; the rules read it only at `j` from 0 to 37 (R11, log 11). -/
def keyWord (k : Key) (j : Nat) : Word := k.toList.getD j 0

/-- `F[w] = KEY[2w]`, the multiplier of hash `w` (R12). -/
def multiplier (k : Key) (w : Nat) : Word := keyWord k (2 * w)

/-- `FSQ[w] = KEY[2w + 1]`, its precomputed square (R12). -/
def square (k : Key) (w : Nat) : Word := keyWord k (2 * w + 1)

/-- `OH[i] = KEY[4 + i]` (R12). -/
def oh (k : Key) (i : Nat) : Word := keyWord k (4 + i)

/-! ### Responding and taking a fault -/

/-- `respond(code, r0, r1)`: the command completes and its response goes to the response channel (R70). -/
def State.respond (s : State) (code : BitVec 8) (r0 r1 : Word) : State :=
  { s with output := s.output ++ [⟨code, r0, r1⟩] }

/-- `respond(0x00, r0, r1)` (R71). -/
def State.ok (s : State) (r0 r1 : Word) : State := s.respond okCode r0 r1

/-- The refusal of a faulted block: `respond(0xFF, 0, 0)`, nothing else changes (R197). -/
def State.refuse (s : State) : State := s.respond refusedCode 0 0

/-- Fault entry, the effect of `raise Fault(c)`: the first cause is recorded, FAULT is set, the response is the cause
(R196). There is no return from it but reset (R198). -/
def State.raise (s : State) (c : Cause) : State :=
  { s with fcause := if s.fault then s.fcause else c.code, fault := true }.respond c.code 0 0

/-- What the reset input leaves: every register as `State.reset` has it. The channels are the host's: what it has yet
to send and what it has been answered stay (R220, log 5). -/
def State.applyReset (s : State) : State := { State.reset with input := s.input, output := s.output }

end Sys2Proof.Machine
end

