-- ==== Sys2Proof/Machine/Accumulator.lean ====
section
/-! DEFINITION. The sub-blocks `polynomial_accumulator_horner` (44_polynomial_accumulator.md) and
`carter_wegman_finalizer` (45_finalizer.md). -/

namespace Sys2Proof.Machine

/-- `horner2(acc, fsq, f, y0, y1)`: exact inside, one reduction modulo 2^64 - 8 at the end (R135, R90). -/
def horner2 (acc fsq f y0 y1 : Word) : Word :=
  BitVec.ofNat 64 ((fsq.toNat * (acc.toNat + y0.toNat) + f.toNat * y1.toNat) % Config.ring)

/-- The step of hash `w` on a compressed value, with the multiplier and the square of the key file (R138). -/
def hornerStep (k : Key) (w : Nat) (acc : Word) (y : DWord) : Word :=
  horner2 acc (square k w) (multiplier k w) (lo64 y) (hi64 y)

/-- `M(a, b)(y) = y ⊕ rotl64(y, a) ⊕ rotl64(y, b)` (R146). -/
def xorRotate (a b : Nat) (y : Word) : Word := y ^^^ rotl64 y a ^^^ rotl64 y b

/-- `finalize(x)` (R145). -/
def finalize (x : Word) : Word := xorRotate Config.rotA Config.rotB x

/-- `unfinalize(y)`, the inverse; no hardware computes it, it is a law (R146). -/
def unfinalize (y : Word) : Word :=
  xorRotate 0 32 (xorRotate 0 16 (xorRotate 0 8 (xorRotate 32 4 (xorRotate 16 2 (xorRotate 8 33 y)))))

end Sys2Proof.Machine
end

