-- ==== Sys2Proof/Machine/Chunker.lean ====
section
/-! DEFINITION. The chunker, the blockifier and the tag derivation (42_chunker_blockifier_tag.md). -/

namespace Sys2Proof.Machine

/-- `c.lo`, the half of a chunk at the lower addresses (R42). -/
def chunkLo (c : ByteString) : Word := le64 (slice c 0 8)

/-- `c.hi`, the half of a chunk at the higher addresses (R42). -/
def chunkHi (c : ByteString) : Word := le64 (slice c 8 16)

/-- `chunk_bytes(d)`: the chunks of an input with their true sizes (R110). It is called only with 9 bytes or more, and
the spec defines it from 8 up (R114, log 11). -/
def chunkBytes (d : ByteString) : List (ByteString × Nat) :=
  let len := d.length
  if len < 16 then [(slice d 0 8 ++ slice d (len - 8) len, len)]
  else
    let m := (len + 15) / 16
    ((List.range (m - 1)).map fun j => (slice d (16 * j) (16 * j + 16), 16)) ++
      [(slice d (len - 16) len, len - 16 * (m - 1))]

/-- A block: its chunks in order and its true byte length. -/
abbrev Block := List ByteString × Nat

/-- `blockify(cs)`: blocks of 16 chunks, the last of 1 to 16, each with the sum of its true sizes (R111). -/
def blockify (cs : List (ByteString × Nat)) : List Block :=
  (List.range ((cs.length + 15) / 16)).map fun b =>
    let group := slice cs (16 * b) (16 * b + 16)
    (group.map Prod.fst, (group.map Prod.snd).sum)

/-- `tag(seed, blen)` (R112). -/
def tag (seed : Word) (blen : Nat) : DWord := cat (seed ^^^ BitVec.ofNat 64 (blen % 256)) 0

end Sys2Proof.Machine
end

