-- ==== Sys2Proof/Machine/Parameters.lean ====
section
/-! DEFINITION. The values of the open parameters (R5). -/

namespace Sys2Proof.Machine

/-- The parameters of this instance: the default values of R5.

DESIGN CHOICE (log 6, unsafe): the document leaves them open (D5, D7, D8, D9); the spec's defaults are taken, with which
every vector of 95_test_vectors.md was computed. -/
def params : Params where
  s1 := 30
  s2 := 27
  s3 := 31
  shortSecShift := 4
  accInit := 0
  shuf := fun n i => n - 1 - i

end Sys2Proof.Machine
end

