-- ==== Sys2Proof/Machine/Compressor.lean ====
section
/-! DEFINITION. The sub-block `block_compressor_oh` (43_block_compressor_oh.md), in its batch form and in the running
form the sink uses. -/

namespace Sys2Proof.Machine

/-- `ph(c, klo, khi)` (R120). -/
def ph (c : ByteString) (klo khi : Word) : DWord := clmul (chunkHi c ^^^ khi) (chunkLo c ^^^ klo)

/-- `enh(c, klo, khi, t)` (R121). -/
def enh (c : ByteString) (klo khi : Word) (t : DWord) : DWord :=
  add128 (mul128 (add64 (chunkHi c) khi) (add64 (chunkLo c) klo)) t

/-- The `PH` value of chunk `i` of a block: the even key word meets the low half, the odd one the high half (R120). -/
def phAt (k : Key) (i : Nat) (c : ByteString) : DWord := ph c (oh k (2 * i)) (oh k (2 * i + 1))

/-- The `ENH` value of the last chunk, chunk `i` of its block (R121). -/
def enhAt (k : Key) (seed : Word) (blen : Nat) (i : Nat) (c : ByteString) : DWord :=
  enh c (oh k (2 * i)) (oh k (2 * i + 1)) (tag seed blen)

/-- The `PH` values of all chunks of a block but the last, in order (R122). -/
def interiorPh (k : Key) (cs : List ByteString) : List DWord :=
  (List.range (cs.length - 1)).map fun i => phAt k i (cs.getD i [])

/-- The `ENH` value of a block (R122). -/
def lastEnh (k : Key) (seed : Word) (cs : List ByteString) (blen : Nat) : DWord :=
  enhAt k seed blen (cs.length - 1) (cs.getD (cs.length - 1) [])

/-- `P`, the primary compressed value of a block (R122). -/
def primaryValue (k : Key) (seed : Word) (cs : List ByteString) (blen : Nat) : DWord :=
  xorAll (interiorPh k cs) ^^^ lastEnh k seed cs blen

/-- `ck.lo` of a block (R123). -/
def checksumLo (k : Key) (cs : List ByteString) : Word :=
  xorAll64 ((List.range cs.length).map fun i => chunkLo (cs.getD i []) ^^^ oh k (2 * i))

/-- `ck.hi` of a block (R123). -/
def checksumHi (k : Key) (cs : List ByteString) : Word :=
  xorAll64 ((List.range cs.length).map fun i => chunkHi (cs.getD i []) ^^^ oh k (2 * i + 1))

/-- `CK` from a checksum: `OH[32]` meets the low half, `OH[33]` the high half (R123). -/
def checksumMix (k : Key) (lo hi : Word) : DWord := clmul (hi ^^^ oh k 33) (lo ^^^ oh k 32)

/-- `shuffle(n, i, v)` (R124). -/
def shuffle (n i : Nat) (v : DWord) : DWord := laneshl v (params.shuf n i)

/-- The shuffled `PH` values of all chunks of a block but the last (R125). -/
def shuffledPh (k : Key) (cs : List ByteString) : List DWord :=
  (List.range (cs.length - 1)).map fun i => shuffle cs.length i (phAt k i (cs.getD i []))

/-- `S`, the secondary compressed value of a block (R125). -/
def secondaryValue (k : Key) (seed : Word) (cs : List ByteString) (blen : Nat) : DWord :=
  xorAll (shuffledPh k cs) ^^^ lastEnh k seed cs blen ^^^ checksumMix k (checksumLo k cs) (checksumHi k cs)

/-- `oh_block(OH, seed, chunks, blen)`, the pair `(P, S)` (R126). -/
def ohBlock (k : Key) (seed : Word) (cs : List ByteString) (blen : Nat) : DWord × DWord :=
  (primaryValue k seed cs blen, secondaryValue k seed cs blen)

/-! ### The running form -/

/-- The partial results of a block in progress: `A0`, `A1` and `K` of R128, held by `OHACC[0]`, `OHACC[1]`, `LRC`. -/
structure Running where
  a0 : DWord
  a1 : DWord
  k : DWord
deriving DecidableEq, Repr

/-- A block with no chunk yet (R128). -/
def Running.start : Running := ⟨0, 0, 0⟩

/-- The checksum `K` after chunk `i` (R128). -/
def checksumStep (key : Key) (i : Nat) (c : ByteString) (k : DWord) : DWord :=
  cat (hi64 k ^^^ chunkHi c ^^^ oh key (2 * i + 1)) (lo64 k ^^^ chunkLo c ^^^ oh key (2 * i))

/-- Chunk `i`, known not to be the last of its block, enters the running values (R128). -/
def Running.step (key : Key) (i : Nat) (c : ByteString) (r : Running) : Running :=
  let v := phAt key i c
  ⟨r.a0 ^^^ v, laneshl (r.a1 ^^^ v) 1, checksumStep key i c r.k⟩

/-- Chunk `i`, the last of its block, closes it: the pair `(P, S)` (R128). -/
def Running.close (key : Key) (seed : Word) (blen : Nat) (i : Nat) (c : ByteString) (r : Running) : DWord × DWord :=
  let k := checksumStep key i c r.k
  let e := enhAt key seed blen i c
  (r.a0 ^^^ e, r.a1 ^^^ e ^^^ checksumMix key (lo64 k) (hi64 k))

end Sys2Proof.Machine
end

