-- ==== Sys2Proof/Machine/ShortMix.lean ====
section
/-! DEFINITION. The sub-block `short_input_mixer` (41_short_input_mixer.md): inputs of 8 bytes or fewer. -/

namespace Sys2Proof.Machine

/-- `which`: the primary or the secondary hash (R152). -/
inductive Which where
  | primary
  | secondary
deriving DecidableEq, Repr

/-- The low word of the packing (R100). -/
def packLow (d : ByteString) : BitVec 32 :=
  if 4 ≤ d.length then le32 (slice d 0 4)
  else if d.length.testBit 0 then (d.getD 0 0).setWidth 32 else 0

/-- The high word of the packing (R100). -/
def packHigh (d : ByteString) : BitVec 32 :=
  if 4 ≤ d.length then le32 (slice d (d.length - 4) d.length)
  else if d.length.testBit 1 then (le16 (slice d (d.length - 2) d.length)).setWidth 32 else 0

/-- `vec_to_u64(d)` for at most 8 bytes (R100). -/
def vecToU64 (d : ByteString) : Word := shl64 ((packHigh d).setWidth 64) 32 ||| (packLow d).setWidth 64

/-- `short_index(which, n)` (R102). -/
def shortIndex (w : Which) (n : Nat) : Nat :=
  match w with
  | .primary => n
  | .secondary => n + params.shortSecShift

/-- The noise of the short mix: the seed plus the length-indexed key word (R101). -/
def shortNoise (k : Key) (seed : Word) (w : Which) (n : Nat) : Word := add64 seed (oh k (shortIndex w n))

/-- The two rounds and the closing step, from the packed word and the noise (R101). -/
def shortRounds (h0 noise : Word) : Word :=
  let h1 := h0 ^^^ shr64 h0 params.s1
  let h2 := mul64 h1 Config.c1
  let h3 := h2 ^^^ noise ^^^ shr64 h2 params.s2
  let h4 := mul64 h3 Config.c2
  h4 ^^^ shr64 h4 params.s3

/-- `short_mix(OH, seed, which, d)` for at most 8 bytes (R101). -/
def shortMix (k : Key) (seed : Word) (w : Which) (d : ByteString) : Word :=
  shortRounds (vecToU64 d) (shortNoise k seed w d.length)

end Sys2Proof.Machine
end

