-- ==== Sys2Proof/Machine/Batch.lean ====
section
/-! DEFINITION. The functions that define every result, and the commands KEYLD, HASH.P, HASH.S, FPRINT and REGRD
(46_batch_commands.md). -/

namespace Sys2Proof.Machine

/-- One block folded into both accumulators (R151, R138). -/
def foldBlock (k : Key) (seed : Word) (acc : Word × Word) (b : Block) : Word × Word :=
  let y := ohBlock k seed b.1 b.2
  (hornerStep k 0 acc.1 y.1, hornerStep k 1 acc.2 y.2)

/-- Both accumulators before the first block (R138). -/
def accStart : Word × Word := (params.accInit, params.accInit)

/-- The long path of `fprint`, for inputs of 9 bytes or more (R151). -/
def longPath (k : Key) (seed : Word) (d : ByteString) : Word × Word :=
  let acc := (blockify (chunkBytes d)).foldl (foldBlock k seed) accStart
  (finalize acc.1, finalize acc.2)

/-- The short path of `fprint`, for inputs of 8 bytes or fewer (R151). -/
def shortPath (k : Key) (seed : Word) (d : ByteString) : Word × Word :=
  (shortMix k seed .primary d, shortMix k seed .secondary d)

/-- `fprint(KEY, seed, d)`: the primary and the secondary hash (R151). -/
def fprint (k : Key) (seed : Word) (d : ByteString) : Word × Word :=
  if d.length ≤ Config.shortMax then shortPath k seed d else longPath k seed d

/-- `hash(KEY, seed, which, d)`, a component of `fprint` (R152). -/
def hashOf (k : Key) (seed : Word) (w : Which) (d : ByteString) : Word :=
  match w with
  | .primary => (fprint k seed d).1
  | .secondary => (fprint k seed d).2

/-- The effect of KEYLD on the registers: the key file, its flag, and DONE gives way to UNINIT (R153). -/
def State.loadKey (s : State) (image : Key) : State :=
  { s with key := image, keyValid := true, sstate := if s.sstate = .done then .uninit else s.sstate }

/-- KEYLD (R153). -/
def execKeyld (image : Key) (s : State) : Host.Outcome State Fault Refusal :=
  if s.sstate = .empty ∨ s.sstate = .accumulating then .next (s.raise .keyBusy)
  else .next ((s.loadKey image).ok 0 0)

/-- A batch command: with no key it faults, else it responds with `r` and writes no register (R154 to R156, R158). -/
def batch (s : State) (r : Word × Word) : Host.Outcome State Fault Refusal :=
  if s.keyValid then .next (s.ok r.1 r.2) else .next (s.raise .noKey)

/-- HASH.P (R154). -/
def execHashP (seed : Word) (data : ByteString) (s : State) : Host.Outcome State Fault Refusal :=
  batch s (hashOf s.key seed .primary data, 0)

/-- HASH.S (R155). -/
def execHashS (seed : Word) (data : ByteString) (s : State) : Host.Outcome State Fault Refusal :=
  batch s (hashOf s.key seed .secondary data, 0)

/-- FPRINT (R156). -/
def execFprint (seed : Word) (data : ByteString) (s : State) : Host.Outcome State Fault Refusal :=
  batch s (fprint s.key seed data)

/-- The value of the register with index `reg` in the table of R27, 0 to 5. -/
def regValue (s : State) (reg : Nat) : Word :=
  match reg with
  | 0 => s.status
  | 1 => s.acc0
  | 2 => s.acc1
  | 3 => s.bytes
  | 4 => s.sseed
  | _ => s.pos

/-- REGRD (R157). -/
def execRegrd (reg : BitVec 8) (s : State) : Host.Outcome State Fault Refusal :=
  if 6 ≤ reg.toNat then .next (s.raise .illegalCommand)
  else if 1 ≤ reg.toNat ∧ s.sstate = .uninit then .next (s.raise .sinkState)
  else .next (s.ok (regValue s reg.toNat) 0)

end Sys2Proof.Machine
end

