-- ==== Sys2Proof/Machine/Sink.lean ====
section
/-! DEFINITION. The sub-block `incremental_hash_sink` and the commands SINIT.P, SINIT.S, SINIT.F, SUPD and SDIG
(47_incremental_sink.md). -/

namespace Sys2Proof.Machine

/-! ### SINIT -/

/-- The registers SINIT.x writes: every sink register but `BUF` (R166). -/
def State.initSink (s : State) (mode : SinkMode) (seed : Word) : State :=
  { s with
    sseed := seed, smode := mode, acc0 := params.accInit, acc1 := params.accInit, ohacc0 := 0, ohacc1 := 0, lrc := 0,
    chunks := 0, bufn := 0, bytes := 0, sstate := .empty }

/-- SINIT.x, but for the mode: it needs a key and is legal in every sink state (R166). -/
def sinit (mode : SinkMode) (seed : Word) (s : State) : Host.Outcome State Fault Refusal :=
  if s.keyValid then .next ((s.initSink mode seed).ok 0 0) else .next (s.raise .noKey)

/-- SINIT.P (R166). -/
def execSinitP (seed : Word) (s : State) : Host.Outcome State Fault Refusal := sinit .primary seed s

/-- SINIT.S (R167). -/
def execSinitS (seed : Word) (s : State) : Host.Outcome State Fault Refusal := sinit .secondary seed s

/-- SINIT.F (R168). -/
def execSinitF (seed : Word) (s : State) : Host.Outcome State Fault Refusal := sinit .both seed s

/-! ### SUPD -/

/-- The block in progress as the sink holds it (R19, R20, R128). -/
def State.running (s : State) : Running := ⟨s.ohacc0, s.ohacc1, s.lrc⟩

/-- `close_chunk` where `CHUNKS` is below 15: the pending chunk enters the block in progress (R170). -/
def State.closeInterior (s : State) : State :=
  let r := s.running.step s.key s.chunks.toNat (pend s)
  { s with ohacc0 := r.a0, ohacc1 := r.a1, lrc := r.k, chunks := s.chunks + 1 }

/-- `close_chunk` where `CHUNKS` is 15: the pending chunk closes a block of 256 bytes, folded into both accumulators
(R170). -/
def State.closeBlock (s : State) : State :=
  let y := s.running.close s.key s.sseed Config.blockBytes s.chunks.toNat (pend s)
  { s with
    acc0 := hornerStep s.key 0 s.acc0 y.1, acc1 := hornerStep s.key 1 s.acc1 y.2, ohacc0 := 0, ohacc1 := 0, lrc := 0,
    chunks := 0 }

/-- `PREV <- PEND; BUFN <- 0` (R170). -/
def State.shiftBuf (s : State) : State := { s with buf := s.buf.writeBytes 0 (pend s), bufn := 0 }

/-- `close_chunk()` (R170). -/
def State.closeChunk (s : State) : State :=
  (if s.chunks.toNat < 15 then s.closeInterior else s.closeBlock).shiftBuf

/-- Step 1 of `absorb_byte`: a full `PEND` is closed (R169). -/
def State.makeRoom (s : State) : State := if s.bufn = 16 then s.closeChunk else s

/-- Steps 3 and 4 of `absorb_byte` (R169). -/
def State.countByte (s : State) : State := { s with bufn := s.bufn + 1, bytes := s.bytes + 1 }

/-- `absorb_byte(b)` (R169). -/
def absorbByte (b : Byte) (s : State) : Except Fault State :=
  match writeBuf s.makeRoom (pendAddr s.makeRoom) b with
  | .ok t => .ok t.countByte
  | .error f => .error f

/-- `absorb_byte` on each data byte, in address order (R171). -/
def absorb : ByteString → State → Except Fault State
  | [], s => .ok s
  | b :: bs, s =>
    match absorbByte b s with
    | .ok t => absorb bs t
    | .error f => .error f

/-- `if LEN >= 1: SSTATE <- ACCUMULATING` (R171, R176). -/
def State.afterUpdate (s : State) (len : Nat) : State :=
  { s with sstate := if 1 ≤ len then .accumulating else s.sstate }

/-- SUPD (R171, R176, R177). -/
def execSupd (data : ByteString) (s : State) : Host.Outcome State Fault Refusal :=
  if s.sstate = .uninit then .next (s.raise .sinkState)
  else if s.sstate = .done then .next (s.raise .sinkState)
  else if 2 ^ 64 ≤ s.bytes.toNat + data.length then .next (s.raise .lengthOverflow)
  else
    match absorb data s with
    | .ok t => .next ((t.afterUpdate data.length).ok 0 0)
    | .error f => .fault f

/-! ### SDIG -/

/-- The last chunk of an input of 9 bytes or more: the first and the last 8 bytes of one of 9 to 15, else the last 16
bytes, which reach back into `PREV` (R172). -/
def lastChunk (s : State) : Except Fault ByteString :=
  if s.bytes.toNat < 16 then
    match readBuf s 16 8, readBuf s (16 + s.bufn.toNat - 8) 8 with
    | .ok a, .ok b => .ok (a ++ b)
    | .error f, _ => .error f
    | _, .error f => .error f
  else readBuf s s.bufn.toNat 16

/-- `blen`, the true length of the block in progress (R172). -/
def blockLength (s : State) : Nat := 16 * s.chunks.toNat + s.bufn.toNat

/-- The digest of a sink whose last chunk is `c`: the block in progress is closed into temporaries (R172). -/
def closingDigest (s : State) (c : ByteString) : Word × Word :=
  let y := s.running.close s.key s.sseed (blockLength s) s.chunks.toNat c
  (finalize (hornerStep s.key 0 s.acc0 y.1), finalize (hornerStep s.key 1 s.acc1 y.2))

/-- `sink_value()`: both hashes of the bytes taken so far; it writes nothing (R172). -/
def sinkValue (s : State) : Except Fault (Word × Word) :=
  if s.bytes.toNat ≤ Config.shortMax then
    match readBuf s 16 s.bytes.toNat with
    | .ok d => .ok (shortPath s.key s.sseed d)
    | .error f => .error f
  else
    match lastChunk s with
    | .ok c => .ok (closingDigest s c)
    | .error f => .error f

/-- What SDIG reports of the two hashes (R173, R17). -/
def SinkMode.report (m : SinkMode) (v : Word × Word) : Word × Word :=
  match m with
  | .primary => (v.1, 0)
  | .secondary => (v.2, 0)
  | .both => v

/-- `SSTATE <- DONE` (R173). -/
def State.finish (s : State) : State := { s with sstate := .done }

/-- SDIG (R173). -/
def execSdig (s : State) : Host.Outcome State Fault Refusal :=
  if s.sstate = .uninit then .next (s.raise .sinkState)
  else
    match sinkValue s with
    | .ok v => .next (s.finish.ok (s.smode.report v).1 (s.smode.report v).2)
    | .error f => .fault f

end Sys2Proof.Machine
end

