-- ==== Sys2Proof/Machine/Dispatch.lean ====
section
/-! DEFINITION. The meaning of each command (R150 steps 4 and 5), one arm per row of the opcode map. -/

namespace Sys2Proof.Machine

def exec (i : Instr) (s : State) : Host.Outcome State Fault Refusal :=
  match i with
  -- KEYLD, R153
  | .keyld image => Sys2Proof.Machine.execKeyld image s
  -- HASH.P, R154
  | .hashP seed data => Sys2Proof.Machine.execHashP seed data s
  -- HASH.S, R155
  | .hashS seed data => Sys2Proof.Machine.execHashS seed data s
  -- FPRINT, R156
  | .fprint seed data => Sys2Proof.Machine.execFprint seed data s
  -- SINIT.P, R166
  | .sinitP seed => Sys2Proof.Machine.execSinitP seed s
  -- SINIT.S, R167
  | .sinitS seed => Sys2Proof.Machine.execSinitS seed s
  -- SINIT.F, R168
  | .sinitF seed => Sys2Proof.Machine.execSinitF seed s
  -- SUPD, R171
  | .supd data => Sys2Proof.Machine.execSupd data s
  -- SDIG, R173
  | .sdig => Sys2Proof.Machine.execSdig s
  -- REGRD, R157
  | .regrd reg => Sys2Proof.Machine.execRegrd reg s

end Sys2Proof.Machine
end

