-- ==== Sys2Proof/Machine/Channel.lean ====
section
/-! DEFINITION. How a transaction is handled (R150) and how the block takes what the host sends (R50, R60, R220). -/

namespace Sys2Proof.Machine

/-- The cause a rejected transaction raises (R72, R74). -/
def rejectCause : Reject → Cause
  | .illegalCommand => .illegalCommand
  | .malformed => .malformed

/-- The transaction a faulted block still serves: exactly `W = 0x00000007` with no operand byte, REGRD STATUS (R197). -/
def readsStatus (t : Transaction) : Bool := t.word == 0x00000007 && t.operands.isEmpty

/-- Step 1 of R150, for a block with `FAULT` = 1 (R197). -/
def answerFaulted (t : Transaction) (s : State) : State :=
  if readsStatus t then s.ok s.status 0 else s.refuse

/-- The steps of R150 in order: the faulted block, decoding, the operand count, then the command itself. -/
def transact (t : Transaction) (s : State) : Host.Outcome State Fault Refusal :=
  if s.fault then .next (answerFaulted t s)
  else
    match decode t with
    | .ok i => exec i s
    | .error r => .next (s.raise (rejectCause r))

/-- The state with its pending host events replaced. -/
def State.withInput (s : State) (events : List HostEvent) : State := { s with input := events }

/-- One host event: a transaction is handled whole, a reset leaves the reset state (R50, R220). A transaction that a
reset abandons gets no response and leaves nothing (R220). -/
def takeEvent (e : HostEvent) (s : State) : Host.Outcome State Fault Refusal :=
  match e with
  | .transaction t => transact t s
  | .reset _ => .next s.applyReset

/-- The block takes the oldest thing the host has sent; with nothing sent it waits (R205). -/
def advance (s : State) : Host.Outcome State Fault Refusal :=
  match s.input with
  | [] => .next s
  | e :: rest => takeEvent e (s.withInput rest)

/-- The state with one more transaction before everything the host has sent. -/
def State.offer (s : State) (t : Transaction) : State := s.withInput (.transaction t :: s.input)

end Sys2Proof.Machine
end

