-- ==== Sys2Proof/Machine/Step.lean ====
section
/-! DEFINITION. One step of the block: one host event, taken whole (R50, R203). -/

namespace Sys2Proof.Machine

/-- One step (R50, R150, R205, R220). -/
def step (s : State) : Host.Outcome State Fault Refusal := advance s

/-- The state whose next transaction is the one with the bits of `w` (log 4). -/
def State.withFetchWord (s : State) (nbits w : Nat) : State := s.offer (frameWord nbits w)

end Sys2Proof.Machine
end

