-- ==== Sys2Proof/Safety.lean ====
section
/-! DEFINITION. What claims about the block are made of: the invariants of its registers (R24, R25), what the sink
registers stand for (R19 to R24), which registers hold a value (R33), the premise on keys (R14, R210). -/

namespace Sys2Proof.Safety

open Sys2Proof Sys2Proof.Machine

/-! ### Register invariants -/

/-- The invariants of the sink registers while `SSTATE ≠ UNINIT` (R24 (a), (b), (c), (e); R18; R19; R20; R22). -/
structure SinkInv (s : State) : Prop where
  /-- SINIT.x needs a key, and nothing but reset takes it away (R13, R166). -/
  keyed : s.keyValid = true
  /-- `BUFN` is a count from 0 to 16 (R22). -/
  bufnLe : s.bufn.toNat ≤ 16
  /-- `BYTES mod 256 = (16 · CHUNKS + BUFN) mod 256` (R24 (a)). -/
  count : s.bytes.toNat % 256 = (16 * s.chunks.toNat + s.bufn.toNat) % 256
  /-- `BUFN = 0` if and only if `BYTES = 0` (R24 (b)). -/
  bufnZero : s.bufn = 0 ↔ s.bytes = 0
  /-- EMPTY implies `BYTES = 0` (R24 (c)). -/
  emptyBytes : s.sstate = .empty → s.bytes = 0
  /-- ACCUMULATING implies `BYTES ≥ 1` (R24 (c)). -/
  accumulatingBytes : s.sstate = .accumulating → 1 ≤ s.bytes.toNat
  /-- With at most 16 bytes nothing has been compressed (R24 (e)). -/
  nothingClosed : s.bytes.toNat ≤ 16 → s.chunks = 0 ∧ s.acc0 = params.accInit ∧ s.acc1 = params.accInit
  /-- The accumulators are residues modulo 2^64 - 8 (R18). -/
  accRange : s.acc0.toNat < Config.ring ∧ s.acc1.toNat < Config.ring
  /-- A block with no chunk yet has the running values 0 (R19, R20). -/
  freshBlock : s.chunks = 0 → s.ohacc0 = 0 ∧ s.ohacc1 = 0 ∧ s.lrc = 0

/-- The invariants of the whole state, true between any two commands. -/
structure Inv (s : State) : Prop where
  /-- `BUF` is in canonical form, inside its 32 addresses (R40). -/
  bufWf : s.buf.wf = true
  /-- `FCAUSE` holds 0 only while `FAULT` = 0, and nothing else then (R25, R191). -/
  noCause : s.fault = false → s.fcause = 0
  /-- `FCAUSE` holds one of the six causes while `FAULT` = 1 (R25, R191). -/
  someCause : s.fault = true → 1 ≤ s.fcause.toNat ∧ s.fcause.toNat ≤ 6
  /-- The sink registers, whenever they hold a value (R24). -/
  sink : s.sstate ≠ .uninit → SinkInv s

/-! ### What the sink registers stand for -/

/-- How many chunks of an input of `n` bytes the sink has closed: the last chunk is still pending (R169, R229). -/
def closedChunks (n : Nat) : Nat := (n - 1) / 16

/-- The full chunk `j` of an input, `d[16j : 16j + 16]` (R113). -/
def inputChunk (d : ByteString) (j : Nat) : ByteString := slice d (16 * j) (16 * j + 16)

/-- The first `n` full blocks of an input, each of 16 chunks and 256 bytes (R113). -/
def closedBlocks (d : ByteString) (n : Nat) : List Block :=
  (List.range n).map fun b => ((List.range 16).map fun i => inputChunk d (16 * b + i), 256)

/-- The running values of a block in progress after its first `n` chunks, which are the chunks of the input from `base`
on (R19, R20, R128). -/
def runningOf (k : Key) (d : ByteString) (base n : Nat) : Running :=
  (List.range n).foldl (fun r i => r.step k i (inputChunk d (base + i))) Running.start

/-- The sink registers stand for the input `d` taken since the last SINIT.x (R18 to R24, all of R24 (a) to (f)). -/
structure Represents (s : State) (d : ByteString) : Prop where
  /-- `BYTES` is the number of bytes taken (R23). -/
  length : s.bytes.toNat = d.length
  /-- `BUFN` bytes are pending (R22). -/
  bufn : s.bufn.toNat = d.length - 16 * closedChunks d.length
  /-- `CHUNKS` chunks of the block in progress are compressed (R21). -/
  chunks : s.chunks.toNat = closedChunks d.length % 16
  /-- `PEND` holds the last `BUFN` bytes (R22, R24 (e)). -/
  pending : s.buf.bytesAt 16 s.bufn.toNat = d.drop (16 * closedChunks d.length)
  /-- `PREV` holds the chunk closed last (R22, R24 (d)). -/
  previous : 1 ≤ closedChunks d.length → s.buf.bytesAt 0 16 = inputChunk d (closedChunks d.length - 1)
  /-- `ACC` is the fold of the blocks closed (R18, R138). -/
  folded : (s.acc0, s.acc1) = (closedBlocks d (closedChunks d.length / 16)).foldl (foldBlock s.key s.sseed) accStart
  /-- `OHACC` and `LRC` are the running values of the block in progress (R19, R20, R24 (f)). -/
  running : s.running = runningOf s.key d (16 * (closedChunks d.length / 16)) (closedChunks d.length % 16)

/-! ### Registers that hold no value -/

/-- Whether the byte of `BUF` at an address holds a value: in `PEND` below `BUFN`, in `PREV` from 17 bytes on (R33). -/
def byteHasValue (s : State) (a : Nat) : Bool :=
  (decide (a < 16) && decide (17 ≤ s.bytes.toNat)) || (decide (16 ≤ a) && decide (a < 16 + s.bufn.toNat))

/-- The state with every register that holds no value (R33) put back to what it holds after reset. Two states with the
same `visible` agree on everything that holds a value. -/
def visible (s : State) : State :=
  let keyed := if s.keyValid then s else { s with key := State.reset.key }
  if s.sstate = .uninit then
    { keyed with
      sseed := State.reset.sseed, acc0 := State.reset.acc0, acc1 := State.reset.acc1,
      ohacc0 := State.reset.ohacc0, ohacc1 := State.reset.ohacc1, lrc := State.reset.lrc,
      chunks := State.reset.chunks, bufn := State.reset.bufn, bytes := State.reset.bytes, buf := State.reset.buf }
  else { keyed with buf := s.buf.filter fun c => byteHasValue s c.1 }

/-! ### Keys, streams, registers -/

/-- `KeyPrepared(KEY)`, the premise the host owes; the block checks none of it (R14, R210). -/
structure KeyPrepared (k : Key) : Prop where
  multipliers : ∀ w < 2, 1 ≤ (multiplier k w).toNat ∧ (multiplier k w).toNat ≤ 2 ^ 61 - 2
  squares : ∀ w < 2, (square k w).toNat = (multiplier k w).toNat * (multiplier k w).toNat % Config.p61
  distinct : ∀ i < 32, ∀ j < 32, oh k i = oh k j → i = j

/-- The transaction of each command, as the host sends them (R204). -/
def sent (cs : List Instr) : List HostEvent := cs.map fun i => .transaction (encode i)

/-- A command that opens a stream in a mode (R166 to R168). -/
def sinitOf (m : SinkMode) (seed : Word) : Instr :=
  match m with
  | .primary => .sinitP seed
  | .secondary => .sinitS seed
  | .both => .sinitF seed

/-- The registers of a state, with the two channels put aside. -/
def registers (s : State) : State := { s with input := [], output := [] }

end Sys2Proof.Safety
end

