-- ==== Sys2Proof/Certificates/Slice0/Obligations.lean ====
section
/-! DEFINITION. The statements for the provers. Each docstring names the rule of spec/ it formalises or rests on. -/

open Sys2Proof Sys2Proof.Machine Sys2Proof.Safety

/-! ### The command encoding -/

/-- R62: no command word selects two rows of the opcode map. -/
def Obligations.OpcodeRowsAreDisjoint : Prop :=
  ∀ w : CommandWord, ∀ r₁ ∈ opcodeMap, ∀ r₂ ∈ opcodeMap, r₁.selects w = true → r₂.selects w = true → r₁ = r₂

/-- R72: the illegal words are exactly those R72 lists; one raises ILLEGAL_COMMAND whatever operands follow it, and a
REGRD of a reserved register is a legal word that raises the same fault. -/
def Obligations.IllegalWordsRaiseIllegalCommand : Prop :=
  (∀ w : CommandWord, rowOf w = none ↔
    ((opcField w).toNat = 0 ∨ 8 ≤ (opcField w).toNat ∨ rsv0Field w ≠ 0 ∨ rsv1Field w ≠ 0 ∨
      (modeField w ≠ 0 ∧ opcField w ≠ 2 ∧ opcField w ≠ 4) ∨ (2 ≤ (modeField w).toNat ∧ opcField w = 2) ∨
      (modeField w = 3 ∧ opcField w = 4) ∨ (regField w ≠ 0 ∧ opcField w ≠ 7))) ∧
  (∀ (s : State) (t : Transaction) (rest : List HostEvent), s.fault = false → rowOf t.word = none →
    step (s.withInput (.transaction t :: rest)) = .next ((s.withInput rest).raise .illegalCommand)) ∧
  (∀ (s : State) (reg : BitVec 8), 6 ≤ reg.toNat →
    (rowOf (encode (.regrd reg)).word).isSome = true ∧ exec (.regrd reg) s = .next (s.raise .illegalCommand))

/-- R74: a legal word with a number of operand bytes other than its format requires raises MALFORMED, and changes
nothing but what the fault entry of R196 changes. -/
def Obligations.WrongOperandCountRaisesMalformed : Prop :=
  ∀ (s : State) (w : CommandWord) (r : OpcodeRow) (ops : ByteString) (rest : List HostEvent),
    s.fault = false → rowOf w = some r →
    (match r.format with
      | .k => ops.length ≠ 304
      | .b => ops.length < 16 ∨ ops.length ≠ 16 + (le64 (slice ops 8 16)).toNat
      | .i => ops.length ≠ 8
      | .u => ops.length < 8 ∨ ops.length ≠ 8 + (le64 (slice ops 0 8)).toNat
      | .n => ops.length ≠ 0) →
    step (s.withInput (.transaction ⟨w, ops⟩ :: rest)) = .next ((s.withInput rest).raise .malformed)

/-- R62 to R67: the decoder reads back every well-formed command from the transaction that carries it. -/
def Obligations.DecodeOfEncodeIsTheCommand : Prop :=
  ∀ i : Instr, i.wf = true → decode (encode i) = .ok i

/-- R62 to R67, R72, R74: every transaction the decoder accepts is the one that carries the command it reads, so no
other transaction carries that command. -/
def Obligations.DecodedTransactionsAreEncodings : Prop :=
  ∀ (t : Transaction) (i : Instr), decode t = .ok i → i.wf = true ∧ encode i = t

/-- R204: the serialised form of a transaction determines it. -/
def Obligations.SerialisedTransactionsParseBack : Prop :=
  ∀ t : Transaction, parseTransaction t.bytes = some t

/-- Transactions written out in the spec, those of R154, R157, R166, R167, R171 and R173, decode to the commands they
stand for. -/
def Obligations.SpecTransactionsDecode : Prop :=
  decode ⟨0x00000002, [0, 0, 0, 0, 0, 0, 0, 0, 3, 0, 0, 0, 0, 0, 0, 0, 0x0B, 0x30, 0x55]⟩ =
      .ok (.hashP 0 [0x0B, 0x30, 0x55]) ∧
    decode ⟨0x00000004, [0, 0, 0, 0, 0, 0, 0, 0]⟩ = .ok (.sinitP 0) ∧
    decode ⟨0x00000104, [0x78, 0x56, 0x34, 0x12, 0xEF, 0xBE, 0xAD, 0xDE]⟩ = .ok (.sinitS 0xDEADBEEF12345678) ∧
    decode ⟨0x00000005, [3, 0, 0, 0, 0, 0, 0, 0, 0x0B, 0x30, 0x55]⟩ = .ok (.supd [0x0B, 0x30, 0x55]) ∧
    decode ⟨0x00000006, []⟩ = .ok .sdig ∧ decode ⟨0x00050007, []⟩ = .ok (.regrd 5)

/-- R70: a response on the wire is 17 bytes, the code and the two words little-endian. -/
def Obligations.ResponsesAreSeventeenBytes : Prop :=
  ∀ r : Response, r.bytes.length = 17 ∧ r.bytes.getD 0 0 = r.code ∧ le64 (slice r.bytes 1 9) = r.r0 ∧
    le64 (slice r.bytes 9 17) = r.r1

/-! ### The arithmetic primitives -/

/-- R80 to R83, R86: sums and products wrap or are exact as the rules say, on integers. -/
def Obligations.WordArithmeticOnIntegers : Prop :=
  ∀ (a b : Word) (s : Nat), s ≤ 63 →
    (add64 a b).toNat = (a.toNat + b.toNat) % 2 ^ 64 ∧ (mul64 a b).toNat = (a.toNat * b.toNat) % 2 ^ 64 ∧
      (shr64 a s).toNat = a.toNat / 2 ^ s ∧ (shl64 a s).toNat = (a.toNat * 2 ^ s) % 2 ^ 64 ∧
      (mul128 a b).toNat = a.toNat * b.toNat

/-- R84: a rotation puts bit `i` at place `(i + r) mod 64` and loses none; its formula, and counts modulo 64. -/
def Obligations.RotationLosesNoBit : Prop :=
  (∀ a : Word, rotl64 a 0 = a) ∧
  (∀ (a : Word) (r : Nat), 1 ≤ r → r ≤ 63 → rotl64 a r = (shl64 a r ||| shr64 a (64 - r))) ∧
  (∀ (a : Word) (r : Nat), rotl64 a r = rotl64 a (r % 64)) ∧
  (∀ (a : Word) (r i : Nat), i < 64 → (rotl64 a r).getLsbD ((i + r) % 64) = a.getLsbD i) ∧
  rotl64 0x0000000000000001 8 = 0x0000000000000100 ∧ rotl64 0x8000000000000001 33 = 0x0000000300000000

/-- R87: the carry-less product bit by bit, its equivalent form, commutative, linear, bit 127 zero, corner cases and
examples. -/
def Obligations.CarrylessProductBitByBit : Prop :=
  (∀ (a b : Word) (k : Nat), k < 128 →
    (clmul a b).getLsbD k =
      (List.range 64).foldr (fun i acc => (a.getLsbD i && (decide (i ≤ k) && b.getLsbD (k - i))) ^^ acc) false) ∧
  (∀ a b : Word, clmul a b =
    (((List.range 64).filter fun i => b.getLsbD i).map fun i => a.setWidth 128 * BitVec.ofNat 128 (2 ^ i)).foldr
      (· ^^^ ·) 0) ∧
  (∀ a b : Word, clmul a b = clmul b a) ∧
  (∀ a a' b : Word, clmul (a ^^^ a') b = clmul a b ^^^ clmul a' b) ∧
  (∀ a b b' : Word, clmul a (b ^^^ b') = clmul a b ^^^ clmul a b') ∧
  (∀ a b : Word, (clmul a b).getLsbD 127 = false) ∧
  (∀ b : Word, clmul 0 b = 0 ∧ clmul 1 b = b.setWidth 128) ∧
  clmul 0x8000000000000000 0x8000000000000000 = BitVec.ofNat 128 (2 ^ 126) ∧ clmul 3 3 = 5 ∧
  clmul 0x87 0x1B = 0xDC1 ∧
  clmul 0xFFFFFFFFFFFFFFFF 0xFFFFFFFFFFFFFFFF = 0x55555555555555555555555555555555 ∧
  clmul 0x0123456789ABCDEF 0xFEDCBA9876543210 = 0x00E038D8688850B040A0789828C810F0

/-- R88: the sum modulo 2^128; a tag moves the high lane only and no carry crosses the lanes. -/
def Obligations.TagAdditionLeavesTheLowLane : Prop :=
  (∀ a b : DWord, (add128 a b).toNat = (a.toNat + b.toNat) % 2 ^ 128) ∧
  (∀ (a : DWord) (t : Word), add128 a (cat t 0) = cat (add64 (hi64 a) t) (lo64 a))

/-- R89: each lane is shifted on its own; the shift is linear and counts add up while they stay within 63. -/
def Obligations.LaneShiftsDoNotCrossLanes : Prop :=
  (∀ (v : DWord) (s : Nat), s ≤ 63 →
    (lo64 (laneshl v s)).toNat = (lo64 v).toNat * 2 ^ s % 2 ^ 64 ∧
      (hi64 (laneshl v s)).toNat = (hi64 v).toNat * 2 ^ s % 2 ^ 64) ∧
  (∀ (v w : DWord) (s : Nat), s ≤ 63 → laneshl (v ^^^ w) s = laneshl v s ^^^ laneshl w s) ∧
  (∀ (v : DWord) (s t : Nat), s + t ≤ 63 → laneshl (laneshl v s) t = laneshl v (s + t)) ∧
  laneshl 0x8000000000000001C000000000000003 1 = 0x00000000000000028000000000000006 ∧
  laneshl 0x8000000000000001C000000000000003 15 = 0x00000000000080000000000000018000

/-! ### The short input mixer -/

/-- R100: the packing by length, its corner cases, its examples, and that it is injective at each fixed length. -/
def Obligations.PackingIsInjectivePerLength : Prop :=
  vecToU64 [] = 0 ∧ (∀ a : Byte, vecToU64 [a] = a.setWidth 64) ∧
  (∀ a b : Byte, (vecToU64 [a, b]).toNat = (a.toNat + 256 * b.toNat) * 2 ^ 32) ∧
  (∀ a b c : Byte, (vecToU64 [a, b, c]).toNat = (b.toNat + 256 * c.toNat) * 2 ^ 32 + a.toNat) ∧
  (∀ d : ByteString, 4 ≤ d.length → d.length ≤ 8 →
    (vecToU64 d).toNat = leNat (d.drop (d.length - 4)) * 2 ^ 32 + leNat (d.take 4)) ∧
  (∀ d : ByteString, d.length = 8 → vecToU64 d = le64 d) ∧
  (∀ a b : ByteString, a.length = b.length → a.length ≤ 8 → vecToU64 a = vecToU64 b → a = b) ∧
  vecToU64 [0x00] = 0 ∧ vecToU64 [0x00, 0x00] = 0 ∧ vecToU64 [0x00, 0x00, 0x00] = 0 ∧
  vecToU64 [0xAB] = 0x00000000000000AB ∧ vecToU64 [0x01, 0x02] = 0x0000020100000000 ∧
  vecToU64 [0x01, 0x02, 0x03] = 0x0000030200000001 ∧
  vecToU64 [0x01, 0x02, 0x03, 0x04, 0x05] = 0x0504030204030201

/-- R101, R102, with the shift counts and the offset the spec takes (log 6): an input of at most 8 bytes hashes to the
two rounds written out, with `OH[n]` as noise for the primary hash and `OH[n + 4]` for the secondary; and R104 (derived
in the spec): the empty input under an all-zero `OH` array and seed 0 hashes to 0, both hashes. -/
def Obligations.ShortInputsTakeTheShortMix : Prop :=
  (∀ (k : Key) (seed : Word) (d : ByteString), d.length ≤ 8 →
    ∀ (w : Which) (x h1 h2 h3 h4 : Word),
      x = keyWord k (match w with | .primary => 4 + d.length | .secondary => 8 + d.length) →
      h1 = vecToU64 d ^^^ vecToU64 d >>> 30 → h2 = h1 * 0xBF58476D1CE4E5B9 →
      h3 = h2 ^^^ (seed + x) ^^^ h2 >>> 27 → h4 = h3 * 0x94D049BB133111EB →
      hashOf k seed w d = h4 ^^^ h4 >>> 31) ∧
  ∀ k : Key, (∀ i < 34, oh k i = 0) → fprint k 0 [] = (0, 0)

/-- R103 and R159 (inferences the spec marks as derived from R100, R101 and R151): two different inputs of the same
length, at most 8 bytes, never have the same hash, primary or secondary, under any key and seed. -/
def Obligations.ShortInputsOfOneLengthNeverCollide : Prop :=
  ∀ (k : Key) (seed : Word) (w : Which) (a b : ByteString),
    a.length = b.length → a.length ≤ 8 → a ≠ b →
    shortMix k seed w a ≠ shortMix k seed w b ∧ hashOf k seed w a ≠ hashOf k seed w b

/-! ### Chunker, blockifier, tag -/

/-- R110: the chunks of an input are 16 bytes each, their true sizes add up to its length, every chunk but the last is an
aligned slice of true size 16, and the last re-reads the last bytes. -/
def Obligations.ChunksCoverTheInput : Prop :=
  ∀ d : ByteString, 8 ≤ d.length →
    (chunkBytes d).length = (d.length + 15) / 16 ∧ ((chunkBytes d).map Prod.snd).sum = d.length ∧
    (∀ c ∈ chunkBytes d, c.1.length = 16 ∧ 1 ≤ c.2 ∧ c.2 ≤ 16) ∧
    (∀ j, j + 1 < (chunkBytes d).length → (chunkBytes d)[j]? = some (slice d (16 * j) (16 * j + 16), 16)) ∧
    (if d.length < 16 then chunkBytes d = [(d.take 8 ++ d.drop (d.length - 8), d.length)]
      else (chunkBytes d).getLast? =
        some (d.drop (d.length - 16), d.length - 16 * ((chunkBytes d).length - 1)))

/-- R111: the blocks of a list of chunks take 16 each in order, each with the sum of its true sizes; the blocks of an
input: every one but the last has 16 aligned chunks and 256 bytes, the last holds the rest, 1 to 16 chunks and 1 to 256
bytes. -/
def Obligations.BlocksAreFullButTheLast : Prop :=
  (∀ cs : List (ByteString × Nat), (blockify cs).length = (cs.length + 15) / 16 ∧
    ∀ b, 16 * b < cs.length →
      ∃ g : List (ByteString × Nat), (blockify cs)[b]? = some (g.map Prod.fst, (g.map Prod.snd).sum) ∧
        g.length = min (16 * b + 16) cs.length - 16 * b ∧ ∀ i < g.length, g[i]? = cs[16 * b + i]?) ∧
  ∀ d : ByteString, 8 ≤ d.length →
    (blockify (chunkBytes d)).length = (d.length + 255) / 256 ∧
    (∀ b, b + 1 < (blockify (chunkBytes d)).length →
      ∃ cs, (blockify (chunkBytes d))[b]? = some (cs, 256) ∧ cs.length = 16 ∧
        ∀ i < 16, cs[i]? = some (slice d (256 * b + 16 * i) (256 * b + 16 * i + 16))) ∧
    (∃ cs blen, (blockify (chunkBytes d)).getLast? = some (cs, blen) ∧
      blen = d.length - 256 * ((blockify (chunkBytes d)).length - 1) ∧ 1 ≤ blen ∧ blen ≤ 256 ∧
      cs.length = (chunkBytes d).length - 16 * ((blockify (chunkBytes d)).length - 1) ∧
      1 ≤ cs.length ∧ cs.length ≤ 16)

/-- R112: the tag holds the seed and the length modulo 256 in its high lane and zeros in its low lane; all interior
blocks of an input share one tag. -/
def Obligations.TagHoldsSeedAndLength : Prop :=
  (∀ (seed : Word) (blen : Nat), 1 ≤ blen → blen ≤ 256 →
    lo64 (tag seed blen) = 0 ∧ hi64 (tag seed blen) = seed ^^^ BitVec.ofNat 64 (blen % 256) ∧
      ∀ i, 8 ≤ i → i < 64 → (hi64 (tag seed blen)).getLsbD i = seed.getLsbD i) ∧
  (∀ (seed : Word) (d : ByteString), 9 ≤ d.length →
    ∀ b ∈ (blockify (chunkBytes d)).dropLast, tag seed b.2 = cat seed 0) ∧
  (∀ seed : Word, tag seed 256 = cat seed 0) ∧ tag 0 256 = 0 ∧
  tag 0 16 = 0x00000000000000100000000000000000 ∧
  tag 0xDEADBEEF12345678 255 = 0xDEADBEEF123456870000000000000000 ∧
  tag 0xDEADBEEF12345678 256 = 0xDEADBEEF123456780000000000000000

/-- R232 (derived in the spec from R111 and R112): two block lengths never share a tag. -/
def Obligations.TagSeparatesBlockLengths : Prop :=
  ∀ (seed : Word) (m n : Nat), 1 ≤ m → m ≤ 256 → 1 ≤ n → n ≤ 256 → tag seed m = tag seed n → m = n

/-! ### The block compressor -/

/-- R120 to R123 and R125, with the shuffle the spec takes (log 6): the two values of a block, from the halves of its
chunks and the words of the key file. -/
def Obligations.BlockValuesFromChunksAndKeyWords : Prop :=
  ∀ (k : Key) (seed : Word) (blen : Nat) (cs : List ByteString) (c : ByteString), cs.length ≤ 15 →
    ∃ (v : Nat → DWord) (e : DWord) (lo hi : Word),
      (∀ i < cs.length, v i =
        clmul (le64 ((cs.getD i []).take 8) ^^^ keyWord k (4 + 2 * i))
          (le64 (((cs.getD i []).drop 8).take 8) ^^^ keyWord k (5 + 2 * i))) ∧
      e.toNat =
        (((le64 ((c.drop 8).take 8)).toNat + (keyWord k (5 + 2 * cs.length)).toNat) % 2 ^ 64 *
            (((le64 (c.take 8)).toNat + (keyWord k (4 + 2 * cs.length)).toNat) % 2 ^ 64) +
          (seed ^^^ BitVec.ofNat 64 (blen % 256)).toNat * 2 ^ 64) % 2 ^ 128 ∧
      lo = ((List.range (cs.length + 1)).map fun i =>
        le64 (((cs ++ [c]).getD i []).take 8) ^^^ keyWord k (4 + 2 * i)).foldr (· ^^^ ·) 0 ∧
      hi = ((List.range (cs.length + 1)).map fun i =>
        le64 ((((cs ++ [c]).getD i []).drop 8).take 8) ^^^ keyWord k (5 + 2 * i)).foldr (· ^^^ ·) 0 ∧
      ohBlock k seed (cs ++ [c]) blen =
        (((List.range cs.length).map v).foldr (· ^^^ ·) 0 ^^^ e,
          ((List.range cs.length).map fun i => laneshl (v i) (cs.length - i)).foldr (· ^^^ ·) 0 ^^^ e ^^^
            clmul (hi ^^^ keyWord k 37) (lo ^^^ keyWord k 36))

/-- R128 (derived in the spec from R122 to R125): the running form, fed chunk by chunk, gives the two values of the
block, and its second value in progress is the sum with shifts counted from the number of chunks so far. -/
def Obligations.RunningFormEqualsBlockForm : Prop :=
  ∀ (k : Key) (seed : Word) (blen : Nat) (cs : List ByteString) (c : ByteString), cs.length ≤ 15 →
    ((List.range cs.length).foldl (fun r i => r.step k i (cs.getD i [])) Running.start).a1 =
        ((List.range cs.length).map fun i => laneshl (phAt k i (cs.getD i [])) (cs.length - i)).foldr (· ^^^ ·) 0 ∧
      ((List.range cs.length).foldl (fun r i => r.step k i (cs.getD i [])) Running.start).close k seed blen cs.length c =
        ohBlock k seed (cs ++ [c]) blen

/-- R152 (derived in the spec from R151): the primary hash does not depend on `F[1]`, `FSQ[1]`, `OH[32]`, `OH[33]`; the
secondary hash does not depend on `F[0]`, `FSQ[0]`. -/
def Obligations.HashesIgnoreTheOtherKeyWords : Prop :=
  ∀ (k k' : Key) (seed : Word) (d : ByteString),
    ((∀ j < 38, j ≠ 2 → j ≠ 3 → j ≠ 36 → j ≠ 37 → keyWord k j = keyWord k' j) →
      hashOf k seed .primary d = hashOf k' seed .primary d) ∧
    ((∀ j < 38, j ≠ 0 → j ≠ 1 → keyWord k j = keyWord k' j) →
      hashOf k seed .secondary d = hashOf k' seed .secondary d)

/-! ### Accumulator and finalizer -/

/-- R135: the step on exact integers, with one reduction at the end; its corner cases and examples; its result is below
2^64 - 8. -/
def Obligations.HornerStepIsExactModuloTheRing : Prop :=
  (∀ acc fsq f y0 y1 : Word,
    (horner2 acc fsq f y0 y1).toNat =
        (fsq.toNat * (acc.toNat + y0.toNat) + f.toNat * y1.toNat) % (2 ^ 64 - 8) ∧
      (horner2 acc fsq f y0 y1).toNat ≤ 0xFFFFFFFFFFFFFFF7) ∧
  (∀ (k : Key) (w : Nat) (acc : Word) (y : DWord), w < 2 →
    hornerStep k w acc y = horner2 acc (keyWord k (2 * w + 1)) (keyWord k (2 * w)) (lo64 y) (hi64 y)) ∧
  (∀ fsq f : Word, horner2 0 fsq f 0 0 = 0) ∧
  horner2 0xFFFFFFFFFFFFFFF7 1 1 1 0 = 0 ∧
  horner2 0xFFFFFFFFFFFFFFF7 1 1 0xFFFFFFFFFFFFFFFF 0xFFFFFFFFFFFFFFFF = 0xD ∧
  horner2 0 1 1 5 7 = 0xC ∧
  horner2 0 0x1CB03D3F72925A87 0x0123456789ABCDEF 1 2 = 0x1EF6C80E85E9F665 ∧
  horner2 0xFFFFFFFFFFFFFFF7 0x1FFFFFFFFFFFFFFE 0x1FFFFFFFFFFFFFFE 0xFFFFFFFFFFFFFFFF 0xFFFFFFFFFFFFFFFF =
    0x9FFFFFFFFFFFFFEE ∧
  horner2 0x00000000075BCD15 0x14CCC27195EB2D17 0x0FEDCBA987654321 0xFFFFFFFFFFFFFFF8 0xFFFFFFFFFFFFFFFF =
    0x557B32D6002069EA

/-- R137 and R91 (a), (b) (derived in the spec): reduction modulo 2^64 - 8 loses nothing of a value modulo 2^61 - 1, so
modulo 2^61 - 1 the step is two single Horner updates where the square is right; so it is under a prepared key (R210). -/
def Obligations.HornerStepIsTwoUpdatesInTheField : Prop :=
  Config.ring = 8 * Config.p61 ∧ (∀ a : Int, (a % Config.ring) % Config.p61 = a % Config.p61) ∧
  (∀ acc fsq f y0 y1 : Word, fsq.toNat % Config.p61 = f.toNat * f.toNat % Config.p61 →
    (horner2 acc fsq f y0 y1).toNat % Config.p61 =
      f.toNat * (f.toNat * (acc.toNat + y0.toNat) + y1.toNat) % Config.p61) ∧
  (∀ (k : Key) (w : Nat) (acc : Word) (y : DWord), KeyPrepared k → w < 2 →
    (hornerStep k w acc y).toNat % Config.p61 =
      (multiplier k w).toNat * ((multiplier k w).toNat * (acc.toNat + (lo64 y).toNat) + (hi64 y).toNat) % Config.p61)

/-- R138, R151, with the accumulator start the spec takes (log 6): each hash of an input of 9 bytes or more is its own
Horner fold over the compressed blocks, finalized; the two share nothing but the input. -/
def Obligations.LongHashesAreSeparateHornerFolds : Prop :=
  ∀ (k : Key) (seed : Word) (d : ByteString), 9 ≤ d.length →
    hashOf k seed .primary d =
        finalize ((blockify (chunkBytes d)).foldl (fun acc b =>
          horner2 acc (keyWord k 1) (keyWord k 0) (lo64 (primaryValue k seed b.1 b.2))
            (hi64 (primaryValue k seed b.1 b.2))) 0) ∧
      hashOf k seed .secondary d =
        finalize ((blockify (chunkBytes d)).foldl (fun acc b =>
          horner2 acc (keyWord k 3) (keyWord k 2) (lo64 (secondaryValue k seed b.1 b.2))
            (hi64 (secondaryValue k seed b.1 b.2))) 0)

/-- R228 (derived in the spec from R135 and R145): with a zero multiplier and square every input of 9 bytes or more
hashes to 0. -/
def Obligations.ZeroMultiplierMakesTheLongHashZero : Prop :=
  ∀ (k : Key) (seed : Word) (d : ByteString), 9 ≤ d.length →
    (multiplier k 0 = 0 → square k 0 = 0 → hashOf k seed .primary d = 0) ∧
      (multiplier k 1 = 0 → square k 1 = 0 → hashOf k seed .secondary d = 0)

/-- R145: the finalizer's formula, where it is applied, its corner cases, that it is linear, and its examples. -/
def Obligations.FinalizerFormula : Prop :=
  (∀ x : Word, finalize x = x ^^^ rotl64 x 8 ^^^ rotl64 x 33) ∧ finalize 0 = 0 ∧
  (∀ (k : Key) (seed : Word) (d : ByteString), 9 ≤ d.length →
    fprint k seed d =
      (finalize ((blockify (chunkBytes d)).foldl (foldBlock k seed) accStart).1,
        finalize ((blockify (chunkBytes d)).foldl (foldBlock k seed) accStart).2)) ∧
  finalize 0xFFFFFFFFFFFFFFFF = 0xFFFFFFFFFFFFFFFF ∧
  (∀ acc fsq f y0 y1 : Word, horner2 acc fsq f y0 y1 ≠ 0xFFFFFFFFFFFFFFFF) ∧
  (∀ a b : Word, finalize (a ^^^ b) = finalize a ^^^ finalize b) ∧
  finalize 1 = 0x0000000200000101 ∧ finalize 0x8000000000000000 = 0x8000000100000080 ∧
  finalize 0x0123456789ABCDEF = 0x3131B9302020A821 ∧ finalize 0xFFFFFFFFFFFFFFF7 = 0xFFFFFFEFFFFFF7F7

/-- R146 (derived in the spec from R145 and R84): `unfinalize` inverts `finalize` on both sides. -/
def Obligations.UnfinalizeInvertsFinalize : Prop :=
  ∀ x : Word, unfinalize (finalize x) = x ∧ finalize (unfinalize x) = x

/-! ### Taking a fault -/

/-- R196: the fault entry records the first cause, sets FAULT, responds with the cause, and changes nothing else. -/
def Obligations.FaultEntryRecordsTheFirstCause : Prop :=
  ∀ (s : State) (c : Cause),
    (s.fault = false → s.raise c =
      { s with fcause := c.code, fault := true, output := s.output ++ [⟨c.code, 0, 0⟩] }) ∧
    (s.fault = true → s.raise c = { s with output := s.output ++ [⟨c.code, 0, 0⟩] })

/-- R197: a faulted block answers every transaction with REFUSED, but for the exact REGRD STATUS transaction, and changes
nothing. -/
def Obligations.FaultedBlockRefusesTransactions : Prop :=
  ∀ (s : State) (t : Transaction) (rest : List HostEvent), s.fault = true →
    step (s.withInput (.transaction t :: rest)) =
      .next { s with
        input := rest,
        output := s.output ++ [if t.word = 0x00000007 ∧ t.operands = [] then ⟨0x00, s.status, 0⟩ else ⟨0xFF, 0, 0⟩] }

/-- R197, R198, R199: however many transactions follow a fault, no register changes. -/
def Obligations.FaultIsFinalWithoutReset : Prop :=
  ∀ (n : Nat) (s : State), s.fault = true → (∀ e ∈ s.input, ∃ t, e = HostEvent.transaction t) →
    ∃ t : State, Host.Core.run Sys2Proof.core n s = .next t ∧ registers t = registers s

/-! ### The batch commands -/

/-- R153: KEYLD in every sink state. -/
def Obligations.KeyldLoadsTheKeyFile : Prop :=
  ∀ (image : Key) (s : State),
    (encode (.keyld image)).word = 0x00000001 ∧ (encode (.keyld image)).operands.length = 304 ∧
    (s.sstate = .empty ∨ s.sstate = .accumulating → exec (.keyld image) s = .next (s.raise .keyBusy)) ∧
    (s.sstate = .uninit → exec (.keyld image) s =
      .next { s with key := image, keyValid := true, output := s.output ++ [⟨0x00, 0, 0⟩] }) ∧
    (s.sstate = .done → exec (.keyld image) s =
      .next { s with
        key := image, keyValid := true, sstate := .uninit, output := s.output ++ [⟨0x00, 0, 0⟩] })

/-- R154: HASH.P faults with NO_KEY, or responds with the primary hash and writes no register. -/
def Obligations.HashPRespondsWithThePrimaryHash : Prop :=
  ∀ (seed : Word) (data : ByteString) (s : State),
    (encode (.hashP seed data)).word = 0x00000002 ∧
    (encode (.hashP seed data)).operands = leBytes 8 seed.toNat ++ leBytes 8 data.length ++ data ∧
    (s.keyValid = false → exec (.hashP seed data) s = .next (s.raise .noKey)) ∧
    (s.keyValid = true → exec (.hashP seed data) s =
      .next { s with output := s.output ++ [⟨0x00, hashOf s.key seed .primary data, 0⟩] })

/-- R155: HASH.S faults with NO_KEY, or responds with the secondary hash and writes no register. -/
def Obligations.HashSRespondsWithTheSecondaryHash : Prop :=
  ∀ (seed : Word) (data : ByteString) (s : State),
    (encode (.hashS seed data)).word = 0x00000102 ∧
    (encode (.hashS seed data)).operands = leBytes 8 seed.toNat ++ leBytes 8 data.length ++ data ∧
    (s.keyValid = false → exec (.hashS seed data) s = .next (s.raise .noKey)) ∧
    (s.keyValid = true → exec (.hashS seed data) s =
      .next { s with output := s.output ++ [⟨0x00, hashOf s.key seed .secondary data, 0⟩] })

/-- R156: FPRINT faults with NO_KEY, or responds with both hashes and writes no register. -/
def Obligations.FprintRespondsWithBothHashes : Prop :=
  ∀ (seed : Word) (data : ByteString) (s : State),
    (encode (.fprint seed data)).word = 0x00000003 ∧
    (encode (.fprint seed data)).operands = leBytes 8 seed.toNat ++ leBytes 8 data.length ++ data ∧
    (s.keyValid = false → exec (.fprint seed data) s = .next (s.raise .noKey)) ∧
    (s.keyValid = true → exec (.fprint seed data) s =
      .next { s with
        output := s.output ++ [⟨0x00, hashOf s.key seed .primary data, hashOf s.key seed .secondary data⟩] })

/-- R157 and the table of R27: REGRD answers the register named, or faults, and writes no register; the fields of POS. -/
def Obligations.RegrdReadsTheNamedRegister : Prop :=
  ∀ s : State,
    (∀ reg : BitVec 8, (encode (.regrd reg)).word = 0x00000007#32 ||| (reg.setWidth 32 <<< 16) ∧
      (encode (.regrd reg)).operands = []) ∧
    (∀ reg : BitVec 8, 6 ≤ reg.toNat → exec (.regrd reg) s = .next (s.raise .illegalCommand)) ∧
    (∀ reg : BitVec 8, 1 ≤ reg.toNat → reg.toNat ≤ 5 → s.sstate = .uninit →
      exec (.regrd reg) s = .next (s.raise .sinkState)) ∧
    exec (.regrd 0) s = .next { s with output := s.output ++ [⟨0x00, s.status, 0⟩] } ∧
    (s.sstate ≠ .uninit →
      exec (.regrd 1) s = .next { s with output := s.output ++ [⟨0x00, s.acc0, 0⟩] } ∧
      exec (.regrd 2) s = .next { s with output := s.output ++ [⟨0x00, s.acc1, 0⟩] } ∧
      exec (.regrd 3) s = .next { s with output := s.output ++ [⟨0x00, s.bytes, 0⟩] } ∧
      exec (.regrd 4) s = .next { s with output := s.output ++ [⟨0x00, s.sseed, 0⟩] } ∧
      exec (.regrd 5) s = .next { s with output := s.output ++ [⟨0x00, s.pos, 0⟩] }) ∧
    (s.pos.extractLsb' 0 5 = s.bufn ∧ s.pos.extractLsb' 5 3 = 0 ∧ s.pos.extractLsb' 8 4 = s.chunks ∧
      s.pos.extractLsb' 12 52 = 0)

/-- R26: the fields of STATUS, and that it reads 0 after reset. -/
def Obligations.StatusFieldsViewTheRegisters : Prop :=
  (∀ s : State,
    s.status.extractLsb' 0 2 = s.sstate.code ∧ s.status.extractLsb' 2 2 = s.smode.code ∧
      s.status.getLsbD 4 = s.keyValid ∧ s.status.getLsbD 5 = s.fault ∧ s.status.extractLsb' 6 2 = 0 ∧
      s.status.extractLsb' 8 8 = s.fcause ∧ s.status.extractLsb' 16 48 = 0) ∧
  State.reset.status = 0

/-! ### The sink -/

/-- R166, R167, R168: SINIT.x faults with NO_KEY, or initialises every sink register but `BUF`, in any sink state. -/
def Obligations.SinitInitialisesTheSink : Prop :=
  (∀ seed : Word, (encode (.sinitP seed)).word = 0x00000004 ∧ (encode (.sinitS seed)).word = 0x00000104 ∧
    (encode (.sinitF seed)).word = 0x00000204) ∧
  (∀ (m : SinkMode) (seed : Word), (encode (sinitOf m seed)).operands = leBytes 8 seed.toNat) ∧
  ∀ (i : Instr) (m : SinkMode) (seed : Word) (s : State),
    (i = .sinitP seed ∧ m = .primary ∨ i = .sinitS seed ∧ m = .secondary ∨ i = .sinitF seed ∧ m = .both) →
    (s.keyValid = false → exec i s = .next (s.raise .noKey)) ∧
    (s.keyValid = true → exec i s =
      .next { s with
        sseed := seed, smode := m, acc0 := params.accInit, acc1 := params.accInit, ohacc0 := 0, ohacc1 := 0,
        lrc := 0, chunks := 0, bufn := 0, bytes := 0, sstate := .empty, output := s.output ++ [⟨0x00, 0, 0⟩] })

/-- R171 checks, R177, R191: when SUPD faults, in the order of the checks, and that it takes no byte then. -/
def Obligations.SupdChecksBeforeTakingAByte : Prop :=
  ∀ (data : ByteString) (s : State),
    (s.sstate = .uninit ∨ s.sstate = .done → exec (.supd data) s = .next (s.raise .sinkState)) ∧
    (s.sstate = .empty ∨ s.sstate = .accumulating → 2 ^ 64 ≤ s.bytes.toNat + data.length →
      exec (.supd data) s = .next (s.raise .lengthOverflow))

/-- R176: an SUPD of no bytes changes nothing and responds OK; in DONE it faults like any SUPD. -/
def Obligations.EmptySupdChangesNothing : Prop :=
  ∀ s : State,
    (s.sstate = .empty ∨ s.sstate = .accumulating →
      exec (.supd []) s = .next { s with output := s.output ++ [⟨0x00, 0, 0⟩] }) ∧
    (s.sstate = .done → exec (.supd []) s = .next (s.raise .sinkState))

/-- R171, R169, R170, R21 to R23: an SUPD of one byte or more completes, counts its bytes, moves the position on by as
many modulo 256, and leaves alone the key, the mode, the seed and the fault registers; the compressor's registers while no
chunk closes; the accumulators while no block closes; and every byte of memory outside
the addresses it stores to: those in `PEND` that the positions of the data bytes give and, only when a chunk closes, those
of `PREV`. -/
def Obligations.SupdTakesAllItsBytes : Prop :=
  ∀ (data : ByteString) (s : State),
    s.sstate = .empty ∨ s.sstate = .accumulating → s.bufn.toNat ≤ 16 → s.buf.wf = true → 1 ≤ data.length →
    s.bytes.toNat + data.length < 2 ^ 64 →
    ∃ t, exec (.supd data) s = .next t ∧ t.sstate = .accumulating ∧
      t.bytes.toNat = s.bytes.toNat + data.length ∧ 1 ≤ t.bufn.toNat ∧ t.bufn.toNat ≤ 16 ∧
      (16 * t.chunks.toNat + t.bufn.toNat) % 256 =
        (16 * s.chunks.toNat + s.bufn.toNat + data.length) % 256 ∧
      t.key = s.key ∧ t.keyValid = s.keyValid ∧ t.smode = s.smode ∧ t.sseed = s.sseed ∧ t.fault = s.fault ∧
      t.fcause = s.fcause ∧ t.input = s.input ∧ t.output = s.output ++ [⟨0x00, 0, 0⟩] ∧
      (s.bufn.toNat + data.length ≤ 16 →
        t.ohacc0 = s.ohacc0 ∧ t.ohacc1 = s.ohacc1 ∧ t.lrc = s.lrc ∧ t.chunks = s.chunks) ∧
      (16 * s.chunks.toNat + s.bufn.toNat + data.length ≤ 256 → t.acc0 = s.acc0 ∧ t.acc1 = s.acc1) ∧
      ∀ a, (∀ k < data.length, a ≠ Config.pendBase + (pendAddr s + k) % Config.chunkBytes) →
        (a < Config.pendBase → s.bufn.toNat + data.length ≤ 16) → t.buf.read a = s.buf.read a

/-- R169: bytes that fit in `PEND` are appended at its first free address, and nothing else of the memory or of the
compressor's registers changes. -/
def Obligations.SupdAppendsToPend : Prop :=
  ∀ (data : ByteString) (s : State),
    s.sstate = .empty ∨ s.sstate = .accumulating → s.buf.wf = true → s.bufn.toNat + data.length ≤ 16 →
    s.bytes.toNat + data.length < 2 ^ 64 →
    ∃ t, exec (.supd data) s = .next t ∧ t.bufn.toNat = s.bufn.toNat + data.length ∧
      t.acc0 = s.acc0 ∧ t.acc1 = s.acc1 ∧ t.ohacc0 = s.ohacc0 ∧ t.ohacc1 = s.ohacc1 ∧ t.lrc = s.lrc ∧
      t.chunks = s.chunks ∧
      ∀ a, t.buf.read a =
        if pendAddr s ≤ a ∧ a < pendAddr s + data.length then data.getD (a - pendAddr s) 0 else s.buf.read a

/-- R169 and R170: a byte that arrives at a full `PEND` first closes the pending chunk: an interior chunk enters the
running values, the sixteenth closes the block into both accumulators; `PEND` moves into `PREV` and the byte is stored at
address 16. -/
def Obligations.SupdAtFullPendClosesTheChunk : Prop :=
  ∀ (b : Byte) (s : State),
    s.sstate = .empty ∨ s.sstate = .accumulating → s.buf.wf = true → s.bufn = 16 → s.bytes.toNat + 1 < 2 ^ 64 →
    ∃ t, exec (.supd [b]) s = .next t ∧ t.bufn = 1 ∧
      (∀ a, t.buf.read a =
        if a < 16 then s.buf.read (16 + a) else if a = 16 then b else s.buf.read a) ∧
      (s.chunks.toNat < 15 →
        t.chunks = s.chunks + 1 ∧ t.acc0 = s.acc0 ∧ t.acc1 = s.acc1 ∧
          t.ohacc0 = s.ohacc0 ^^^ phAt s.key s.chunks.toNat (pend s) ∧
          t.ohacc1 = laneshl (s.ohacc1 ^^^ phAt s.key s.chunks.toNat (pend s)) 1 ∧
          lo64 t.lrc = lo64 s.lrc ^^^ chunkLo (pend s) ^^^ oh s.key (2 * s.chunks.toNat) ∧
          hi64 t.lrc = hi64 s.lrc ^^^ chunkHi (pend s) ^^^ oh s.key (2 * s.chunks.toNat + 1)) ∧
      (s.chunks.toNat = 15 →
        t.chunks = 0 ∧ t.ohacc0 = 0 ∧ t.ohacc1 = 0 ∧ t.lrc = 0 ∧
          ∃ e p q : DWord, e = enh (pend s) (oh s.key 30) (oh s.key 31) (cat s.sseed 0) ∧ p = s.ohacc0 ^^^ e ∧
            q = s.ohacc1 ^^^ e ^^^
              clmul (hi64 s.lrc ^^^ chunkHi (pend s) ^^^ oh s.key 31 ^^^ oh s.key 33)
                (lo64 s.lrc ^^^ chunkLo (pend s) ^^^ oh s.key 30 ^^^ oh s.key 32) ∧
            t.acc0 = horner2 s.acc0 (square s.key 0) (multiplier s.key 0) (lo64 p) (hi64 p) ∧
            t.acc1 = horner2 s.acc1 (square s.key 1) (multiplier s.key 1) (lo64 q) (hi64 q))

/-- R171: one SUPD of `a ∥ b` leaves the registers that SUPD of `a` and then SUPD of `b` leave. -/
def Obligations.SupdDependsOnlyOnTheConcatenation : Prop :=
  ∀ (a b : ByteString) (s : State),
    s.sstate = .empty ∨ s.sstate = .accumulating → s.bufn.toNat ≤ 16 →
    s.bytes.toNat + a.length + b.length < 2 ^ 64 →
    ∃ t u v, exec (.supd (a ++ b)) s = .next t ∧ exec (.supd a) s = .next u ∧ exec (.supd b) u = .next v ∧
      registers v = registers t

/-- R173: SDIG faults in UNINIT; else it answers what the mode selects of `sink_value` and changes the state word only; a
second SDIG gives the same response and changes nothing; in EMPTY the digest is that of the empty input. -/
def Obligations.SdigReportsTheSinkValue : Prop :=
  (encode .sdig).word = 0x00000006 ∧ (encode .sdig).operands = [] ∧
  ∀ s : State,
    (s.sstate = .uninit → exec .sdig s = .next (s.raise .sinkState)) ∧
    (s.sstate ≠ .uninit → s.bufn.toNat ≤ 16 →
      ∃ (p q : Word) (r : Response), sinkValue s = .ok (p, q) ∧
        (r = match s.smode with
          | .primary => ⟨0x00, p, 0⟩
          | .secondary => ⟨0x00, q, 0⟩
          | .both => ⟨0x00, p, q⟩) ∧
        exec .sdig s = .next { s with sstate := .done, output := s.output ++ [r] } ∧
        exec .sdig { s with sstate := .done, output := s.output ++ [r] } =
          .next { s with sstate := .done, output := s.output ++ [r] ++ [r] } ∧
        (s.sstate = .empty → s.bytes = 0 → (p, q) = fprint s.key s.sseed []))

/-- R24, with the accumulator start the spec takes (log 6): SINIT.x makes the sink stand for the empty input, and SUPD
makes a sink that stands for `d` stand for `d ∥ data`. -/
def Obligations.SinkStandsForTheBytesTaken : Prop :=
  (∀ (s : State) (m : SinkMode) (seed : Word), s.keyValid = true →
    ∃ t, exec (sinitOf m seed) s = .next t ∧ Represents t []) ∧
  (∀ (s : State) (d data : ByteString),
    s.sstate = .empty ∨ s.sstate = .accumulating → s.buf.wf = true → Represents s d →
    d.length + data.length < 2 ^ 64 →
    ∃ t, exec (.supd data) s = .next t ∧ Represents t (d ++ data))

/-- R174, R172: a sink that stands for an input `d` digests to the batch hashes of `d`. -/
def Obligations.SinkValueIsTheBatchHash : Prop :=
  ∀ (s : State) (d : ByteString), Represents s d → sinkValue s = .ok (fprint s.key s.sseed d)

/-- R174: for every way of cutting an input into SUPD commands, sent on the command channel after SINIT.x and before
SDIG, the responses are OK and the digest is what the batch commands give for the whole input. -/
def Obligations.IncrementalDigestEqualsBatchHash : Prop :=
  ∀ (s : State) (m : SinkMode) (seed : Word) (pieces : List ByteString) (rest : List HostEvent),
    s.fault = false → s.keyValid = true → s.buf.wf = true → pieces.flatten.length < 2 ^ 64 →
    ∃ t : State,
      Host.Core.run Sys2Proof.core (pieces.length + 2)
          (s.withInput (sent (sinitOf m seed :: (pieces.map Instr.supd ++ [.sdig])) ++ rest)) = .next t ∧
        t.output = s.output ++ List.replicate (pieces.length + 1) ⟨0x00, 0, 0⟩ ++
          [match m with
            | .primary => ⟨0x00, hashOf s.key seed .primary pieces.flatten, 0⟩
            | .secondary => ⟨0x00, hashOf s.key seed .secondary pieces.flatten, 0⟩
            | .both => ⟨0x00, hashOf s.key seed .primary pieces.flatten,
                hashOf s.key seed .secondary pieces.flatten⟩] ∧
        t.sstate = .done ∧ t.key = s.key ∧ t.input = rest

/-! ### The whole machine -/

/-- R150, R205, and log 3 for the channel: a step on a transaction that decodes to a command, in a block with no fault, is
that command's meaning on the state with the transaction taken off the channel; with nothing sent the block waits. -/
def Obligations.StepRunsTheDecodedCommand : Prop :=
  (∀ (s : State) (t : Transaction) (rest : List HostEvent) (i : Instr),
    s.input = .transaction t :: rest → s.fault = false → decode t = .ok i → step s = exec i (s.withInput rest)) ∧
  ∀ s : State, s.input = [] → step s = .next s

/-- R70, R71: from a state that meets the invariant, a transaction is taken off the channel and gets exactly one response,
with a code of R71, and zeros beside any code but OK. -/
def Obligations.EveryTransactionGetsOneResponse : Prop :=
  ∀ (s : State) (t : Transaction) (rest : List HostEvent), Inv s →
    ∃ (u : State) (r : Response), step (s.withInput (.transaction t :: rest)) = .next u ∧
      u.output = s.output ++ [r] ∧ u.input = rest ∧
      (r.code.toNat ≤ 6 ∨ r.code = 0xFF) ∧ (r.code ≠ 0x00 → r.r0 = 0 ∧ r.r1 = 0)

/-- R220, R32: the reset input leaves the reset state, whatever the block was doing, and a transaction it abandons gets
no response; the five registers the spec gives a reset value hold it, and STATUS reads 0. The equation with `State.reset`
also fixes what the spec does not: the values of `KEY`, `SSEED`, `ACC`, `OHACC`, `LRC`, `CHUNKS`, `BUFN`, `BYTES` (the
model's choice, log 1) and of `BUF` (the model's choice, log 2), and that both channels stay (the model's choice,
log 5). -/
def Obligations.ResetInputLeavesTheResetState : Prop :=
  (∀ (s : State) (abandoned : Option Transaction) (rest : List HostEvent),
    step (s.withInput (.reset abandoned :: rest)) =
      .next { State.reset with input := rest, output := s.output }) ∧
  State.reset.keyValid = false ∧ State.reset.sstate = .uninit ∧ State.reset.sstate.code = 0 ∧
    State.reset.smode.code = 0 ∧ State.reset.fault = false ∧ State.reset.fcause = 0 ∧ State.reset.status = 0

/-- R221 (derived in the spec from R220 and R191): with no key and an uninitialised sink every command but KEYLD and
REGRD STATUS faults, each with its cause. -/
def Obligations.WithoutAKeyCommandsFault : Prop :=
  ∀ s : State, s.keyValid = false → s.sstate = .uninit →
    (∀ (seed : Word) (data : ByteString),
      exec (.hashP seed data) s = .next (s.raise .noKey) ∧ exec (.hashS seed data) s = .next (s.raise .noKey) ∧
        exec (.fprint seed data) s = .next (s.raise .noKey) ∧ exec (.sinitP seed) s = .next (s.raise .noKey) ∧
        exec (.sinitS seed) s = .next (s.raise .noKey) ∧ exec (.sinitF seed) s = .next (s.raise .noKey) ∧
        exec (.supd data) s = .next (s.raise .sinkState) ∧ exec .sdig s = .next (s.raise .sinkState)) ∧
    (∀ reg : BitVec 8, 1 ≤ reg.toNat → reg.toNat ≤ 5 → exec (.regrd reg) s = .next (s.raise .sinkState))

/-- R165: where each command takes the state word, whenever it answers a next state. -/
def Obligations.SinkStateTransitions : Prop :=
  ∀ (i : Instr) (s t : State), exec i s = .next t →
    match i with
    | .keyld _ => t.sstate = if s.sstate = .done then .uninit else s.sstate
    | .sinitP _ => t.sstate = if s.keyValid then .empty else s.sstate
    | .sinitS _ => t.sstate = if s.keyValid then .empty else s.sstate
    | .sinitF _ => t.sstate = if s.keyValid then .empty else s.sstate
    | .supd data =>
      t.sstate =
        if (s.sstate = .empty ∨ s.sstate = .accumulating) ∧ 1 ≤ data.length ∧ s.bytes.toNat + data.length < 2 ^ 64 then
          .accumulating
        else s.sstate
    | .sdig => t.sstate = if s.sstate = .uninit then .uninit else .done
    | .hashP _ _ => t.sstate = s.sstate
    | .hashS _ _ => t.sstate = s.sstate
    | .fprint _ _ => t.sstate = s.sstate
    | .regrd _ => t.sstate = s.sstate

/-- R13, R15, R17: only KEYLD changes the key file, and not between SINIT.x and the digest; no command takes the key away;
only SINIT.x changes the seed and the mode; no command clears FAULT. -/
def Obligations.KeySeedAndModeAreImmutableInAStream : Prop :=
  ∀ (i : Instr) (s t : State), exec i s = .next t →
    ((∀ image, i ≠ .keyld image) → t.key = s.key ∧ t.keyValid = s.keyValid) ∧
    (s.sstate = .empty ∨ s.sstate = .accumulating → t.key = s.key) ∧
    (s.keyValid = true → t.keyValid = true) ∧
    ((∀ m seed, i ≠ sinitOf m seed) → t.sseed = s.sseed ∧ t.smode = s.smode) ∧
    (s.fault = true → t.fault = true ∧ t.fcause = s.fcause)

/-- R32, R24: the invariant holds after reset. -/
def Obligations.InvariantHoldsAfterReset : Prop := Inv State.reset

/-- R24, R25, R18, R40: every step keeps the invariant: the memory's canonical form, the position counters, the range of
the accumulators, the fresh block's zeros, the cause register. -/
def Obligations.EveryStepKeepsTheInvariant : Prop :=
  ∀ s t : State, Inv s → step s = .next t → Inv t

/-- R45, R190: from every state that meets the invariant a step answers a next state: no read leaves its space and no
command is refused by the model. -/
def Obligations.NoStepStopsUnderTheInvariant : Prop :=
  ∀ s : State, Inv s → ∃ t, step s = .next t

/-- R33, U9, U10: two states that agree on every register and byte that holds a value take the same step, give the same
response, and agree again; so the values the model names after reset (log 1, log 2) are never seen. -/
def Obligations.RegistersWithoutValueAreNeverRead : Prop :=
  ∀ s t : State, Inv s → Inv t → visible s = visible t →
    ∃ s' t', step s = .next s' ∧ step t = .next t' ∧ visible s' = visible t'
end

