-- ==== Sys2Proof/Laws/Arith.lean ====
section
/-! SUPPORT. The laws of 128-bit values as two lanes, and of exclusive or over a list. -/

namespace Sys2Proof.Machine

/-! ### Lanes -/

theorem lo64_getLsbD (v : DWord) (i : Nat) : (lo64 v).getLsbD i = (decide (i < 64) && v.getLsbD i) := by
  simp [lo64]

theorem hi64_getLsbD (v : DWord) (i : Nat) : (hi64 v).getLsbD i = (decide (i < 64) && v.getLsbD (64 + i)) := by
  simp [hi64]

theorem cat_getLsbD (h l : Word) (i : Nat) :
    (cat h l).getLsbD i = if i < 64 then l.getLsbD i else h.getLsbD (i - 64) := by
  unfold cat
  exact BitVec.getLsbD_append

@[simp] theorem lo64_cat (h l : Word) : lo64 (cat h l) = l := by
  apply BitVec.eq_of_getLsbD_eq
  intro i hi
  rw [lo64_getLsbD, cat_getLsbD, if_pos hi]
  simp [hi]

@[simp] theorem hi64_cat (h l : Word) : hi64 (cat h l) = h := by
  apply BitVec.eq_of_getLsbD_eq
  intro i hi
  rw [hi64_getLsbD, cat_getLsbD, if_neg (by omega)]
  simp [hi]

@[simp] theorem cat_hi64_lo64 (v : DWord) : cat (hi64 v) (lo64 v) = v := by
  apply BitVec.eq_of_getLsbD_eq
  intro i hi
  rw [cat_getLsbD, lo64_getLsbD, hi64_getLsbD]
  split
  · rename_i h; simp [h]
  · rename_i h
    rw [show 64 + (i - 64) = i by omega]
    simp only [show i - 64 < 64 by omega, decide_true, Bool.true_and]

/-- Two 128-bit values with the same lanes are equal. -/
theorem dword_ext {v w : DWord} (hlo : lo64 v = lo64 w) (hhi : hi64 v = hi64 w) : v = w := by
  rw [← cat_hi64_lo64 v, ← cat_hi64_lo64 w, hlo, hhi]

@[simp] theorem lo64_xor (v w : DWord) : lo64 (v ^^^ w) = lo64 v ^^^ lo64 w := by
  simp [lo64, BitVec.extractLsb'_xor]

@[simp] theorem hi64_xor (v w : DWord) : hi64 (v ^^^ w) = hi64 v ^^^ hi64 w := by
  simp [hi64, BitVec.extractLsb'_xor]

@[simp] theorem lo64_zero : lo64 0 = 0 := by simp [lo64]
@[simp] theorem hi64_zero : hi64 0 = 0 := by simp [hi64]

theorem cat_xor (h l h' l' : Word) : cat h l ^^^ cat h' l' = cat (h ^^^ h') (l ^^^ l') :=
  dword_ext (by simp) (by simp)

@[simp] theorem lo64_laneshl (v : DWord) (s : Nat) : lo64 (laneshl v s) = shl64 (lo64 v) s := by
  simp [laneshl]

@[simp] theorem hi64_laneshl (v : DWord) (s : Nat) : hi64 (laneshl v s) = shl64 (hi64 v) s := by
  simp [laneshl]

/-! ### Exclusive or over a list -/

@[simp] theorem xorAll_nil : xorAll [] = 0 := rfl
@[simp] theorem xorAll_cons (v : DWord) (vs : List DWord) : xorAll (v :: vs) = v ^^^ xorAll vs := rfl
@[simp] theorem xorAll64_nil : xorAll64 [] = 0 := rfl
@[simp] theorem xorAll64_cons (v : Word) (vs : List Word) : xorAll64 (v :: vs) = v ^^^ xorAll64 vs := rfl

theorem xorAll_append (vs ws : List DWord) : xorAll (vs ++ ws) = xorAll vs ^^^ xorAll ws := by
  induction vs with
  | nil => simp
  | cons v vs ih => simp [ih, BitVec.xor_assoc]

theorem xorAll64_append (vs ws : List Word) : xorAll64 (vs ++ ws) = xorAll64 vs ^^^ xorAll64 ws := by
  induction vs with
  | nil => simp
  | cons v vs ih => simp [ih, BitVec.xor_assoc]

theorem xorAll_map_xor {α : Type} (f g : α → DWord) (l : List α) :
    xorAll (l.map fun x => f x ^^^ g x) = xorAll (l.map f) ^^^ xorAll (l.map g) := by
  induction l with
  | nil => simp
  | cons x l ih =>
    simp only [List.map_cons, xorAll_cons, ih]
    ac_rfl

end Sys2Proof.Machine
end

