-- ==== Sys2Proof/Laws/Memory.lean ====
section
/-! SUPPORT. The laws of the byte memory: read after write, the canonical form is kept, equal readings are equal data. -/

namespace Sys2Proof.Machine

/-! ### Reading -/

@[simp] theorem Memory.read_nil (a : Nat) : Memory.read [] a = unwrittenByte := rfl

theorem Memory.read_cons (a : Nat) (v : Byte) (m : Memory) (addr : Nat) :
    Memory.read ((a, v) :: m) addr = if a = addr then v else Memory.read m addr := rfl

/-! ### The canonical form -/

theorem Memory.wfFrom_nil (lo : Nat) : Memory.wfFrom lo [] = true := rfl

theorem Memory.wfFrom_cons (lo a : Nat) (v : Byte) (m : Memory) :
    Memory.wfFrom lo ((a, v) :: m) = true ↔
      lo ≤ a ∧ a < 32 ∧ v ≠ unwrittenByte ∧ Memory.wfFrom (a + 1) m = true := by
  simp [Memory.wfFrom, and_assoc]

theorem Memory.wfFrom_mono {lo lo' : Nat} (h : lo' ≤ lo) {m : Memory} (hm : m.wfFrom lo = true) :
    m.wfFrom lo' = true := by
  cases m with
  | nil => rfl
  | cons c m =>
    obtain ⟨a, v⟩ := c
    rw [Memory.wfFrom_cons] at hm ⊢
    exact ⟨by omega, hm.2⟩

/-- Below the first address of a canonical memory nothing is listed. -/
theorem Memory.read_below {lo : Nat} {m : Memory} (hm : m.wfFrom lo = true) {a : Nat} (ha : a < lo) :
    m.read a = unwrittenByte := by
  induction m generalizing lo with
  | nil => rfl
  | cons c m ih =>
    obtain ⟨x, v⟩ := c
    rw [Memory.wfFrom_cons] at hm
    rw [Memory.read_cons, if_neg (by omega)]
    exact ih hm.2.2.2 (by omega)

/-- From address 32 up nothing is listed. -/
theorem Memory.read_above {lo : Nat} {m : Memory} (hm : m.wfFrom lo = true) {a : Nat} (ha : 32 ≤ a) :
    m.read a = unwrittenByte := by
  induction m generalizing lo with
  | nil => rfl
  | cons c m ih =>
    obtain ⟨x, v⟩ := c
    rw [Memory.wfFrom_cons] at hm
    rw [Memory.read_cons, if_neg (by omega)]
    exact ih hm.2.2.2

/-! ### Writing -/

/-- A write leaves every other address alone. -/
theorem Memory.read_write_of_ne (m : Memory) {a a' : Nat} (b : Byte) (h : a' ≠ a) :
    (m.write a b).read a' = m.read a' := by
  induction m with
  | nil =>
    unfold Memory.write
    split
    · rfl
    · rw [Memory.read_cons, if_neg (Ne.symm h)]
  | cons c m ih =>
    obtain ⟨x, v⟩ := c
    unfold Memory.write
    split
    · split
      · rfl
      · rw [Memory.read_cons, if_neg (Ne.symm h)]
    · split
      · rename_i hx
        split
        · rw [Memory.read_cons, if_neg (by omega)]
        · rw [Memory.read_cons, if_neg (by omega), Memory.read_cons, if_neg (by omega)]
      · rw [Memory.read_cons, Memory.read_cons, ih]

/-- A read of the address written gives the byte written. -/
theorem Memory.read_write_self {lo : Nat} {m : Memory} (hm : m.wfFrom lo = true) (a : Nat) (b : Byte) :
    (m.write a b).read a = b := by
  induction m generalizing lo with
  | nil =>
    unfold Memory.write
    split
    · rename_i h; exact h.symm
    · rw [Memory.read_cons, if_pos rfl]
  | cons c m ih =>
    obtain ⟨x, v⟩ := c
    have hc := (Memory.wfFrom_cons lo x v m).1 hm
    unfold Memory.write
    split
    · split
      · rename_i hlt hb
        rw [Memory.read_cons, if_neg (by omega), Memory.read_below hc.2.2.2 (by omega), hb]
      · rw [Memory.read_cons, if_pos rfl]
    · split
      · rename_i hx
        split
        · rename_i hb
          rw [Memory.read_below hc.2.2.2 (by omega), hb]
        · rw [Memory.read_cons, if_pos rfl]
      · rename_i hx
        rw [Memory.read_cons, if_neg (by omega)]
        exact ih hc.2.2.2

/-- Read after write, both cases. -/
theorem Memory.read_write {lo : Nat} {m : Memory} (hm : m.wfFrom lo = true) (a a' : Nat) (b : Byte) :
    (m.write a b).read a' = if a' = a then b else m.read a' := by
  split
  · rename_i h; rw [h, Memory.read_write_self hm]
  · rename_i h; exact Memory.read_write_of_ne m b h

/-- A write inside `BUF` keeps the canonical form. -/
theorem Memory.wfFrom_write {lo : Nat} {m : Memory} (hm : m.wfFrom lo = true) {a : Nat} (hlo : lo ≤ a)
    (ha : a < 32) (b : Byte) : (m.write a b).wfFrom lo = true := by
  induction m generalizing lo with
  | nil =>
    unfold Memory.write
    split
    · rfl
    · rename_i hb
      rw [Memory.wfFrom_cons]
      exact ⟨hlo, ha, hb, rfl⟩
  | cons c m ih =>
    obtain ⟨x, v⟩ := c
    have hc := (Memory.wfFrom_cons lo x v m).1 hm
    unfold Memory.write
    split
    · split
      · exact hm
      · rename_i hlt hb
        rw [Memory.wfFrom_cons]
        refine ⟨hlo, ha, hb, ?_⟩
        rw [Memory.wfFrom_cons]
        exact ⟨by omega, hc.2⟩
    · split
      · rename_i hx
        split
        · exact Memory.wfFrom_mono (by omega) hc.2.2.2
        · rename_i hb
          rw [Memory.wfFrom_cons]
          exact ⟨hlo, ha, hb, hx ▸ hc.2.2.2⟩
      · rw [Memory.wfFrom_cons]
        exact ⟨hc.1, hc.2.1, hc.2.2.1, ih hc.2.2.2 (by omega)⟩

theorem Memory.wf_nil : Memory.wf [] = true := rfl

theorem Memory.wf_write {m : Memory} (hm : m.wf = true) {a : Nat} (ha : a < 32) (b : Byte) :
    (m.write a b).wf = true := Memory.wfFrom_write hm (Nat.zero_le a) ha b

/-! ### Writing several bytes -/

theorem Memory.wf_writeBytes {m : Memory} (hm : m.wf = true) {a : Nat} {bs : ByteString} (h : a + bs.length ≤ 32) :
    (m.writeBytes a bs).wf = true := by
  induction bs generalizing m a with
  | nil => exact hm
  | cons b bs ih =>
    simp only [List.length_cons] at h
    exact ih (Memory.wf_write hm (by omega) b) (by omega)

/-- What a byte reads as after a byte string is stored. -/
theorem Memory.read_writeBytes {m : Memory} (hm : m.wf = true) {a : Nat} {bs : ByteString} (h : a + bs.length ≤ 32)
    (x : Nat) :
    (m.writeBytes a bs).read x = if a ≤ x ∧ x < a + bs.length then bs.getD (x - a) 0 else m.read x := by
  induction bs generalizing m a with
  | nil =>
    rw [if_neg (by simp only [List.length_nil]; omega)]
    rfl
  | cons b bs ih =>
    simp only [List.length_cons] at h
    show ((m.write a b).writeBytes (a + 1) bs).read x = _
    rw [ih (Memory.wf_write hm (by omega) b) (by omega), Memory.read_write hm]
    simp only [List.length_cons]
    by_cases hx : x = a
    · subst hx
      rw [if_neg (by omega), if_pos rfl, if_pos ⟨le_refl _, by omega⟩]
      simp
    · by_cases h2 : a + 1 ≤ x ∧ x < a + 1 + bs.length
      · obtain ⟨k, rfl⟩ : ∃ k, x = a + 1 + k := ⟨x - (a + 1), by omega⟩
        rw [if_pos h2, if_pos ⟨by omega, by omega⟩]
        rw [show a + 1 + k - (a + 1) = k by omega, show a + 1 + k - a = k + 1 by omega, List.getD_cons_succ]
      · rw [if_neg h2, if_neg hx, if_neg (by omega)]

/-! ### Reading several bytes -/

@[simp] theorem Memory.bytesAt_length (m : Memory) (a n : Nat) : (m.bytesAt a n).length = n := by
  simp [Memory.bytesAt]

theorem Memory.bytesAt_getD (m : Memory) (a n k : Nat) (hk : k < n) (x : Byte) :
    (m.bytesAt a n).getD k x = m.read (a + k) := by
  simp [Memory.bytesAt, List.getD_eq_getElem?_getD, hk]

/-- Two memories that read the same over a window have the same bytes there. -/
theorem Memory.bytesAt_congr {m m' : Memory} {a a' n : Nat} (h : ∀ k < n, m.read (a + k) = m'.read (a' + k)) :
    m.bytesAt a n = m'.bytesAt a' n := by
  unfold Memory.bytesAt
  refine List.map_congr_left fun k hk => h k (List.mem_range.1 hk)

/-- A window in two parts. -/
theorem Memory.bytesAt_add (m : Memory) (a n k : Nat) :
    m.bytesAt a (n + k) = m.bytesAt a n ++ m.bytesAt (a + n) k := by
  unfold Memory.bytesAt
  rw [List.range_add, List.map_append, List.map_map]
  congr 1
  refine List.map_congr_left fun i _ => ?_
  simp [Nat.add_assoc]

/-! ### Equal readings are equal data -/

theorem Memory.ext_from {lo : Nat} {m m' : Memory} (hm : m.wfFrom lo = true) (hm' : m'.wfFrom lo = true)
    (h : ∀ a, lo ≤ a → m.read a = m'.read a) : m = m' := by
  induction m generalizing lo m' with
  | nil =>
    cases m' with
    | nil => rfl
    | cons c m' =>
      obtain ⟨x, v⟩ := c
      have hc := (Memory.wfFrom_cons lo x v m').1 hm'
      have := h x hc.1
      rw [Memory.read_cons, if_pos rfl] at this
      exact absurd this.symm hc.2.2.1
  | cons c m ih =>
    obtain ⟨x, v⟩ := c
    have hc := (Memory.wfFrom_cons lo x v m).1 hm
    cases m' with
    | nil =>
      have := h x hc.1
      rw [Memory.read_cons, if_pos rfl] at this
      exact absurd this hc.2.2.1
    | cons c' m' =>
      obtain ⟨y, w⟩ := c'
      have hc' := (Memory.wfFrom_cons lo y w m').1 hm'
      have hxy : x = y := by
        rcases Nat.lt_trichotomy x y with hlt | heq | hgt
        · have := h x hc.1
          rw [Memory.read_cons, if_pos rfl, Memory.read_cons, if_neg (by omega),
            Memory.read_below hc'.2.2.2 (by omega)] at this
          exact absurd this hc.2.2.1
        · exact heq
        · have := h y hc'.1
          rw [Memory.read_cons, if_neg (by omega), Memory.read_below hc.2.2.2 (by omega), Memory.read_cons,
            if_pos rfl] at this
          exact absurd this.symm hc'.2.2.1
      subst hxy
      have hv : v = w := by
        have := h x hc.1
        rwa [Memory.read_cons, if_pos rfl, Memory.read_cons, if_pos rfl] at this
      subst hv
      rw [ih hc.2.2.2 hc'.2.2.2]
      intro a ha
      have := h a (by omega)
      rwa [Memory.read_cons, if_neg (by omega), Memory.read_cons, if_neg (by omega)] at this

/-- Two canonical memories that read the same everywhere are the same data. -/
theorem Memory.ext_read {m m' : Memory} (hm : m.wf = true) (hm' : m'.wf = true) (h : ∀ a, m.read a = m'.read a) :
    m = m' := Memory.ext_from hm hm' fun a _ => h a

end Sys2Proof.Machine
end

