-- ==== Sys2Proof/Laws/Operands.lean ====
section
/-! SUPPORT. The laws of operand assembly: little-endian reads and writes are inverse, slices, the key image. -/

namespace Sys2Proof.Machine

/-! ### Slices -/

@[simp] theorem slice_length {α : Type} (b : List α) (i j : Nat) :
    (slice b i j).length = min (j - i) (b.length - i) := by
  simp [slice]

theorem slice_getElem? {α : Type} (b : List α) (i j k : Nat) :
    (slice b i j)[k]? = if k < j - i then b[i + k]? else none := by
  unfold slice
  rw [List.getElem?_take]
  split
  · rw [List.getElem?_drop]
  · rfl

theorem slice_zero_left {α : Type} (b : List α) (j : Nat) : slice b 0 j = b.take j := by simp [slice]

/-- A slice that ends at the end of a string is its tail. -/
theorem slice_to_end {α : Type} (b : List α) (i j : Nat) (h : b.length ≤ j) : slice b i j = b.drop i := by
  unfold slice
  rw [List.take_of_length_le]
  rw [List.length_drop]
  omega

theorem slice_append_left {α : Type} (a b : List α) (i j : Nat) (h : j ≤ a.length) :
    slice (a ++ b) i j = slice a i j := by
  apply List.ext_getElem?
  intro k
  rw [slice_getElem?, slice_getElem?]
  split
  · rw [List.getElem?_append_left (by omega)]
  · rfl

theorem slice_append_right {α : Type} (a b : List α) (i j : Nat) :
    slice (a ++ b) (a.length + i) (a.length + j) = slice b i j := by
  apply List.ext_getElem?
  intro k
  rw [slice_getElem?, slice_getElem?, show a.length + j - (a.length + i) = j - i by omega]
  split
  · rw [List.getElem?_append_right (by omega)]
    congr 1
    omega
  · rfl

/-! ### Little-endian numbers -/

@[simp] theorem leBytes_length (n v : Nat) : (leBytes n v).length = n := by
  induction n generalizing v with
  | zero => rfl
  | succ n ih => simp [leBytes, ih]

theorem leNat_lt (b : ByteString) : leNat b < 256 ^ b.length := by
  induction b with
  | nil => simp [leNat]
  | cons x b ih =>
    simp only [leNat, List.length_cons, Nat.pow_succ]
    have := x.isLt
    omega

/-- Reading what was written gives the low bytes of the number. -/
theorem leNat_leBytes (n v : Nat) : leNat (leBytes n v) = v % 256 ^ n := by
  induction n generalizing v with
  | zero => simp [leBytes, leNat, Nat.mod_one]
  | succ n ih =>
    simp only [leBytes, leNat, ih, BitVec.toNat_ofNat]
    rw [show (256 : Nat) ^ (n + 1) = 256 * 256 ^ n from Nat.pow_succ', Nat.mod_mul]

/-- Writing what was read gives the bytes back. -/
theorem leBytes_leNat (b : ByteString) : leBytes b.length (leNat b) = b := by
  induction b with
  | nil => rfl
  | cons x b ih =>
    simp only [leNat, List.length_cons, leBytes]
    congr 1
    · apply BitVec.eq_of_toNat_eq
      rw [BitVec.toNat_ofNat]
      have := x.isLt
      omega
    · have h : (x.toNat + 256 * leNat b) / 256 = leNat b := by
        have := x.isLt
        omega
      rw [h, ih]

theorem leNat_append (a b : ByteString) : leNat (a ++ b) = leNat a + 256 ^ a.length * leNat b := by
  induction a with
  | nil => simp [leNat]
  | cons x a ih =>
    simp only [List.cons_append, leNat, ih, List.length_cons, Nat.pow_succ']
    ring

theorem leNat_leBytes_word (w : Word) : leNat (leBytes 8 w.toNat) = w.toNat := by
  rw [leNat_leBytes]
  exact Nat.mod_eq_of_lt w.isLt

theorem leNat_leBytes_of_lt {v : Nat} (h : v < 2 ^ 64) : leNat (leBytes 8 v) = v := by
  rw [leNat_leBytes]
  exact Nat.mod_eq_of_lt h

@[simp] theorem le64_leBytes (w : Word) : le64 (leBytes 8 w.toNat) = w := by
  unfold le64
  rw [leNat_leBytes_word]
  exact BitVec.eq_of_toNat_eq (by rw [BitVec.toNat_ofNat]; exact Nat.mod_eq_of_lt w.isLt)

/-! ### The key image -/

theorem keyImageBytes_eq (k : Key) : keyImageBytes k = (k.toList.map fun w => leBytes 8 w.toNat).flatten := by
  unfold keyImageBytes
  rw [List.flatMap_def]

/-- The image of a list of words has eight bytes for each. -/
theorem imageBytes_length (ws : List Word) : (ws.flatMap fun w => leBytes 8 w.toNat).length = 8 * ws.length := by
  induction ws with
  | nil => rfl
  | cons w ws ih =>
    rw [List.flatMap_cons, List.length_append, ih, leBytes_length, List.length_cons]
    omega

@[simp] theorem keyImageBytes_length (k : Key) : (keyImageBytes k).length = 304 := by
  unfold keyImageBytes
  rw [imageBytes_length, Vector.length_toList]

/-- The constants of R4 agree with one another and with the size of the key file (R11, R63). -/
theorem config_sizes :
    Config.ohWords = Config.ohParamCount + Config.ohTwistCount ∧ 4 + Config.ohWords = 38 ∧
      Config.blockBytes = Config.chunkBytes * Config.blockChunks ∧ Config.keyImageBytes = 8 * 38 :=
  ⟨rfl, rfl, rfl, rfl⟩

end Sys2Proof.Machine
end

