-- ==== Sys2Proof/Laws/State.lean ====
section
/-! SUPPORT. What each named update of the state does to each field: one lemma per field per update, true by rfl. -/

namespace Sys2Proof.Machine

variable (s : State)

/-! ### `State.respond` -/

@[simp] theorem State.respond_key (code : BitVec 8) (r0 r1 : Word) : (s.respond code r0 r1).key = s.key := rfl
@[simp] theorem State.respond_keyValid (code : BitVec 8) (r0 r1 : Word) :
    (s.respond code r0 r1).keyValid = s.keyValid := rfl
@[simp] theorem State.respond_sstate (code : BitVec 8) (r0 r1 : Word) :
    (s.respond code r0 r1).sstate = s.sstate := rfl
@[simp] theorem State.respond_smode (code : BitVec 8) (r0 r1 : Word) : (s.respond code r0 r1).smode = s.smode := rfl
@[simp] theorem State.respond_sseed (code : BitVec 8) (r0 r1 : Word) : (s.respond code r0 r1).sseed = s.sseed := rfl
@[simp] theorem State.respond_acc0 (code : BitVec 8) (r0 r1 : Word) : (s.respond code r0 r1).acc0 = s.acc0 := rfl
@[simp] theorem State.respond_acc1 (code : BitVec 8) (r0 r1 : Word) : (s.respond code r0 r1).acc1 = s.acc1 := rfl
@[simp] theorem State.respond_ohacc0 (code : BitVec 8) (r0 r1 : Word) :
    (s.respond code r0 r1).ohacc0 = s.ohacc0 := rfl
@[simp] theorem State.respond_ohacc1 (code : BitVec 8) (r0 r1 : Word) :
    (s.respond code r0 r1).ohacc1 = s.ohacc1 := rfl
@[simp] theorem State.respond_lrc (code : BitVec 8) (r0 r1 : Word) : (s.respond code r0 r1).lrc = s.lrc := rfl
@[simp] theorem State.respond_chunks (code : BitVec 8) (r0 r1 : Word) :
    (s.respond code r0 r1).chunks = s.chunks := rfl
@[simp] theorem State.respond_buf (code : BitVec 8) (r0 r1 : Word) : (s.respond code r0 r1).buf = s.buf := rfl
@[simp] theorem State.respond_bufn (code : BitVec 8) (r0 r1 : Word) : (s.respond code r0 r1).bufn = s.bufn := rfl
@[simp] theorem State.respond_bytes (code : BitVec 8) (r0 r1 : Word) : (s.respond code r0 r1).bytes = s.bytes := rfl
@[simp] theorem State.respond_fault (code : BitVec 8) (r0 r1 : Word) : (s.respond code r0 r1).fault = s.fault := rfl
@[simp] theorem State.respond_fcause (code : BitVec 8) (r0 r1 : Word) :
    (s.respond code r0 r1).fcause = s.fcause := rfl
@[simp] theorem State.respond_input (code : BitVec 8) (r0 r1 : Word) : (s.respond code r0 r1).input = s.input := rfl
@[simp] theorem State.respond_output (code : BitVec 8) (r0 r1 : Word) :
    (s.respond code r0 r1).output = s.output ++ [⟨code, r0, r1⟩] := rfl

/-! ### `State.ok` -/

@[simp] theorem State.ok_key (r0 r1 : Word) : (s.ok r0 r1).key = s.key := rfl
@[simp] theorem State.ok_keyValid (r0 r1 : Word) : (s.ok r0 r1).keyValid = s.keyValid := rfl
@[simp] theorem State.ok_sstate (r0 r1 : Word) : (s.ok r0 r1).sstate = s.sstate := rfl
@[simp] theorem State.ok_smode (r0 r1 : Word) : (s.ok r0 r1).smode = s.smode := rfl
@[simp] theorem State.ok_sseed (r0 r1 : Word) : (s.ok r0 r1).sseed = s.sseed := rfl
@[simp] theorem State.ok_acc0 (r0 r1 : Word) : (s.ok r0 r1).acc0 = s.acc0 := rfl
@[simp] theorem State.ok_acc1 (r0 r1 : Word) : (s.ok r0 r1).acc1 = s.acc1 := rfl
@[simp] theorem State.ok_ohacc0 (r0 r1 : Word) : (s.ok r0 r1).ohacc0 = s.ohacc0 := rfl
@[simp] theorem State.ok_ohacc1 (r0 r1 : Word) : (s.ok r0 r1).ohacc1 = s.ohacc1 := rfl
@[simp] theorem State.ok_lrc (r0 r1 : Word) : (s.ok r0 r1).lrc = s.lrc := rfl
@[simp] theorem State.ok_chunks (r0 r1 : Word) : (s.ok r0 r1).chunks = s.chunks := rfl
@[simp] theorem State.ok_buf (r0 r1 : Word) : (s.ok r0 r1).buf = s.buf := rfl
@[simp] theorem State.ok_bufn (r0 r1 : Word) : (s.ok r0 r1).bufn = s.bufn := rfl
@[simp] theorem State.ok_bytes (r0 r1 : Word) : (s.ok r0 r1).bytes = s.bytes := rfl
@[simp] theorem State.ok_fault (r0 r1 : Word) : (s.ok r0 r1).fault = s.fault := rfl
@[simp] theorem State.ok_fcause (r0 r1 : Word) : (s.ok r0 r1).fcause = s.fcause := rfl
@[simp] theorem State.ok_input (r0 r1 : Word) : (s.ok r0 r1).input = s.input := rfl
@[simp] theorem State.ok_output (r0 r1 : Word) : (s.ok r0 r1).output = s.output ++ [⟨okCode, r0, r1⟩] := rfl

/-! ### `State.refuse` -/

@[simp] theorem State.refuse_key : (s.refuse).key = s.key := rfl
@[simp] theorem State.refuse_keyValid : (s.refuse).keyValid = s.keyValid := rfl
@[simp] theorem State.refuse_sstate : (s.refuse).sstate = s.sstate := rfl
@[simp] theorem State.refuse_smode : (s.refuse).smode = s.smode := rfl
@[simp] theorem State.refuse_sseed : (s.refuse).sseed = s.sseed := rfl
@[simp] theorem State.refuse_acc0 : (s.refuse).acc0 = s.acc0 := rfl
@[simp] theorem State.refuse_acc1 : (s.refuse).acc1 = s.acc1 := rfl
@[simp] theorem State.refuse_ohacc0 : (s.refuse).ohacc0 = s.ohacc0 := rfl
@[simp] theorem State.refuse_ohacc1 : (s.refuse).ohacc1 = s.ohacc1 := rfl
@[simp] theorem State.refuse_lrc : (s.refuse).lrc = s.lrc := rfl
@[simp] theorem State.refuse_chunks : (s.refuse).chunks = s.chunks := rfl
@[simp] theorem State.refuse_buf : (s.refuse).buf = s.buf := rfl
@[simp] theorem State.refuse_bufn : (s.refuse).bufn = s.bufn := rfl
@[simp] theorem State.refuse_bytes : (s.refuse).bytes = s.bytes := rfl
@[simp] theorem State.refuse_fault : (s.refuse).fault = s.fault := rfl
@[simp] theorem State.refuse_fcause : (s.refuse).fcause = s.fcause := rfl
@[simp] theorem State.refuse_input : (s.refuse).input = s.input := rfl
@[simp] theorem State.refuse_output : (s.refuse).output = s.output ++ [⟨refusedCode, 0, 0⟩] := rfl

/-! ### `State.raise` -/

@[simp] theorem State.raise_key (c : Cause) : (s.raise c).key = s.key := rfl
@[simp] theorem State.raise_keyValid (c : Cause) : (s.raise c).keyValid = s.keyValid := rfl
@[simp] theorem State.raise_sstate (c : Cause) : (s.raise c).sstate = s.sstate := rfl
@[simp] theorem State.raise_smode (c : Cause) : (s.raise c).smode = s.smode := rfl
@[simp] theorem State.raise_sseed (c : Cause) : (s.raise c).sseed = s.sseed := rfl
@[simp] theorem State.raise_acc0 (c : Cause) : (s.raise c).acc0 = s.acc0 := rfl
@[simp] theorem State.raise_acc1 (c : Cause) : (s.raise c).acc1 = s.acc1 := rfl
@[simp] theorem State.raise_ohacc0 (c : Cause) : (s.raise c).ohacc0 = s.ohacc0 := rfl
@[simp] theorem State.raise_ohacc1 (c : Cause) : (s.raise c).ohacc1 = s.ohacc1 := rfl
@[simp] theorem State.raise_lrc (c : Cause) : (s.raise c).lrc = s.lrc := rfl
@[simp] theorem State.raise_chunks (c : Cause) : (s.raise c).chunks = s.chunks := rfl
@[simp] theorem State.raise_buf (c : Cause) : (s.raise c).buf = s.buf := rfl
@[simp] theorem State.raise_bufn (c : Cause) : (s.raise c).bufn = s.bufn := rfl
@[simp] theorem State.raise_bytes (c : Cause) : (s.raise c).bytes = s.bytes := rfl
@[simp] theorem State.raise_fault (c : Cause) : (s.raise c).fault = true := rfl
@[simp] theorem State.raise_fcause (c : Cause) : (s.raise c).fcause = if s.fault then s.fcause else c.code := rfl
@[simp] theorem State.raise_input (c : Cause) : (s.raise c).input = s.input := rfl
@[simp] theorem State.raise_output (c : Cause) : (s.raise c).output = s.output ++ [⟨c.code, 0, 0⟩] := rfl

/-! ### `State.applyReset` -/

@[simp] theorem State.applyReset_key : (s.applyReset).key = State.reset.key := rfl
@[simp] theorem State.applyReset_keyValid : (s.applyReset).keyValid = State.reset.keyValid := rfl
@[simp] theorem State.applyReset_sstate : (s.applyReset).sstate = State.reset.sstate := rfl
@[simp] theorem State.applyReset_smode : (s.applyReset).smode = State.reset.smode := rfl
@[simp] theorem State.applyReset_sseed : (s.applyReset).sseed = State.reset.sseed := rfl
@[simp] theorem State.applyReset_acc0 : (s.applyReset).acc0 = State.reset.acc0 := rfl
@[simp] theorem State.applyReset_acc1 : (s.applyReset).acc1 = State.reset.acc1 := rfl
@[simp] theorem State.applyReset_ohacc0 : (s.applyReset).ohacc0 = State.reset.ohacc0 := rfl
@[simp] theorem State.applyReset_ohacc1 : (s.applyReset).ohacc1 = State.reset.ohacc1 := rfl
@[simp] theorem State.applyReset_lrc : (s.applyReset).lrc = State.reset.lrc := rfl
@[simp] theorem State.applyReset_chunks : (s.applyReset).chunks = State.reset.chunks := rfl
@[simp] theorem State.applyReset_buf : (s.applyReset).buf = State.reset.buf := rfl
@[simp] theorem State.applyReset_bufn : (s.applyReset).bufn = State.reset.bufn := rfl
@[simp] theorem State.applyReset_bytes : (s.applyReset).bytes = State.reset.bytes := rfl
@[simp] theorem State.applyReset_fault : (s.applyReset).fault = State.reset.fault := rfl
@[simp] theorem State.applyReset_fcause : (s.applyReset).fcause = State.reset.fcause := rfl
@[simp] theorem State.applyReset_input : (s.applyReset).input = s.input := rfl
@[simp] theorem State.applyReset_output : (s.applyReset).output = s.output := rfl

/-! ### `State.withInput` -/

@[simp] theorem State.withInput_key (events : List HostEvent) : (s.withInput events).key = s.key := rfl
@[simp] theorem State.withInput_keyValid (events : List HostEvent) : (s.withInput events).keyValid = s.keyValid := rfl
@[simp] theorem State.withInput_sstate (events : List HostEvent) : (s.withInput events).sstate = s.sstate := rfl
@[simp] theorem State.withInput_smode (events : List HostEvent) : (s.withInput events).smode = s.smode := rfl
@[simp] theorem State.withInput_sseed (events : List HostEvent) : (s.withInput events).sseed = s.sseed := rfl
@[simp] theorem State.withInput_acc0 (events : List HostEvent) : (s.withInput events).acc0 = s.acc0 := rfl
@[simp] theorem State.withInput_acc1 (events : List HostEvent) : (s.withInput events).acc1 = s.acc1 := rfl
@[simp] theorem State.withInput_ohacc0 (events : List HostEvent) : (s.withInput events).ohacc0 = s.ohacc0 := rfl
@[simp] theorem State.withInput_ohacc1 (events : List HostEvent) : (s.withInput events).ohacc1 = s.ohacc1 := rfl
@[simp] theorem State.withInput_lrc (events : List HostEvent) : (s.withInput events).lrc = s.lrc := rfl
@[simp] theorem State.withInput_chunks (events : List HostEvent) : (s.withInput events).chunks = s.chunks := rfl
@[simp] theorem State.withInput_buf (events : List HostEvent) : (s.withInput events).buf = s.buf := rfl
@[simp] theorem State.withInput_bufn (events : List HostEvent) : (s.withInput events).bufn = s.bufn := rfl
@[simp] theorem State.withInput_bytes (events : List HostEvent) : (s.withInput events).bytes = s.bytes := rfl
@[simp] theorem State.withInput_fault (events : List HostEvent) : (s.withInput events).fault = s.fault := rfl
@[simp] theorem State.withInput_fcause (events : List HostEvent) : (s.withInput events).fcause = s.fcause := rfl
@[simp] theorem State.withInput_input (events : List HostEvent) : (s.withInput events).input = events := rfl
@[simp] theorem State.withInput_output (events : List HostEvent) : (s.withInput events).output = s.output := rfl

/-! ### `State.offer` -/

@[simp] theorem State.offer_key (t : Transaction) : (s.offer t).key = s.key := rfl
@[simp] theorem State.offer_keyValid (t : Transaction) : (s.offer t).keyValid = s.keyValid := rfl
@[simp] theorem State.offer_sstate (t : Transaction) : (s.offer t).sstate = s.sstate := rfl
@[simp] theorem State.offer_smode (t : Transaction) : (s.offer t).smode = s.smode := rfl
@[simp] theorem State.offer_sseed (t : Transaction) : (s.offer t).sseed = s.sseed := rfl
@[simp] theorem State.offer_acc0 (t : Transaction) : (s.offer t).acc0 = s.acc0 := rfl
@[simp] theorem State.offer_acc1 (t : Transaction) : (s.offer t).acc1 = s.acc1 := rfl
@[simp] theorem State.offer_ohacc0 (t : Transaction) : (s.offer t).ohacc0 = s.ohacc0 := rfl
@[simp] theorem State.offer_ohacc1 (t : Transaction) : (s.offer t).ohacc1 = s.ohacc1 := rfl
@[simp] theorem State.offer_lrc (t : Transaction) : (s.offer t).lrc = s.lrc := rfl
@[simp] theorem State.offer_chunks (t : Transaction) : (s.offer t).chunks = s.chunks := rfl
@[simp] theorem State.offer_buf (t : Transaction) : (s.offer t).buf = s.buf := rfl
@[simp] theorem State.offer_bufn (t : Transaction) : (s.offer t).bufn = s.bufn := rfl
@[simp] theorem State.offer_bytes (t : Transaction) : (s.offer t).bytes = s.bytes := rfl
@[simp] theorem State.offer_fault (t : Transaction) : (s.offer t).fault = s.fault := rfl
@[simp] theorem State.offer_fcause (t : Transaction) : (s.offer t).fcause = s.fcause := rfl
@[simp] theorem State.offer_input (t : Transaction) : (s.offer t).input = .transaction t :: s.input := rfl
@[simp] theorem State.offer_output (t : Transaction) : (s.offer t).output = s.output := rfl

/-! ### `State.loadKey` -/

@[simp] theorem State.loadKey_key (image : Key) : (s.loadKey image).key = image := rfl
@[simp] theorem State.loadKey_keyValid (image : Key) : (s.loadKey image).keyValid = true := rfl
@[simp] theorem State.loadKey_sstate (image : Key) :
    (s.loadKey image).sstate = if s.sstate = .done then .uninit else s.sstate := rfl
@[simp] theorem State.loadKey_smode (image : Key) : (s.loadKey image).smode = s.smode := rfl
@[simp] theorem State.loadKey_sseed (image : Key) : (s.loadKey image).sseed = s.sseed := rfl
@[simp] theorem State.loadKey_acc0 (image : Key) : (s.loadKey image).acc0 = s.acc0 := rfl
@[simp] theorem State.loadKey_acc1 (image : Key) : (s.loadKey image).acc1 = s.acc1 := rfl
@[simp] theorem State.loadKey_ohacc0 (image : Key) : (s.loadKey image).ohacc0 = s.ohacc0 := rfl
@[simp] theorem State.loadKey_ohacc1 (image : Key) : (s.loadKey image).ohacc1 = s.ohacc1 := rfl
@[simp] theorem State.loadKey_lrc (image : Key) : (s.loadKey image).lrc = s.lrc := rfl
@[simp] theorem State.loadKey_chunks (image : Key) : (s.loadKey image).chunks = s.chunks := rfl
@[simp] theorem State.loadKey_buf (image : Key) : (s.loadKey image).buf = s.buf := rfl
@[simp] theorem State.loadKey_bufn (image : Key) : (s.loadKey image).bufn = s.bufn := rfl
@[simp] theorem State.loadKey_bytes (image : Key) : (s.loadKey image).bytes = s.bytes := rfl
@[simp] theorem State.loadKey_fault (image : Key) : (s.loadKey image).fault = s.fault := rfl
@[simp] theorem State.loadKey_fcause (image : Key) : (s.loadKey image).fcause = s.fcause := rfl
@[simp] theorem State.loadKey_input (image : Key) : (s.loadKey image).input = s.input := rfl
@[simp] theorem State.loadKey_output (image : Key) : (s.loadKey image).output = s.output := rfl

/-! ### `State.initSink` -/

@[simp] theorem State.initSink_key (mode : SinkMode) (seed : Word) : (s.initSink mode seed).key = s.key := rfl
@[simp] theorem State.initSink_keyValid (mode : SinkMode) (seed : Word) :
    (s.initSink mode seed).keyValid = s.keyValid := rfl
@[simp] theorem State.initSink_sstate (mode : SinkMode) (seed : Word) : (s.initSink mode seed).sstate = .empty := rfl
@[simp] theorem State.initSink_smode (mode : SinkMode) (seed : Word) : (s.initSink mode seed).smode = mode := rfl
@[simp] theorem State.initSink_sseed (mode : SinkMode) (seed : Word) : (s.initSink mode seed).sseed = seed := rfl
@[simp] theorem State.initSink_acc0 (mode : SinkMode) (seed : Word) :
    (s.initSink mode seed).acc0 = params.accInit := rfl
@[simp] theorem State.initSink_acc1 (mode : SinkMode) (seed : Word) :
    (s.initSink mode seed).acc1 = params.accInit := rfl
@[simp] theorem State.initSink_ohacc0 (mode : SinkMode) (seed : Word) : (s.initSink mode seed).ohacc0 = 0 := rfl
@[simp] theorem State.initSink_ohacc1 (mode : SinkMode) (seed : Word) : (s.initSink mode seed).ohacc1 = 0 := rfl
@[simp] theorem State.initSink_lrc (mode : SinkMode) (seed : Word) : (s.initSink mode seed).lrc = 0 := rfl
@[simp] theorem State.initSink_chunks (mode : SinkMode) (seed : Word) : (s.initSink mode seed).chunks = 0 := rfl
@[simp] theorem State.initSink_buf (mode : SinkMode) (seed : Word) : (s.initSink mode seed).buf = s.buf := rfl
@[simp] theorem State.initSink_bufn (mode : SinkMode) (seed : Word) : (s.initSink mode seed).bufn = 0 := rfl
@[simp] theorem State.initSink_bytes (mode : SinkMode) (seed : Word) : (s.initSink mode seed).bytes = 0 := rfl
@[simp] theorem State.initSink_fault (mode : SinkMode) (seed : Word) : (s.initSink mode seed).fault = s.fault := rfl
@[simp] theorem State.initSink_fcause (mode : SinkMode) (seed : Word) :
    (s.initSink mode seed).fcause = s.fcause := rfl
@[simp] theorem State.initSink_input (mode : SinkMode) (seed : Word) : (s.initSink mode seed).input = s.input := rfl
@[simp] theorem State.initSink_output (mode : SinkMode) (seed : Word) :
    (s.initSink mode seed).output = s.output := rfl

/-! ### `State.closeInterior` -/

@[simp] theorem State.closeInterior_key : (s.closeInterior).key = s.key := rfl
@[simp] theorem State.closeInterior_keyValid : (s.closeInterior).keyValid = s.keyValid := rfl
@[simp] theorem State.closeInterior_sstate : (s.closeInterior).sstate = s.sstate := rfl
@[simp] theorem State.closeInterior_smode : (s.closeInterior).smode = s.smode := rfl
@[simp] theorem State.closeInterior_sseed : (s.closeInterior).sseed = s.sseed := rfl
@[simp] theorem State.closeInterior_acc0 : (s.closeInterior).acc0 = s.acc0 := rfl
@[simp] theorem State.closeInterior_acc1 : (s.closeInterior).acc1 = s.acc1 := rfl
@[simp] theorem State.closeInterior_ohacc0 :
    (s.closeInterior).ohacc0 = (s.running.step s.key s.chunks.toNat (pend s)).a0 := rfl
@[simp] theorem State.closeInterior_ohacc1 :
    (s.closeInterior).ohacc1 = (s.running.step s.key s.chunks.toNat (pend s)).a1 := rfl
@[simp] theorem State.closeInterior_lrc :
    (s.closeInterior).lrc = (s.running.step s.key s.chunks.toNat (pend s)).k := rfl
@[simp] theorem State.closeInterior_chunks : (s.closeInterior).chunks = s.chunks + 1 := rfl
@[simp] theorem State.closeInterior_buf : (s.closeInterior).buf = s.buf := rfl
@[simp] theorem State.closeInterior_bufn : (s.closeInterior).bufn = s.bufn := rfl
@[simp] theorem State.closeInterior_bytes : (s.closeInterior).bytes = s.bytes := rfl
@[simp] theorem State.closeInterior_fault : (s.closeInterior).fault = s.fault := rfl
@[simp] theorem State.closeInterior_fcause : (s.closeInterior).fcause = s.fcause := rfl
@[simp] theorem State.closeInterior_input : (s.closeInterior).input = s.input := rfl
@[simp] theorem State.closeInterior_output : (s.closeInterior).output = s.output := rfl

/-! ### `State.closeBlock` -/

@[simp] theorem State.closeBlock_key : (s.closeBlock).key = s.key := rfl
@[simp] theorem State.closeBlock_keyValid : (s.closeBlock).keyValid = s.keyValid := rfl
@[simp] theorem State.closeBlock_sstate : (s.closeBlock).sstate = s.sstate := rfl
@[simp] theorem State.closeBlock_smode : (s.closeBlock).smode = s.smode := rfl
@[simp] theorem State.closeBlock_sseed : (s.closeBlock).sseed = s.sseed := rfl
@[simp] theorem State.closeBlock_acc0 :
    (s.closeBlock).acc0 =
      hornerStep s.key 0 s.acc0 (s.running.close s.key s.sseed Config.blockBytes s.chunks.toNat (pend s)).1 := rfl
@[simp] theorem State.closeBlock_acc1 :
    (s.closeBlock).acc1 =
      hornerStep s.key 1 s.acc1 (s.running.close s.key s.sseed Config.blockBytes s.chunks.toNat (pend s)).2 := rfl
@[simp] theorem State.closeBlock_ohacc0 : (s.closeBlock).ohacc0 = 0 := rfl
@[simp] theorem State.closeBlock_ohacc1 : (s.closeBlock).ohacc1 = 0 := rfl
@[simp] theorem State.closeBlock_lrc : (s.closeBlock).lrc = 0 := rfl
@[simp] theorem State.closeBlock_chunks : (s.closeBlock).chunks = 0 := rfl
@[simp] theorem State.closeBlock_buf : (s.closeBlock).buf = s.buf := rfl
@[simp] theorem State.closeBlock_bufn : (s.closeBlock).bufn = s.bufn := rfl
@[simp] theorem State.closeBlock_bytes : (s.closeBlock).bytes = s.bytes := rfl
@[simp] theorem State.closeBlock_fault : (s.closeBlock).fault = s.fault := rfl
@[simp] theorem State.closeBlock_fcause : (s.closeBlock).fcause = s.fcause := rfl
@[simp] theorem State.closeBlock_input : (s.closeBlock).input = s.input := rfl
@[simp] theorem State.closeBlock_output : (s.closeBlock).output = s.output := rfl

/-! ### `State.shiftBuf` -/

@[simp] theorem State.shiftBuf_key : (s.shiftBuf).key = s.key := by unfold State.shiftBuf; rfl
@[simp] theorem State.shiftBuf_keyValid : (s.shiftBuf).keyValid = s.keyValid := by unfold State.shiftBuf; rfl
@[simp] theorem State.shiftBuf_sstate : (s.shiftBuf).sstate = s.sstate := by unfold State.shiftBuf; rfl
@[simp] theorem State.shiftBuf_smode : (s.shiftBuf).smode = s.smode := by unfold State.shiftBuf; rfl
@[simp] theorem State.shiftBuf_sseed : (s.shiftBuf).sseed = s.sseed := by unfold State.shiftBuf; rfl
@[simp] theorem State.shiftBuf_acc0 : (s.shiftBuf).acc0 = s.acc0 := by unfold State.shiftBuf; rfl
@[simp] theorem State.shiftBuf_acc1 : (s.shiftBuf).acc1 = s.acc1 := by unfold State.shiftBuf; rfl
@[simp] theorem State.shiftBuf_ohacc0 : (s.shiftBuf).ohacc0 = s.ohacc0 := by unfold State.shiftBuf; rfl
@[simp] theorem State.shiftBuf_ohacc1 : (s.shiftBuf).ohacc1 = s.ohacc1 := by unfold State.shiftBuf; rfl
@[simp] theorem State.shiftBuf_lrc : (s.shiftBuf).lrc = s.lrc := by unfold State.shiftBuf; rfl
@[simp] theorem State.shiftBuf_chunks : (s.shiftBuf).chunks = s.chunks := by unfold State.shiftBuf; rfl
@[simp] theorem State.shiftBuf_buf : (s.shiftBuf).buf = s.buf.writeBytes 0 (pend s) := by unfold State.shiftBuf; rfl
@[simp] theorem State.shiftBuf_bufn : (s.shiftBuf).bufn = 0 := by unfold State.shiftBuf; rfl
@[simp] theorem State.shiftBuf_bytes : (s.shiftBuf).bytes = s.bytes := by unfold State.shiftBuf; rfl
@[simp] theorem State.shiftBuf_fault : (s.shiftBuf).fault = s.fault := by unfold State.shiftBuf; rfl
@[simp] theorem State.shiftBuf_fcause : (s.shiftBuf).fcause = s.fcause := by unfold State.shiftBuf; rfl
@[simp] theorem State.shiftBuf_input : (s.shiftBuf).input = s.input := by unfold State.shiftBuf; rfl
@[simp] theorem State.shiftBuf_output : (s.shiftBuf).output = s.output := by unfold State.shiftBuf; rfl

/-! ### `State.countByte` -/

@[simp] theorem State.countByte_key : (s.countByte).key = s.key := rfl
@[simp] theorem State.countByte_keyValid : (s.countByte).keyValid = s.keyValid := rfl
@[simp] theorem State.countByte_sstate : (s.countByte).sstate = s.sstate := rfl
@[simp] theorem State.countByte_smode : (s.countByte).smode = s.smode := rfl
@[simp] theorem State.countByte_sseed : (s.countByte).sseed = s.sseed := rfl
@[simp] theorem State.countByte_acc0 : (s.countByte).acc0 = s.acc0 := rfl
@[simp] theorem State.countByte_acc1 : (s.countByte).acc1 = s.acc1 := rfl
@[simp] theorem State.countByte_ohacc0 : (s.countByte).ohacc0 = s.ohacc0 := rfl
@[simp] theorem State.countByte_ohacc1 : (s.countByte).ohacc1 = s.ohacc1 := rfl
@[simp] theorem State.countByte_lrc : (s.countByte).lrc = s.lrc := rfl
@[simp] theorem State.countByte_chunks : (s.countByte).chunks = s.chunks := rfl
@[simp] theorem State.countByte_buf : (s.countByte).buf = s.buf := rfl
@[simp] theorem State.countByte_bufn : (s.countByte).bufn = s.bufn + 1 := rfl
@[simp] theorem State.countByte_bytes : (s.countByte).bytes = s.bytes + 1 := rfl
@[simp] theorem State.countByte_fault : (s.countByte).fault = s.fault := rfl
@[simp] theorem State.countByte_fcause : (s.countByte).fcause = s.fcause := rfl
@[simp] theorem State.countByte_input : (s.countByte).input = s.input := rfl
@[simp] theorem State.countByte_output : (s.countByte).output = s.output := rfl

/-! ### `State.afterUpdate` -/

@[simp] theorem State.afterUpdate_key (len : Nat) : (s.afterUpdate len).key = s.key := rfl
@[simp] theorem State.afterUpdate_keyValid (len : Nat) : (s.afterUpdate len).keyValid = s.keyValid := rfl
@[simp] theorem State.afterUpdate_sstate (len : Nat) :
    (s.afterUpdate len).sstate = if 1 ≤ len then .accumulating else s.sstate := rfl
@[simp] theorem State.afterUpdate_smode (len : Nat) : (s.afterUpdate len).smode = s.smode := rfl
@[simp] theorem State.afterUpdate_sseed (len : Nat) : (s.afterUpdate len).sseed = s.sseed := rfl
@[simp] theorem State.afterUpdate_acc0 (len : Nat) : (s.afterUpdate len).acc0 = s.acc0 := rfl
@[simp] theorem State.afterUpdate_acc1 (len : Nat) : (s.afterUpdate len).acc1 = s.acc1 := rfl
@[simp] theorem State.afterUpdate_ohacc0 (len : Nat) : (s.afterUpdate len).ohacc0 = s.ohacc0 := rfl
@[simp] theorem State.afterUpdate_ohacc1 (len : Nat) : (s.afterUpdate len).ohacc1 = s.ohacc1 := rfl
@[simp] theorem State.afterUpdate_lrc (len : Nat) : (s.afterUpdate len).lrc = s.lrc := rfl
@[simp] theorem State.afterUpdate_chunks (len : Nat) : (s.afterUpdate len).chunks = s.chunks := rfl
@[simp] theorem State.afterUpdate_buf (len : Nat) : (s.afterUpdate len).buf = s.buf := rfl
@[simp] theorem State.afterUpdate_bufn (len : Nat) : (s.afterUpdate len).bufn = s.bufn := rfl
@[simp] theorem State.afterUpdate_bytes (len : Nat) : (s.afterUpdate len).bytes = s.bytes := rfl
@[simp] theorem State.afterUpdate_fault (len : Nat) : (s.afterUpdate len).fault = s.fault := rfl
@[simp] theorem State.afterUpdate_fcause (len : Nat) : (s.afterUpdate len).fcause = s.fcause := rfl
@[simp] theorem State.afterUpdate_input (len : Nat) : (s.afterUpdate len).input = s.input := rfl
@[simp] theorem State.afterUpdate_output (len : Nat) : (s.afterUpdate len).output = s.output := rfl

/-! ### `State.finish` -/

@[simp] theorem State.finish_key : (s.finish).key = s.key := rfl
@[simp] theorem State.finish_keyValid : (s.finish).keyValid = s.keyValid := rfl
@[simp] theorem State.finish_sstate : (s.finish).sstate = .done := rfl
@[simp] theorem State.finish_smode : (s.finish).smode = s.smode := rfl
@[simp] theorem State.finish_sseed : (s.finish).sseed = s.sseed := rfl
@[simp] theorem State.finish_acc0 : (s.finish).acc0 = s.acc0 := rfl
@[simp] theorem State.finish_acc1 : (s.finish).acc1 = s.acc1 := rfl
@[simp] theorem State.finish_ohacc0 : (s.finish).ohacc0 = s.ohacc0 := rfl
@[simp] theorem State.finish_ohacc1 : (s.finish).ohacc1 = s.ohacc1 := rfl
@[simp] theorem State.finish_lrc : (s.finish).lrc = s.lrc := rfl
@[simp] theorem State.finish_chunks : (s.finish).chunks = s.chunks := rfl
@[simp] theorem State.finish_buf : (s.finish).buf = s.buf := rfl
@[simp] theorem State.finish_bufn : (s.finish).bufn = s.bufn := rfl
@[simp] theorem State.finish_bytes : (s.finish).bytes = s.bytes := rfl
@[simp] theorem State.finish_fault : (s.finish).fault = s.fault := rfl
@[simp] theorem State.finish_fcause : (s.finish).fcause = s.fcause := rfl
@[simp] theorem State.finish_input : (s.finish).input = s.input := rfl
@[simp] theorem State.finish_output : (s.finish).output = s.output := rfl

/-! ### `State.running` -/

@[simp] theorem State.running_a0 : s.running.a0 = s.ohacc0 := rfl
@[simp] theorem State.running_a1 : s.running.a1 = s.ohacc1 := rfl
@[simp] theorem State.running_k : s.running.k = s.lrc := rfl

end Sys2Proof.Machine
end

