-- ==== Sys2Proof/Laws/Ops.lean ====
section
/-! SUPPORT. One lemma for each shared operation of the state: everything it can do. -/

namespace Sys2Proof.Machine

/-! ### `BUF` -/

/-- A read inside `BUF` answers the bytes; any other faults (R40). -/
theorem readBuf_spec (s : State) (a n : Nat) :
    (a + n ≤ 32 ∧ readBuf s a n = .ok (s.buf.bytesAt a n)) ∨
      (32 < a + n ∧ readBuf s a n = .error (.outsideBuf (a + n - 1))) := by
  by_cases h : a + n ≤ 32
  · exact .inl ⟨h, if_pos h⟩
  · exact .inr ⟨by omega, if_neg h⟩

theorem readBuf_ok {s : State} {a n : Nat} (h : a + n ≤ 32) : readBuf s a n = .ok (s.buf.bytesAt a n) := if_pos h

/-- A write inside `BUF` changes that memory alone; any other faults (R40). -/
theorem writeBuf_spec (s : State) (a : Nat) (b : Byte) :
    (a < 32 ∧ writeBuf s a b = .ok { s with buf := s.buf.write a b }) ∨
      (32 ≤ a ∧ writeBuf s a b = .error (.outsideBuf a)) := by
  by_cases h : a < 32
  · exact .inl ⟨h, if_pos h⟩
  · exact .inr ⟨by omega, if_neg h⟩

theorem writeBuf_ok {s : State} {a : Nat} {b : Byte} (h : a < 32) :
    writeBuf s a b = .ok { s with buf := s.buf.write a b } := if_pos h

theorem pendAddr_eq (s : State) : pendAddr s = 16 + s.bufn.toNat := rfl

/-! ### Commands that never stop -/

/-- A batch command faults with NO_KEY or responds; it never stops (R154 to R156). -/
theorem batch_spec (s : State) (r : Word × Word) :
    (s.keyValid = true ∧ batch s r = .next (s.ok r.1 r.2)) ∨
      (s.keyValid = false ∧ batch s r = .next (s.raise .noKey)) := by
  unfold batch
  cases h : s.keyValid
  · exact .inr ⟨rfl, by simp⟩
  · exact .inl ⟨rfl, by simp⟩

/-- SINIT.x faults with NO_KEY or initialises the sink; it never stops (R166). -/
theorem sinit_spec (m : SinkMode) (seed : Word) (s : State) :
    (s.keyValid = true ∧ sinit m seed s = .next ((s.initSink m seed).ok 0 0)) ∨
      (s.keyValid = false ∧ sinit m seed s = .next (s.raise .noKey)) := by
  unfold sinit
  cases h : s.keyValid
  · exact .inr ⟨rfl, by simp⟩
  · exact .inl ⟨rfl, by simp⟩

/-- KEYLD faults with KEY_BUSY or loads the key; it never stops (R153). -/
theorem execKeyld_spec (image : Key) (s : State) :
    ((s.sstate = .empty ∨ s.sstate = .accumulating) ∧ execKeyld image s = .next (s.raise .keyBusy)) ∨
      ((s.sstate = .uninit ∨ s.sstate = .done) ∧ execKeyld image s = .next ((s.loadKey image).ok 0 0)) := by
  unfold execKeyld
  cases h : s.sstate <;> simp

/-- REGRD faults with ILLEGAL_COMMAND or SINK_STATE or answers a register; it never stops (R157). -/
theorem execRegrd_spec (reg : BitVec 8) (s : State) :
    (6 ≤ reg.toNat ∧ execRegrd reg s = .next (s.raise .illegalCommand)) ∨
      (1 ≤ reg.toNat ∧ reg.toNat ≤ 5 ∧ s.sstate = .uninit ∧ execRegrd reg s = .next (s.raise .sinkState)) ∨
      ((reg.toNat = 0 ∨ (reg.toNat ≤ 5 ∧ s.sstate ≠ .uninit)) ∧
        execRegrd reg s = .next (s.ok (regValue s reg.toNat) 0)) := by
  unfold execRegrd
  by_cases h6 : 6 ≤ reg.toNat
  · exact .inl ⟨h6, if_pos h6⟩
  · rw [if_neg h6]
    by_cases h1 : 1 ≤ reg.toNat ∧ s.sstate = .uninit
    · exact .inr (.inl ⟨h1.1, by omega, h1.2, if_pos h1⟩)
    · rw [if_neg h1]
      refine .inr (.inr ⟨?_, rfl⟩)
      by_cases h0 : reg.toNat = 0
      · exact .inl h0
      · exact .inr ⟨by omega, fun hu => h1 ⟨by omega, hu⟩⟩

end Sys2Proof.Machine
end

