-- ==== Sys2Proof/Laws/PerInstr.lean ====
section
/-! SUPPORT. Statements about every command as syntax, one lemma per constructor. -/

namespace Sys2Proof.Laws

open Sys2Proof Sys2Proof.Machine

/-- The length in bytes of a command's transaction (R68). -/
def transactionBytes : Instr → Nat
  | .keyld _ => 308
  | .hashP _ data => 20 + data.length
  | .hashS _ data => 20 + data.length
  | .fprint _ data => 20 + data.length
  | .sinitP _ => 12
  | .sinitS _ => 12
  | .sinitF _ => 12
  | .supd data => 12 + data.length
  | .sdig => 4
  | .regrd _ => 4

/-- The name of a command. -/
def mnemonicOf : Instr → Mnemonic
  | .keyld _ => .keyld
  | .hashP _ _ => .hashP
  | .hashS _ _ => .hashS
  | .fprint _ _ => .fprint
  | .sinitP _ => .sinitP
  | .sinitS _ => .sinitS
  | .sinitF _ => .sinitF
  | .supd _ => .supd
  | .sdig => .sdig
  | .regrd _ => .regrd

namespace TransactionLength

/-- The serialised transaction of a command has the length R68 gives its format. -/
def Statement (i : Instr) : Prop := (encodeBytes i).length = transactionBytes i

theorem keyld (image : Key) : Statement (.keyld image) := by
  simp [Statement, encodeBytes, Transaction.bytes, encode, transactionBytes]

theorem hashP (seed : Word) (data : ByteString) : Statement (.hashP seed data) := by
  simp only [Statement, encodeBytes, Transaction.bytes, encode, transactionBytes, formatB, List.length_append,
    leBytes_length]
  omega

theorem hashS (seed : Word) (data : ByteString) : Statement (.hashS seed data) := by
  simp only [Statement, encodeBytes, Transaction.bytes, encode, transactionBytes, formatB, List.length_append,
    leBytes_length]
  omega

theorem fprint (seed : Word) (data : ByteString) : Statement (.fprint seed data) := by
  simp only [Statement, encodeBytes, Transaction.bytes, encode, transactionBytes, formatB, List.length_append,
    leBytes_length]
  omega

theorem sinitP (seed : Word) : Statement (.sinitP seed) := by
  simp [Statement, encodeBytes, Transaction.bytes, encode, transactionBytes]

theorem sinitS (seed : Word) : Statement (.sinitS seed) := by
  simp [Statement, encodeBytes, Transaction.bytes, encode, transactionBytes]

theorem sinitF (seed : Word) : Statement (.sinitF seed) := by
  simp [Statement, encodeBytes, Transaction.bytes, encode, transactionBytes]

theorem supd (data : ByteString) : Statement (.supd data) := by
  simp only [Statement, encodeBytes, Transaction.bytes, encode, transactionBytes, formatU, List.length_append,
    leBytes_length]
  omega

theorem sdig : Statement .sdig := by
  simp [Statement, encodeBytes, Transaction.bytes, encode, transactionBytes]

theorem regrd (reg : BitVec 8) : Statement (.regrd reg) := by
  simp [Statement, encodeBytes, Transaction.bytes, encode, transactionBytes]

end TransactionLength

namespace SelectsItsRow

/-- The word of a command selects the row of its own name (R62). -/
def Statement (i : Instr) : Prop := (rowOf (encode i).word).map OpcodeRow.command = some (mnemonicOf i)

/-- The rows the nine words without a register field select. -/
theorem row_names :
    (rowOf 0x00000001).map OpcodeRow.command = some .keyld ∧ (rowOf 0x00000002).map OpcodeRow.command = some .hashP ∧
      (rowOf 0x00000102).map OpcodeRow.command = some .hashS ∧
      (rowOf 0x00000003).map OpcodeRow.command = some .fprint ∧
      (rowOf 0x00000004).map OpcodeRow.command = some .sinitP ∧
      (rowOf 0x00000104).map OpcodeRow.command = some .sinitS ∧
      (rowOf 0x00000204).map OpcodeRow.command = some .sinitF ∧
      (rowOf 0x00000005).map OpcodeRow.command = some .supd ∧
      (rowOf 0x00000006).map OpcodeRow.command = some .sdig := by decide +kernel

theorem keyld (image : Key) : Statement (.keyld image) := row_names.1
theorem hashP (seed : Word) (data : ByteString) : Statement (.hashP seed data) := row_names.2.1
theorem hashS (seed : Word) (data : ByteString) : Statement (.hashS seed data) := row_names.2.2.1
theorem fprint (seed : Word) (data : ByteString) : Statement (.fprint seed data) := row_names.2.2.2.1
theorem sinitP (seed : Word) : Statement (.sinitP seed) := row_names.2.2.2.2.1
theorem sinitS (seed : Word) : Statement (.sinitS seed) := row_names.2.2.2.2.2.1
theorem sinitF (seed : Word) : Statement (.sinitF seed) := row_names.2.2.2.2.2.2.1
theorem supd (data : ByteString) : Statement (.supd data) := row_names.2.2.2.2.2.2.2.1
theorem sdig : Statement .sdig := row_names.2.2.2.2.2.2.2.2

theorem regrd (reg : BitVec 8) : Statement (.regrd reg) := by
  have h : ∀ n : Fin 256,
      (rowOf (encode (.regrd (BitVec.ofFin n))).word).map OpcodeRow.command = some .regrd := by decide +kernel
  exact h reg.toFin

end SelectsItsRow

end Sys2Proof.Laws
end

