-- ==== Sys2Proof/Laws/Sink.lean ====
section
/-! SUPPORT. What absorbing bytes and closing a chunk do: one lemma for each operation of the sink. -/

namespace Sys2Proof.Machine

/-! ### `close_chunk` -/

/-- The two cases of `close_chunk` (R170). -/
theorem closeChunk_cases (s : State) :
    (s.chunks.toNat < 15 ∧ s.closeChunk = s.closeInterior.shiftBuf) ∨
      (s.chunks.toNat = 15 ∧ s.closeChunk = s.closeBlock.shiftBuf) := by
  unfold State.closeChunk
  by_cases h : s.chunks.toNat < 15
  · exact .inl ⟨h, by rw [if_pos h]⟩
  · have := s.chunks.isLt
    exact .inr ⟨by omega, by rw [if_neg h]⟩

theorem pend_closeInterior (s : State) : pend s.closeInterior = pend s := rfl
theorem pend_closeBlock (s : State) : pend s.closeBlock = pend s := rfl

/-- What `close_chunk` leaves alone, and its buffer: the pending chunk moves into `PREV` and `PEND` is emptied (R170). -/
theorem closeChunk_frame (s : State) :
    s.closeChunk.key = s.key ∧ s.closeChunk.keyValid = s.keyValid ∧ s.closeChunk.sstate = s.sstate ∧
      s.closeChunk.smode = s.smode ∧ s.closeChunk.sseed = s.sseed ∧ s.closeChunk.bytes = s.bytes ∧
      s.closeChunk.fault = s.fault ∧ s.closeChunk.fcause = s.fcause ∧ s.closeChunk.input = s.input ∧
      s.closeChunk.output = s.output ∧ s.closeChunk.buf = s.buf.writeBytes 0 (pend s) ∧ s.closeChunk.bufn = 0 := by
  rcases closeChunk_cases s with ⟨-, h⟩ | ⟨-, h⟩ <;> rw [h] <;> simp [pend_closeInterior, pend_closeBlock]

/-- The room made for a byte is at an address of `PEND` below 32 (R169). -/
theorem makeRoom_cases (s : State) :
    (s.bufn = 16 ∧ s.makeRoom = s.closeChunk) ∨ (s.bufn ≠ 16 ∧ s.makeRoom = s) := by
  unfold State.makeRoom
  by_cases h : s.bufn = 16
  · exact .inl ⟨h, if_pos h⟩
  · exact .inr ⟨h, if_neg h⟩

theorem makeRoom_frame (s : State) :
    s.makeRoom.key = s.key ∧ s.makeRoom.keyValid = s.keyValid ∧ s.makeRoom.sstate = s.sstate ∧
      s.makeRoom.smode = s.smode ∧ s.makeRoom.sseed = s.sseed ∧ s.makeRoom.bytes = s.bytes ∧
      s.makeRoom.fault = s.fault ∧ s.makeRoom.fcause = s.fcause ∧ s.makeRoom.input = s.input ∧
      s.makeRoom.output = s.output := by
  have h := closeChunk_frame s
  rcases makeRoom_cases s with ⟨-, hm⟩ | ⟨-, hm⟩ <;> rw [hm]
  · exact ⟨h.1, h.2.1, h.2.2.1, h.2.2.2.1, h.2.2.2.2.1, h.2.2.2.2.2.1, h.2.2.2.2.2.2.1, h.2.2.2.2.2.2.2.1,
      h.2.2.2.2.2.2.2.2.1, h.2.2.2.2.2.2.2.2.2.1⟩
  · exact ⟨rfl, rfl, rfl, rfl, rfl, rfl, rfl, rfl, rfl, rfl⟩

theorem makeRoom_bufn {s : State} (h : s.bufn.toNat ≤ 16) : s.makeRoom.bufn.toNat ≤ 15 := by
  rcases makeRoom_cases s with ⟨-, hm⟩ | ⟨hne, hm⟩ <;> rw [hm]
  · rw [(closeChunk_frame s).2.2.2.2.2.2.2.2.2.2.2]
    decide
  · have : s.bufn.toNat ≠ 16 := fun h16 => hne (BitVec.eq_of_toNat_eq h16)
    omega

theorem pend_length (s : State) : (pend s).length = 16 := Memory.bytesAt_length _ _ _

theorem closeChunk_wf {s : State} (h : s.buf.wf = true) : s.closeChunk.buf.wf = true := by
  rw [(closeChunk_frame s).2.2.2.2.2.2.2.2.2.2.1]
  exact Memory.wf_writeBytes h (by rw [pend_length]; omega)

theorem makeRoom_wf {s : State} (h : s.buf.wf = true) : s.makeRoom.buf.wf = true := by
  rcases makeRoom_cases s with ⟨-, hm⟩ | ⟨-, hm⟩ <;> rw [hm]
  · exact closeChunk_wf h
  · exact h

/-! ### `absorb_byte` -/

/-- The state after `absorb_byte` where it answers one (R169). -/
def State.absorbed (s : State) (b : Byte) : State :=
  { s.makeRoom with buf := s.makeRoom.buf.write (pendAddr s.makeRoom) b }.countByte

/-- With at most 16 bytes pending, `absorb_byte` answers a state (R169, R45). -/
theorem absorbByte_ok {s : State} (h : s.bufn.toNat ≤ 16) (b : Byte) : absorbByte b s = .ok (s.absorbed b) := by
  unfold absorbByte
  rw [writeBuf_ok (by have := makeRoom_bufn h; rw [pendAddr_eq]; omega)]
  rfl

theorem absorbed_bufn {s : State} (h : s.bufn.toNat ≤ 16) (b : Byte) :
    (s.absorbed b).bufn.toNat = s.makeRoom.bufn.toNat + 1 := by
  have hm := makeRoom_bufn h
  show (s.makeRoom.bufn + 1).toNat = _
  rw [BitVec.toNat_add]
  exact Nat.mod_eq_of_lt (by change s.makeRoom.bufn.toNat + 1 < 32; omega)

theorem absorbed_bufn_le {s : State} (h : s.bufn.toNat ≤ 16) (b : Byte) : (s.absorbed b).bufn.toNat ≤ 16 := by
  rw [absorbed_bufn h]
  have := makeRoom_bufn h
  omega

theorem absorbed_frame (s : State) (b : Byte) :
    (s.absorbed b).key = s.key ∧ (s.absorbed b).keyValid = s.keyValid ∧ (s.absorbed b).sstate = s.sstate ∧
      (s.absorbed b).smode = s.smode ∧ (s.absorbed b).sseed = s.sseed ∧ (s.absorbed b).bytes = s.bytes + 1 ∧
      (s.absorbed b).fault = s.fault ∧ (s.absorbed b).fcause = s.fcause ∧ (s.absorbed b).input = s.input ∧
      (s.absorbed b).output = s.output := by
  have h := makeRoom_frame s
  refine ⟨h.1, h.2.1, h.2.2.1, h.2.2.2.1, h.2.2.2.2.1, ?_, h.2.2.2.2.2.2.1, h.2.2.2.2.2.2.2.1,
    h.2.2.2.2.2.2.2.2.1, h.2.2.2.2.2.2.2.2.2⟩
  show s.makeRoom.bytes + 1 = _
  rw [h.2.2.2.2.2.1]

theorem absorbed_wf {s : State} (hw : s.buf.wf = true) (hn : s.bufn.toNat ≤ 16) (b : Byte) :
    (s.absorbed b).buf.wf = true := by
  have := makeRoom_bufn hn
  exact Memory.wf_write (makeRoom_wf hw) (by rw [pendAddr_eq]; omega) b

/-! ### Absorbing a byte string -/

@[simp] theorem absorb_nil (s : State) : absorb [] s = .ok s := rfl

theorem absorb_cons {s : State} (h : s.bufn.toNat ≤ 16) (b : Byte) (bs : ByteString) :
    absorb (b :: bs) s = absorb bs (s.absorbed b) := by
  show (match absorbByte b s with | .ok t => absorb bs t | .error f => .error f) = _
  rw [absorbByte_ok h]

/-- Everything absorbing a byte string does, from at most 16 bytes pending: it answers a state, counts the bytes, keeps
the canonical form, and leaves the key, the seed, the mode, the fault registers and the channels alone (R171). -/
theorem absorb_spec (data : ByteString) {s : State} (h : s.bufn.toNat ≤ 16) :
    ∃ t, absorb data s = .ok t ∧ t.bufn.toNat ≤ 16 ∧ t.bytes = s.bytes + BitVec.ofNat 64 data.length ∧
      t.key = s.key ∧ t.keyValid = s.keyValid ∧ t.sstate = s.sstate ∧ t.smode = s.smode ∧ t.sseed = s.sseed ∧
      t.fault = s.fault ∧ t.fcause = s.fcause ∧ t.input = s.input ∧ t.output = s.output ∧
      (s.buf.wf = true → t.buf.wf = true) := by
  induction data generalizing s with
  | nil => exact ⟨s, rfl, h, by simp, rfl, rfl, rfl, rfl, rfl, rfl, rfl, rfl, rfl, id⟩
  | cons b bs ih =>
    obtain ⟨t, ht, hn, hb, hk, hv, hs, hm, he, hf, hc, hi, ho, hw⟩ := ih (absorbed_bufn_le h b)
    obtain ⟨fk, fv, fs, fm, fe, fb, ff, fc, fi, fo⟩ := absorbed_frame s b
    refine ⟨t, by rw [absorb_cons h, ht], hn, ?_, hk.trans fk, hv.trans fv, hs.trans fs, hm.trans fm, he.trans fe,
      hf.trans ff, hc.trans fc, hi.trans fi, ho.trans fo, fun w => hw (absorbed_wf w h b)⟩
    rw [hb, fb, List.length_cons, BitVec.add_assoc]
    congr 1
    apply BitVec.eq_of_toNat_eq
    simp [Nat.add_comm]

/-- Absorbing two byte strings one after the other is absorbing their concatenation (R171). -/
theorem absorb_append (a b : ByteString) (s : State) :
    absorb (a ++ b) s = match absorb a s with | .ok t => absorb b t | .error f => .error f := by
  induction a generalizing s with
  | nil => rfl
  | cons x a ih =>
    show (match absorbByte x s with | .ok t => absorb (a ++ b) t | .error f => .error f) = _
    simp only [absorb]
    cases absorbByte x s with
    | error f => rfl
    | ok t => exact ih t

/-! ### SUPD and SDIG -/

/-- Everything SUPD can do: it faults with SINK_STATE or LENGTH_OVERFLOW, takes its bytes, or, from a `BUFN` above 16,
stops at an address outside `BUF` (R171). -/
theorem execSupd_spec (data : ByteString) (s : State) :
    ((s.sstate = .uninit ∨ s.sstate = .done) ∧ execSupd data s = .next (s.raise .sinkState)) ∨
      ((s.sstate = .empty ∨ s.sstate = .accumulating) ∧ 2 ^ 64 ≤ s.bytes.toNat + data.length ∧
        execSupd data s = .next (s.raise .lengthOverflow)) ∨
      ((s.sstate = .empty ∨ s.sstate = .accumulating) ∧ s.bytes.toNat + data.length < 2 ^ 64 ∧
        ((∃ t, absorb data s = .ok t ∧ execSupd data s = .next ((t.afterUpdate data.length).ok 0 0)) ∨
          (∃ f, absorb data s = .error f ∧ execSupd data s = .fault f))) := by
  unfold execSupd
  by_cases hu : s.sstate = .uninit
  · exact .inl ⟨.inl hu, if_pos hu⟩
  by_cases hd : s.sstate = .done
  · exact .inl ⟨.inr hd, by rw [if_neg hu, if_pos hd]⟩
  have hs : s.sstate = .empty ∨ s.sstate = .accumulating := by
    cases h : s.sstate
    · exact absurd h hu
    · exact .inl rfl
    · exact .inr rfl
    · exact absurd h hd
  rw [if_neg hu, if_neg hd]
  by_cases h : 2 ^ 64 ≤ s.bytes.toNat + data.length
  · exact .inr (.inl ⟨hs, h, if_pos h⟩)
  · rw [if_neg h]
    refine .inr (.inr ⟨hs, by omega, ?_⟩)
    cases ha : absorb data s with
    | ok t => exact .inl ⟨t, rfl, rfl⟩
    | error f => exact .inr ⟨f, rfl, rfl⟩

/-- The last chunk can be read whenever at most 16 bytes are pending (R45, R172). -/
theorem lastChunk_ok {s : State} (h : s.bufn.toNat ≤ 16) : ∃ c, lastChunk s = .ok c := by
  unfold lastChunk
  split
  · rw [readBuf_ok (by omega), readBuf_ok (by omega)]
    exact ⟨_, rfl⟩
  · exact ⟨_, readBuf_ok (by omega)⟩

/-- `sink_value` is defined whenever at most 16 bytes are pending (R45, R172). -/
theorem sinkValue_ok {s : State} (h : s.bufn.toNat ≤ 16) : ∃ v, sinkValue s = .ok v := by
  unfold sinkValue
  split
  · rename_i hb
    change s.bytes.toNat ≤ 8 at hb
    rw [readBuf_ok (by omega)]
    exact ⟨_, rfl⟩
  · obtain ⟨c, hc⟩ := lastChunk_ok h
    rw [hc]
    exact ⟨_, rfl⟩

/-- Everything SDIG can do: it faults with SINK_STATE, answers the digest, or stops at an address outside `BUF`
(R173). -/
theorem execSdig_spec (s : State) :
    (s.sstate = .uninit ∧ execSdig s = .next (s.raise .sinkState)) ∨
      (s.sstate ≠ .uninit ∧
        ((∃ v, sinkValue s = .ok v ∧ execSdig s = .next (s.finish.ok (s.smode.report v).1 (s.smode.report v).2)) ∨
          (∃ f, sinkValue s = .error f ∧ execSdig s = .fault f))) := by
  unfold execSdig
  by_cases h : s.sstate = .uninit
  · exact .inl ⟨h, if_pos h⟩
  · refine .inr ⟨h, ?_⟩
    rw [if_neg h]
    cases hv : sinkValue s with
    | ok v => exact .inl ⟨v, rfl, rfl⟩
    | error f => exact .inr ⟨f, rfl, rfl⟩

end Sys2Proof.Machine
end

