-- ==== Sys2Proof/Machine/Assembler.lean ====
section
/-! DEFINITION. The textual form of command streams and the convention of a passing run (R75, R76, R204). No hardware
reads it: it is how the spec writes programs. -/

namespace Sys2Proof.Machine

/-- Byte `i` of the test string `T` (95_test_vectors.md section 1, R75). -/
def testByte (i : Nat) : Byte := BitVec.ofNat 8 (37 * i + 11)

/-- The test string `T(n)` (95_test_vectors.md section 1, R75). -/
def testString (n : Nat) : ByteString := (List.range n).map testByte

/-- The key `KT` (95_test_vectors.md section 1). -/
def testKey : Key :=
  Vector.ofFn fun j =>
    match j.val with
    | 0 => 0x0123456789ABCDEF
    | 1 => 0x1CB03D3F72925A87
    | 2 => 0x0FEDCBA987654321
    | 3 => 0x14CCC27195EB2D17
    | n + 4 => BitVec.ofNat 64 ((n + 1) * 0x9E3779B97F4A7C15)

/-- The key `KZ`, with an all-zero `OH` array (95_test_vectors.md section 1). -/
def zeroKey : Key := Vector.ofFn fun j => if j.val < 4 then 1 else 0

/-- A byte-string literal (R75). -/
inductive ByteLiteral where
  /-- `x"0b3055"`. -/
  | hex (bytes : ByteString)
  /-- `"abc"`. -/
  | ascii (text : String)
  /-- `T(n)`. -/
  | test (n : Nat)
  /-- `b[i:j]`. -/
  | part (b : ByteLiteral) (i j : Nat)
  /-- `b * k`. -/
  | times (b : ByteLiteral) (k : Nat)
deriving DecidableEq, Repr

/-- The bytes a literal stands for (R75). -/
def ByteLiteral.value : ByteLiteral → ByteString
  | .hex bytes => bytes
  | .ascii text => text.toList.map fun c => BitVec.ofNat 8 c.toNat
  | .test n => testString n
  | .part b i j => slice b.value i j
  | .times b k => (List.replicate k b.value).flatten

/-- The operand of KEYLD: the words themselves or a named image (R75). -/
inductive KeyLiteral where
  | words (image : Key)
  /-- `@KT`. -/
  | kt
  /-- `@KZ`. -/
  | kz
deriving DecidableEq, Repr

/-- The key image a literal stands for. -/
def KeyLiteral.value : KeyLiteral → Key
  | .words image => image
  | .kt => testKey
  | .kz => zeroKey

/-- The operand of REGRD: a register's name or its number (R75, R27). -/
inductive RegLiteral where
  | status | acc0 | acc1 | bytes | sseed | pos
  | number (reg : BitVec 8)
deriving DecidableEq, Repr

/-- The register index of R27. -/
def RegLiteral.value : RegLiteral → BitVec 8
  | .status => 0
  | .acc0 => 1
  | .acc1 => 2
  | .bytes => 3
  | .sseed => 4
  | .pos => 5
  | .number reg => reg

/-- A command as the assembler writes it (R75); each is exactly one transaction (R76). -/
inductive AsmCommand where
  | keyld (image : KeyLiteral)
  | hashP (seed : Word) (data : ByteLiteral)
  | hashS (seed : Word) (data : ByteLiteral)
  | fprint (seed : Word) (data : ByteLiteral)
  | sinitP (seed : Word)
  | sinitS (seed : Word)
  | sinitF (seed : Word)
  | supd (data : ByteLiteral)
  | sdig
  | regrd (reg : RegLiteral)
deriving DecidableEq, Repr

/-- The command a line stands for; the assembler computes `LEN` from the literal (R75). -/
def AsmCommand.value : AsmCommand → Instr
  | .keyld image => .keyld image.value
  | .hashP seed data => .hashP seed data.value
  | .hashS seed data => .hashS seed data.value
  | .fprint seed data => .fprint seed data.value
  | .sinitP seed => .sinitP seed
  | .sinitS seed => .sinitS seed
  | .sinitF seed => .sinitF seed
  | .supd data => .supd data.value
  | .sdig => .sdig
  | .regrd reg => .regrd reg.value

/-- A line: a command with the response written after `=>`, if any, or `RESET` (R75, R76). -/
inductive AsmLine where
  | command (c : AsmCommand) (expected : Option Response)
  | reset
deriving DecidableEq, Repr

/-- What a line makes the host do (R75, R76). -/
def AsmLine.event : AsmLine → HostEvent
  | .command c _ => .transaction (encode c.value)
  | .reset => .reset none

/-- The responses a program gets: one entry for each command line, none where nothing is expected. -/
def expectations : List AsmLine → List (Option Response)
  | [] => []
  | .command _ e :: rest => e :: expectations rest
  | .reset :: rest => expectations rest

/-- A response is as a line expects it; a line that expects nothing accepts any. -/
def asExpected (e : Option Response) (r : Response) : Bool :=
  match e with
  | none => true
  | some x => x == r

/-- The image of a program: its transactions in serialised form, one after another (R204). -/
def programImage : List AsmLine → ByteString
  | [] => []
  | .command c _ :: rest => encodeBytes c.value ++ programImage rest
  | .reset :: rest => programImage rest

/-- The block after a program, from the reset state (R204). -/
def runProgram (p : List AsmLine) : Host.Outcome State Fault Refusal :=
  Sys2Proof.core.run p.length (State.reset.withInput (p.map AsmLine.event))

/-- A run passes if every response equals the expected triple (R204). -/
def passes (p : List AsmLine) : Bool :=
  match runProgram p with
  | .next s =>
    s.output.length == (expectations p).length && ((expectations p).zip s.output).all fun x => asExpected x.1 x.2
  | .fault _ => false
  | .refused _ => false

/-! ### Text -/

/-- `n` hexadecimal digits of a number, most significant first. -/
def hexDigits (n v : Nat) : String :=
  String.ofList ((List.range n).reverse.map fun i => Nat.digitChar (v / 16 ^ i % 16))

/-- A 64-bit literal (R75). -/
def wordText (w : Word) : String := "0x" ++ hexDigits 16 w.toNat

/-- The text of a byte-string literal (R75). -/
def ByteLiteral.text : ByteLiteral → String
  | .hex bytes => "x\"" ++ String.join (bytes.map fun b => hexDigits 2 b.toNat) ++ "\""
  | .ascii text => "\"" ++ text ++ "\""
  | .test n => "T(" ++ toString n ++ ")"
  | .part b i j => b.text ++ "[" ++ toString i ++ ":" ++ toString j ++ "]"
  | .times b k => b.text ++ " * " ++ toString k

/-- The text of KEYLD's operand (R75). -/
def KeyLiteral.text : KeyLiteral → String
  | .words image => ", ".intercalate (image.toList.map wordText)
  | .kt => "@KT"
  | .kz => "@KZ"

/-- The text of REGRD's operand (R75). -/
def RegLiteral.text : RegLiteral → String
  | .status => "STATUS"
  | .acc0 => "ACC0"
  | .acc1 => "ACC1"
  | .bytes => "BYTES"
  | .sseed => "SSEED"
  | .pos => "POS"
  | .number reg => toString reg.toNat

/-- The text of a command (R75). -/
def AsmCommand.text : AsmCommand → String
  | .keyld image => "KEYLD " ++ image.text
  | .hashP seed data => "HASH.P " ++ wordText seed ++ ", " ++ data.text
  | .hashS seed data => "HASH.S " ++ wordText seed ++ ", " ++ data.text
  | .fprint seed data => "FPRINT " ++ wordText seed ++ ", " ++ data.text
  | .sinitP seed => "SINIT.P " ++ wordText seed
  | .sinitS seed => "SINIT.S " ++ wordText seed
  | .sinitF seed => "SINIT.F " ++ wordText seed
  | .supd data => "SUPD " ++ data.text
  | .sdig => "SDIG"
  | .regrd reg => "REGRD " ++ reg.text

/-- The text of an expected response (R75). -/
def Response.text (r : Response) : String :=
  "=> 0x" ++ hexDigits 2 r.code.toNat ++ ", " ++ wordText r.r0 ++ ", " ++ wordText r.r1

/-- The text of a line (R75, R76). -/
def AsmLine.text : AsmLine → String
  | .command c none => c.text
  | .command c (some r) => c.text ++ " " ++ r.text
  | .reset => "RESET"

end Sys2Proof.Machine
end

