-- ==== Sys2Proof/Tests/Slice0.lean ====
section
/-! SUPPORT. Our own tests. The expected values of the named vectors are those printed in 95_test_vectors.md and in the
examples of the rules; each theorem says which. The `test_witness_` theorems show, for each obligation with hypotheses,
states and operands that meet them. -/

namespace Sys2Proof.Tests

-- One theorem at a time: many kernel evaluations at once exhaust the threads of the check.
set_option Elab.async false

open Sys2Proof Sys2Proof.Machine Sys2Proof.Safety

/-! ### Small states -/

/-- A block with the key `KT` loaded and nothing else done. -/
def keyed : State := { State.reset with key := testKey, keyValid := true }

/-- The state an outcome goes on in; the reset state where it stops. -/
def after (o : Host.Outcome State Fault Refusal) : State :=
  match o with
  | .next s => s
  | .fault _ => State.reset
  | .refused _ => State.reset

/-- The sink after SINIT.x, with the responses put aside. -/
def opened (m : SinkMode) (seed : Word) : State := keyed.initSink m seed

/-- The sink after SINIT.x and one SUPD, with the responses put aside. -/
def fed (m : SinkMode) (seed : Word) (d : ByteString) : State :=
  { after (execSupd d (opened m seed)) with output := [] }

/-- The sink after SINIT.x, one SUPD and SDIG, with the responses put aside. -/
def digested (m : SinkMode) (seed : Word) (d : ByteString) : State :=
  { after (execSdig (fed m seed d)) with output := [] }

/-- A block that has taken the fault SINK_STATE. -/
def faulted : State := { State.reset with fault := true, fcause := 0x05 }

/-- The last response given. -/
def lastResponse (o : Host.Outcome State Fault Refusal) : Option Response :=
  match o with
  | .next s => s.output.getLast?
  | .fault _ => none
  | .refused _ => none

/-- STATUS after a step. -/
def statusAfter (o : Host.Outcome State Fault Refusal) : Word := (after o).status

/-! ### Well-formedness: a byte string longer than `LEN` can say is refused -/

theorem lenFits_replicate (n : Nat) (b : Byte) : lenFits (List.replicate n b) = decide (n < 2 ^ 64) := by
  simp [lenFits]

theorem lenFits_too_long : lenFits (List.replicate (2 ^ 64) 0) = false :=
  (lenFits_replicate (2 ^ 64) 0).trans (decide_eq_false (Nat.lt_irrefl _))

theorem test_wf_refuses_long_hashP : (Instr.hashP 0 (List.replicate (2 ^ 64) 0)).wf = false := lenFits_too_long

theorem test_wf_refuses_long_hashS : (Instr.hashS 0 (List.replicate (2 ^ 64) 0)).wf = false := lenFits_too_long

theorem test_wf_refuses_long_fprint : (Instr.fprint 0 (List.replicate (2 ^ 64) 0)).wf = false := lenFits_too_long

theorem test_wf_refuses_long_supd : (Instr.supd (List.replicate (2 ^ 64) 0)).wf = false := lenFits_too_long

theorem test_wf_accepts_longest : (Instr.supd (List.replicate (2 ^ 64 - 1) 0)).wf = true :=
  (lenFits_replicate (2 ^ 64 - 1) 0).trans (decide_eq_true (by norm_num))

/-! ### Decoding: transactions written out in the spec -/

/-- The key image of `KT` (95_test_vectors.md section 1). -/
def ktImage : ByteString :=
  [0xEF, 0xCD, 0xAB, 0x89, 0x67, 0x45, 0x23, 0x01, 0x87, 0x5A, 0x92, 0x72, 0x3F, 0x3D, 0xB0, 0x1C] ++
  [0x21, 0x43, 0x65, 0x87, 0xA9, 0xCB, 0xED, 0x0F, 0x17, 0x2D, 0xEB, 0x95, 0x71, 0xC2, 0xCC, 0x14] ++
  [0x15, 0x7C, 0x4A, 0x7F, 0xB9, 0x79, 0x37, 0x9E, 0x2A, 0xF8, 0x94, 0xFE, 0x72, 0xF3, 0x6E, 0x3C] ++
  [0x3F, 0x74, 0xDF, 0x7D, 0x2C, 0x6D, 0xA6, 0xDA, 0x54, 0xF0, 0x29, 0xFD, 0xE5, 0xE6, 0xDD, 0x78] ++
  [0x69, 0x6C, 0x74, 0x7C, 0x9F, 0x60, 0x15, 0x17, 0x7E, 0xE8, 0xBE, 0xFB, 0x58, 0xDA, 0x4C, 0xB5] ++
  [0x93, 0x64, 0x09, 0x7B, 0x12, 0x54, 0x84, 0x53, 0xA8, 0xE0, 0x53, 0xFA, 0xCB, 0xCD, 0xBB, 0xF1] ++
  [0xBD, 0x5C, 0x9E, 0x79, 0x85, 0x47, 0xF3, 0x8F, 0xD2, 0xD8, 0xE8, 0xF8, 0x3E, 0xC1, 0x2A, 0x2E] ++
  [0xE7, 0x54, 0x33, 0x78, 0xF8, 0x3A, 0x62, 0xCC, 0xFC, 0xD0, 0x7D, 0xF7, 0xB1, 0xB4, 0x99, 0x6A] ++
  [0x11, 0x4D, 0xC8, 0x76, 0x6B, 0x2E, 0xD1, 0x08, 0x26, 0xC9, 0x12, 0xF6, 0x24, 0xA8, 0x08, 0xA7] ++
  [0x3B, 0x45, 0x5D, 0x75, 0xDE, 0x21, 0x40, 0x45, 0x50, 0xC1, 0xA7, 0xF4, 0x97, 0x9B, 0x77, 0xE3] ++
  [0x65, 0x3D, 0xF2, 0x73, 0x51, 0x15, 0xAF, 0x81, 0x7A, 0xB9, 0x3C, 0xF3, 0x0A, 0x8F, 0xE6, 0x1F] ++
  [0x8F, 0x35, 0x87, 0x72, 0xC4, 0x08, 0x1E, 0xBE, 0xA4, 0xB1, 0xD1, 0xF1, 0x7D, 0x82, 0x55, 0x5C] ++
  [0xB9, 0x2D, 0x1C, 0x71, 0x37, 0xFC, 0x8C, 0xFA, 0xCE, 0xA9, 0x66, 0xF0, 0xF0, 0x75, 0xC4, 0x98] ++
  [0xE3, 0x25, 0xB1, 0x6F, 0xAA, 0xEF, 0xFB, 0x36, 0xF8, 0xA1, 0xFB, 0xEE, 0x63, 0x69, 0x33, 0xD5] ++
  [0x0D, 0x1E, 0x46, 0x6E, 0x1D, 0xE3, 0x6A, 0x73, 0x22, 0x9A, 0x90, 0xED, 0xD6, 0x5C, 0xA2, 0x11] ++
  [0x37, 0x16, 0xDB, 0x6C, 0x90, 0xD6, 0xD9, 0xAF, 0x4C, 0x92, 0x25, 0xEC, 0x49, 0x50, 0x11, 0x4E] ++
  [0x61, 0x0E, 0x70, 0x6B, 0x03, 0xCA, 0x48, 0xEC, 0x76, 0x8A, 0xBA, 0xEA, 0xBC, 0x43, 0x80, 0x8A] ++
  [0x8B, 0x06, 0x05, 0x6A, 0x76, 0xBD, 0xB7, 0x28, 0xA0, 0x82, 0x4F, 0xE9, 0x2F, 0x37, 0xEF, 0xC6] ++
  [0xB5, 0xFE, 0x99, 0x68, 0xE9, 0xB0, 0x26, 0x65, 0xCA, 0x7A, 0xE4, 0xE7, 0xA2, 0x2A, 0x5E, 0x03]

/-- KEYLD @KT (P1). -/
theorem test_decode_keyld : decode ⟨0x00000001, ktImage⟩ = .ok (.keyld testKey) := by decide +kernel

/-- The words of `KT` (95_test_vectors.md section 1). -/
theorem test_key_words :
    keyWord testKey 3 = 0x14CCC27195EB2D17 ∧ keyWord testKey 4 = 0x9E3779B97F4A7C15 ∧
      keyWord testKey 35 = 0xC6EF372FE94F82A0 ∧ keyWord testKey 37 = 0x035E2AA2E7E47ACA := by decide +kernel

/-- HASH.P 0, x"0B3055" (R154). -/
theorem test_decode_hashP :
    decode ⟨0x00000002, [0, 0, 0, 0, 0, 0, 0, 0, 0x03, 0, 0, 0, 0, 0, 0, 0, 0x0B, 0x30, 0x55]⟩ =
      .ok (.hashP 0 [0x0B, 0x30, 0x55]) := by decide

/-- HASH.S 0, x"0B3055" (P1). -/
theorem test_decode_hashS :
    decode ⟨0x00000102, [0, 0, 0, 0, 0, 0, 0, 0, 0x03, 0, 0, 0, 0, 0, 0, 0, 0x0B, 0x30, 0x55]⟩ =
      .ok (.hashS 0 [0x0B, 0x30, 0x55]) := by decide

/-- FPRINT 0, T(9) (P1). -/
theorem test_decode_fprint :
    decode ⟨0x00000003, [0, 0, 0, 0, 0, 0, 0, 0, 0x09, 0, 0, 0, 0, 0, 0, 0,
        0x0B, 0x30, 0x55, 0x7A, 0x9F, 0xC4, 0xE9, 0x0E, 0x33]⟩ = .ok (.fprint 0 (testString 9)) := by decide +kernel

/-- SINIT.P 0 (R166). -/
theorem test_decode_sinitP : decode ⟨0x00000004, [0, 0, 0, 0, 0, 0, 0, 0]⟩ = .ok (.sinitP 0) := by decide

/-- SINIT.S S2 (R167). -/
theorem test_decode_sinitS :
    decode ⟨0x00000104, [0x78, 0x56, 0x34, 0x12, 0xEF, 0xBE, 0xAD, 0xDE]⟩ = .ok (.sinitS 0xDEADBEEF12345678) := by
  decide

/-- SINIT.F 0 (R168). -/
theorem test_decode_sinitF : decode ⟨0x00000204, [0, 0, 0, 0, 0, 0, 0, 0]⟩ = .ok (.sinitF 0) := by decide

/-- SUPD x"0B3055" (R171). -/
theorem test_decode_supd :
    decode ⟨0x00000005, [0x03, 0, 0, 0, 0, 0, 0, 0, 0x0B, 0x30, 0x55]⟩ = .ok (.supd [0x0B, 0x30, 0x55]) := by decide

/-- SDIG (R173). -/
theorem test_decode_sdig : decode ⟨0x00000006, []⟩ = .ok .sdig := by decide

/-- REGRD POS is `07 00 05 00` (R157). -/
theorem test_decode_regrd : decode ⟨0x00050007, []⟩ = .ok (.regrd 5) := by decide

/-- Words with reserved bits set or a mode or register out of place are illegal (R72). -/
theorem test_decode_rejects_illegal :
    rowOf 0x00000000 = none ∧ rowOf 0x00000008 = none ∧ rowOf 0x00000402 = none ∧ rowOf 0x01000007 = none ∧
      rowOf 0x00000103 = none ∧ rowOf 0x00000202 = none ∧ rowOf 0x00000304 = none ∧ rowOf 0x00010006 = none := by
  decide

/-- The malformed lines of 95_test_vectors.md section 3.11 (R74). -/
theorem test_decode_rejects_malformed :
    decode ⟨0x00000002, [0, 0, 0, 0, 0, 0, 0, 0, 0x04, 0, 0, 0, 0, 0, 0, 0, 0x61, 0x62, 0x63]⟩ = .error .malformed ∧
      decode ⟨0x00000001, ktImage.drop 1⟩ = .error .malformed ∧ decode ⟨0x00000006, [0]⟩ = .error .malformed ∧
      decode ⟨0x00000002, [0, 0, 0, 0, 0, 0, 0, 0]⟩ = .error .malformed := by decide +kernel

/-- The host's two questions on one word of the table. -/
theorem test_table_words :
    decodeTableWord 32 0x00000001 = some (.keyld (Vector.replicate 38 0)) ∧
      decodeTableWord 32 0x00000102 = some (.hashS 0 []) ∧ decodeTableWord 32 0x00000005 = some (.supd []) ∧
      decodeTableWord 32 0x00040007 = some (.regrd 4) ∧ decodeTableWord 32 0x00000302 = none := by decide +kernel

theorem test_step_runs_the_offered_word :
    after (step (State.reset.withFetchWord 32 0x00000007)) = State.reset.ok 0 0 ∧
      after (step (State.reset.withFetchWord 32 0x00000006)) = State.reset.raise .sinkState := by decide +kernel

/-! ### Vectors of the functions (95_test_vectors.md sections 3.1 to 3.9) -/

theorem test_primitives :
    rotl64 0x0123456789ABCDEF 33 = 0x13579BDE02468ACF ∧
      clmul 2 0x8000000000000001 = 0x00000000000000010000000000000002 ∧
      clmul 0x0123456789ABCDEF 0x0FEDCBA987654321 = 0x000E038D8688850B040A0789828C810F ∧
      laneshl 0xFFFFFFFFFFFFFFFFFFFFFFFFFFFFFFFF 63 = 0x80000000000000008000000000000000 ∧
      mul64 0x00005530000154CB 0xBF58476D1CE4E5B9 = 0x650F0D95EA9BDDB3 := by decide +kernel

theorem test_packing :
    vecToU64 (testString 2) = 0x0000300B00000000 ∧ vecToU64 (testString 3) = 0x000055300000000B ∧
      vecToU64 (testString 4) = 0x7A55300B7A55300B ∧ vecToU64 (testString 7) = 0xE9C49F7A7A55300B ∧
      vecToU64 (testString 8) = 0x0EE9C49F7A55300B := by decide +kernel

theorem test_short_mix :
    shortMix testKey 0 .primary (testString 8) = 0x96B8CAA96EE4B190 ∧
      shortMix testKey 0xDEADBEEF12345678 .secondary [] = 0xEDBEC774F2915B61 ∧
      shortMix testKey 0xFFFFFFFFFFFFFFFF .primary [] = 0x960049CE2B71A9C2 ∧
      shortMix zeroKey 1 .primary [] = 0x94D049BA3A91829D := by decide +kernel

theorem test_chunker :
    chunkBytes (testString 15) =
        [([0x0B, 0x30, 0x55, 0x7A, 0x9F, 0xC4, 0xE9, 0x0E, 0x0E, 0x33, 0x58, 0x7D, 0xA2, 0xC7, 0xEC, 0x11], 15)] ∧
      chunkBytes (testString 17) =
        [([0x0B, 0x30, 0x55, 0x7A, 0x9F, 0xC4, 0xE9, 0x0E, 0x33, 0x58, 0x7D, 0xA2, 0xC7, 0xEC, 0x11, 0x36], 16),
          ([0x30, 0x55, 0x7A, 0x9F, 0xC4, 0xE9, 0x0E, 0x33, 0x58, 0x7D, 0xA2, 0xC7, 0xEC, 0x11, 0x36, 0x5B], 1)] := by
  decide +kernel

theorem test_blockifier :
    (blockify (chunkBytes (testString 257))).map (fun b => (b.1.length, b.2)) = [(16, 256), (1, 1)] ∧
      (blockify (chunkBytes (testString 600))).map (fun b => (b.1.length, b.2)) = [(16, 256), (16, 256), (6, 88)] := by
  decide +kernel

theorem test_tag :
    tag 0xDEADBEEF12345678 120 = 0xDEADBEEF123456000000000000000000 ∧
      tag 0xDEADBEEF12345678 256 = 0xDEADBEEF123456780000000000000000 ∧
      tag 0x0000000000000100 1 = 0x00000000000001010000000000000000 := by decide

theorem test_mixers :
    phAt testKey 0 (testString 16) = 0x059F13C41F8A881CC21ED9F37C332D0E ∧
      enhAt testKey 0xDEADBEEF12345678 16 0 (testString 16) = 0x2C1DB4F69ADE865E34976C0ECF0B87A0 ∧
      enh (List.replicate 16 0xFF) 0 0 (cat 0xFFFFFFFFFFFFFFFF 0) = 0xFFFFFFFFFFFFFFFD0000000000000001 := by
  decide +kernel

/-- The block `T(48)`, three chunks. -/
theorem test_block_values :
    ohBlock testKey 0 [slice (testString 48) 0 16, slice (testString 48) 16 32, slice (testString 48) 32 48] 48 =
      (0x155F8BC2AA141FCDFF6F15EE4AA80A26, 0xE83573C83C8775DF69899C59C7C6F4D1) := by decide +kernel

theorem test_horner :
    horner2 0 1 1 0xFFFFFFFFFFFFFFFF 0 = 7 ∧ horner2 5 4 2 0xFFFFFFFFFFFFFFFF 0 = 0x30 ∧
      horner2 0 0x1CB03D3F72925A87 0x0123456789ABCDEF 0x1111111111111111 0x2222222222222222 = 0x41A65D5C1C5C1DA5 := by
  decide +kernel

theorem test_finalizer :
    finalize 0x0123456789ABCDEF = 0x3131B9302020A821 ∧ unfinalize 1 = 0x5F012305AF111355 ∧
      finalize 0x5F012305AF111355 = 1 := by decide +kernel

/-! ### One step of each command (95_test_vectors.md sections 3.10, 3.11 and 4) -/

/-- KEYLD after reset: OK, STATUS = 0x10 (P1). -/
theorem test_keyld :
    lastResponse (execKeyld testKey State.reset) = some ⟨0x00, 0, 0⟩ ∧
      statusAfter (execKeyld testKey State.reset) = 0x0010 := by decide +kernel

/-- KEYLD in a stream is KEY_BUSY, after the digest it gives the sink up (section 3.11). -/
theorem test_keyld_busy :
    statusAfter (execKeyld testKey (opened .primary 0)) = 0x0431 ∧
      statusAfter (execKeyld testKey (digested .primary 0 [])) = 0x0010 := by decide +kernel

/-- HASH.P 0, x"0B3055" (P1) and, with no key, NO_KEY (section 3.11). -/
theorem test_hashP :
    lastResponse (execHashP 0 [0x0B, 0x30, 0x55] keyed) = some ⟨0x00, 0x3F4E9F2A640F7FCA, 0⟩ ∧
      statusAfter (execHashP 0 [] State.reset) = 0x0320 := by decide +kernel

/-- HASH.S 0, x"0B3055" (P1). -/
theorem test_hashS :
    lastResponse (execHashS 0 [0x0B, 0x30, 0x55] keyed) = some ⟨0x00, 0x67DE4C8CFBCA7A7A, 0⟩ := by decide +kernel

/-- FPRINT 0, T(9) and FPRINT S2, T(17) (P1). -/
theorem test_fprint :
    lastResponse (execFprint 0 (testString 9) keyed) = some ⟨0x00, 0xC7D8B763585DCDF2, 0x683E9B98637D8B0F⟩ ∧
      lastResponse (execFprint 0xDEADBEEF12345678 (testString 17) keyed) =
        some ⟨0x00, 0x5F40AFC62F8F5ACB, 0x5D5AACE5702E98DD⟩ := by decide +kernel

/-- The response to FPRINT 0, T(9) on the wire (P1). -/
theorem test_response_bytes :
    (Response.mk 0x00 0xC7D8B763585DCDF2 0x683E9B98637D8B0F).bytes =
      [0x00, 0xF2, 0xCD, 0x5D, 0x58, 0x63, 0xB7, 0xD8, 0xC7, 0x0F, 0x8B, 0x7D, 0x63, 0x98, 0x9B, 0x3E, 0x68] := by
  decide

/-- SINIT.P 0: STATUS = 0x11 (R166). -/
theorem test_sinitP : statusAfter (execSinitP 0 keyed) = 0x0011 ∧ statusAfter (execSinitP 0 State.reset) = 0x0320 := by
  decide +kernel

/-- SINIT.S S2: STATUS = 0x15 (R167). -/
theorem test_sinitS :
    statusAfter (execSinitS 0xDEADBEEF12345678 keyed) = 0x0015 ∧
      (after (execSinitS 0xDEADBEEF12345678 keyed)).sseed = 0xDEADBEEF12345678 := by decide +kernel

/-- SINIT.F 0: STATUS = 0x19 (R168). -/
theorem test_sinitF : statusAfter (execSinitF 0 keyed) = 0x0019 := by decide +kernel

/-- SUPD of the seventeenth byte closes the first chunk (P4, `T(17)`). -/
theorem test_supd_closes_a_chunk :
    (fed .both 0 (testString 17)).pos = 0x0101 ∧
      (fed .both 0 (testString 17)).ohacc0 = 0x059F13C41F8A881CC21ED9F37C332D0E ∧
      (fed .both 0 (testString 17)).ohacc1 = 0x0B3E27883F151038843DB3E6F8665A1C ∧
      (fed .both 0 (testString 17)).lrc = cat 0x0A7F1FB55CE9A019 0x90DEBD26051F4C1E := by decide +kernel

/-- SUPD at BYTES = 2^64 - 1 overflows, at 2^64 - 2 it does not (section 3.11). -/
theorem test_supd_overflow :
    statusAfter (execSupd [0x61] { opened .primary 0 with sstate := .accumulating, bytes := 0xFFFFFFFFFFFFFFFF }) =
        0x0632 ∧
      statusAfter (execSupd [0x61] { opened .primary 0 with bytes := 0xFFFFFFFFFFFFFFFE }) = 0x0012 := by
  decide +kernel

/-- SDIG after T(17), fingerprint mode, and after x"0B3055", secondary mode (P4). -/
theorem test_sdig :
    lastResponse (execSdig (fed .both 0 (testString 17))) = some ⟨0x00, 0x35B49C6A41500B2B, 0xBC6C5A49A12D196F⟩ ∧
      lastResponse (execSdig (fed .secondary 0 [0x0B, 0x30, 0x55])) = some ⟨0x00, 0x67DE4C8CFBCA7A7A, 0⟩ := by
  decide +kernel

/-- SDIG after T(12) builds the chunk from `PEND` alone; after the digest an SUPD faults (P4, P5). -/
theorem test_sdig_redundant :
    lastResponse (execSdig (fed .both 0 (testString 12))) = some ⟨0x00, 0xB2D160AC1331893B, 0x2298A739C4573720⟩ ∧
      statusAfter (execSupd [0x7A] (digested .primary 0 [0x0B, 0x30, 0x55])) = 0x0533 := by decide +kernel

/-- REGRD POS in UNINIT and REGRD 9 (section 3.11, R194). -/
theorem test_regrd :
    statusAfter (execRegrd 5 State.reset) = 0x0520 ∧ statusAfter (execRegrd 9 State.reset) = 0x0120 ∧
      lastResponse (execRegrd 0 keyed) = some ⟨0x00, 0x0010, 0⟩ := by decide +kernel

/-- REGRD ACC1, the accumulators closed at byte 257 (P3). -/
theorem test_regrd_after_a_block :
    lastResponse (execRegrd 2 (fed .secondary 0xDEADBEEF12345678 (testString 257))) =
      some ⟨0x00, 0x6FF03E44753B1AF7, 0⟩ := by decide +kernel

/-- A faulted block refuses all but REGRD STATUS, and reset leaves the fault (P5). -/
theorem test_faulted :
    lastResponse (step (faulted.withInput [.transaction ⟨0x00050007, []⟩])) = some ⟨0xFF, 0, 0⟩ ∧
      lastResponse (step (faulted.withInput [.transaction ⟨0x00000007, []⟩])) = some ⟨0x00, 0x0520, 0⟩ ∧
      statusAfter (step (faulted.withInput [.reset none])) = 0x0000 := by decide +kernel

/-- An illegal word before NO_KEY, a short transaction before NO_KEY (section 3.11). -/
theorem test_priority :
    statusAfter (step (State.reset.withInput [.transaction ⟨0x00000302, List.replicate 16 0⟩])) = 0x0120 ∧
      statusAfter (step (State.reset.withInput [.transaction ⟨0x00000002, List.replicate 8 0⟩])) = 0x0220 := by
  decide +kernel

/-- The first lines of P5 as the assembler writes them, and the text of one of them (R75, R204). -/
theorem test_assembler :
    passes [.reset, .command (.hashP 0 (.hex [])) (some ⟨0x03, 0, 0⟩), .command (.regrd .pos) (some ⟨0xFF, 0, 0⟩)] =
        true ∧
      (AsmLine.command (.hashP 0 (.test 3)) none).text = "HASH.P 0x0000000000000000, T(3)" := by decide +kernel

/-! ### Witnesses: states and operands that meet the hypotheses of the obligations -/

/-- Whether an outcome goes on. -/
def goesOn (o : Host.Outcome State Fault Refusal) : Bool :=
  match o with
  | .next _ => true
  | .fault _ => false
  | .refused _ => false

/-- A key whose two multipliers and squares are 0 and whose other words are those of `KT` (R228). -/
def zeroMultiplierKey : Key := Vector.ofFn fun j => if j.val < 4 then 0 else keyWord testKey j.val

/-- A key that differs from `KT` in the words the primary hash does not use. -/
def otherSecondaryKey : Key :=
  Vector.ofFn fun j =>
    if j.val = 2 ∨ j.val = 3 ∨ j.val = 36 ∨ j.val = 37 then 0 else keyWord testKey j.val

/-- A key that differs from `KT` in the words the secondary hash does not use. -/
def otherPrimaryKey : Key := Vector.ofFn fun j => if j.val = 0 ∨ j.val = 1 then 0 else keyWord testKey j.val

theorem inv_keyed : Inv keyed :=
  ⟨by decide, fun _ => by decide, fun h => absurd h (by decide), fun h => absurd rfl h⟩

theorem inv_keyed_other : Inv { keyed with sseed := 5, bufn := 3, buf := [(7, 1)] } :=
  ⟨by decide, fun _ => by decide, fun h => absurd h (by decide), fun h => absurd rfl h⟩

theorem inv_faulted : Inv faulted :=
  ⟨by decide, fun h => absurd h (by decide), fun _ => by decide, fun h => absurd rfl h⟩

theorem inv_fed : Inv (fed .both 0 (testString 17)) :=
  ⟨by decide +kernel, by decide +kernel, by decide +kernel, fun _ =>
    ⟨by decide +kernel, by decide +kernel, by decide +kernel, by decide +kernel, by decide +kernel, by decide +kernel,
      by decide +kernel, by decide +kernel, by decide +kernel⟩⟩

theorem inv_fed_other : Inv { fed .both 0 (testString 17) with buf := (fed .both 0 (testString 17)).buf.write 20 9 } :=
  ⟨by decide +kernel, by decide +kernel, by decide +kernel, fun _ =>
    ⟨by decide +kernel, by decide +kernel, by decide +kernel, by decide +kernel, by decide +kernel, by decide +kernel,
      by decide +kernel, by decide +kernel, by decide +kernel⟩⟩

theorem test_witness_OpcodeRowsAreDisjoint :
    (⟨.keyld, 0x00000001, 0xFFFFFFFF, .k⟩ : OpcodeRow) ∈ opcodeMap ∧
      (⟨.keyld, 0x00000001, 0xFFFFFFFF, .k⟩ : OpcodeRow).selects 0x00000001 = true ∧
      (⟨.regrd, 0x00000007, 0xFF00FFFF, .n⟩ : OpcodeRow) ∈ opcodeMap ∧
      (⟨.regrd, 0x00000007, 0xFF00FFFF, .n⟩ : OpcodeRow).selects 0x00FF0007 = true := by decide

theorem test_witness_IllegalWordsRaiseIllegalCommand :
    State.reset.fault = false ∧ rowOf (Transaction.mk 0x00000008 [1, 2]).word = none ∧ 6 ≤ (6 : BitVec 8).toNat ∧
      6 ≤ (255 : BitVec 8).toNat := by decide

theorem test_witness_WrongOperandCountRaisesMalformed :
    State.reset.fault = false ∧
      (rowOf 0x00000001 = some ⟨.keyld, 0x00000001, 0xFFFFFFFF, .k⟩ ∧ (List.replicate 303 (0 : Byte)).length ≠ 304) ∧
      (rowOf 0x00000002 = some ⟨.hashP, 0x00000002, 0xFFFFFFFF, .b⟩ ∧ (List.replicate 15 (0 : Byte)).length < 16) ∧
      (rowOf 0x00000003 = some ⟨.fprint, 0x00000003, 0xFFFFFFFF, .b⟩ ∧
        (List.replicate 17 (0 : Byte)).length ≠ 16 + (le64 (slice (List.replicate 17 (0 : Byte)) 8 16)).toNat) ∧
      (rowOf 0x00000204 = some ⟨.sinitF, 0x00000204, 0xFFFFFFFF, .i⟩ ∧ (List.replicate 9 (0 : Byte)).length ≠ 8) ∧
      (rowOf 0x00000005 = some ⟨.supd, 0x00000005, 0xFFFFFFFF, .u⟩ ∧ (List.replicate 7 (0 : Byte)).length < 8) ∧
      (rowOf 0x00000005 = some ⟨.supd, 0x00000005, 0xFFFFFFFF, .u⟩ ∧
        (List.replicate 9 (0 : Byte)).length ≠ 8 + (le64 (slice (List.replicate 9 (0 : Byte)) 0 8)).toNat) ∧
      (rowOf 0x00050007 = some ⟨.regrd, 0x00000007, 0xFF00FFFF, .n⟩ ∧ [(0 : Byte)].length ≠ 0) := by decide +kernel

theorem test_witness_DecodeOfEncodeIsTheCommand :
    (Instr.keyld testKey).wf = true ∧ (Instr.fprint 5 (testString 9)).wf = true ∧ (Instr.regrd 255).wf = true := by
  decide +kernel

theorem test_witness_DecodedTransactionsAreEncodings :
    decode ⟨0x00000005, [1, 0, 0, 0, 0, 0, 0, 0, 0x61]⟩ = .ok (.supd [0x61]) := by decide

theorem test_witness_WordArithmeticOnIntegers : 0 ≤ 63 ∧ 63 ≤ 63 := by decide

theorem test_witness_RotationLosesNoBit : (1 ≤ 1 ∧ 1 ≤ 63) ∧ (1 ≤ 63 ∧ 63 ≤ 63) ∧ 0 < 64 ∧ 63 < 64 := by decide

theorem test_witness_CarrylessProductBitByBit : 0 < 128 ∧ 126 < 128 ∧ 127 < 128 := by decide

theorem test_witness_LaneShiftsDoNotCrossLanes : 0 ≤ 63 ∧ 63 ≤ 63 ∧ 48 + 15 ≤ 63 := by decide

theorem test_witness_PackingIsInjectivePerLength :
    (4 ≤ (testString 4).length ∧ (testString 4).length ≤ 8) ∧ (testString 8).length = 8 ∧
      (testString 8).length ≤ 8 ∧ vecToU64 [] = vecToU64 [] := by decide

theorem test_witness_ShortInputsTakeTheShortMix :
    (testString 0).length ≤ 8 ∧ (testString 8).length ≤ 8 ∧ ∀ i < 34, oh zeroKey i = 0 := by decide +kernel

theorem test_witness_ShortInputsOfOneLengthNeverCollide :
    [0x61, 0x62].length = [0x61, 0x63].length ∧ [0x61, 0x62].length ≤ 8 ∧ [0x61, 0x62] ≠ [0x61, (0x63 : Byte)] := by
  decide

theorem test_witness_ChunksCoverTheInput :
    8 ≤ (testString 8).length ∧ (testString 15).length < 16 ∧ ¬ (testString 16).length < 16 ∧
      8 ≤ (testString 17).length ∧ 0 + 1 < (chunkBytes (testString 17)).length := by decide +kernel

theorem test_witness_BlocksAreFullButTheLast :
    8 ≤ (testString 257).length ∧ 0 + 1 < (blockify (chunkBytes (testString 257))).length ∧
      16 * 1 < (chunkBytes (testString 257)).length := by decide +kernel

theorem test_witness_TagHoldsSeedAndLength :
    (1 ≤ 1 ∧ 256 ≤ 256) ∧ 8 ≤ 8 ∧ 63 < 64 ∧ 9 ≤ (testString 257).length ∧
      (blockify (chunkBytes (testString 257))).dropLast ≠ [] := by decide +kernel

theorem test_witness_TagSeparatesBlockLengths : 1 ≤ 256 ∧ 256 ≤ 256 ∧ tag 7 256 = tag 7 256 := by decide

theorem test_witness_BlockValuesFromChunksAndKeyWords :
    ([] : List ByteString).length ≤ 15 ∧ (List.replicate 15 (testString 16)).length ≤ 15 := by decide

theorem test_witness_RunningFormEqualsBlockForm :
    ([] : List ByteString).length ≤ 15 ∧ (List.replicate 15 (testString 16)).length ≤ 15 := by decide

theorem test_witness_HashesIgnoreTheOtherKeyWords :
    (∀ j < 38, j ≠ 2 → j ≠ 3 → j ≠ 36 → j ≠ 37 → keyWord testKey j = keyWord otherSecondaryKey j) ∧
      testKey.toList ≠ otherSecondaryKey.toList ∧
      (∀ j < 38, j ≠ 0 → j ≠ 1 → keyWord testKey j = keyWord otherPrimaryKey j) ∧
      testKey.toList ≠ otherPrimaryKey.toList :=
  ⟨by decide +kernel, by decide +kernel, by decide +kernel, by decide +kernel⟩

theorem keyPrepared_testKey : KeyPrepared testKey :=
  ⟨by decide +kernel, by decide +kernel, by decide +kernel⟩

theorem test_witness_HornerStepIsTwoUpdatesInTheField :
    (4 : Word).toNat % Config.p61 = (2 : Word).toNat * (2 : Word).toNat % Config.p61 ∧ KeyPrepared testKey ∧ 0 < 2 ∧
      1 < 2 :=
  ⟨by decide, keyPrepared_testKey, by decide, by decide⟩

theorem test_witness_LongHashesAreSeparateHornerFolds : 9 ≤ (testString 9).length := by decide

theorem test_witness_ZeroMultiplierMakesTheLongHashZero :
    9 ≤ (testString 9).length ∧ multiplier zeroMultiplierKey 0 = 0 ∧ square zeroMultiplierKey 0 = 0 ∧
      multiplier zeroMultiplierKey 1 = 0 ∧ square zeroMultiplierKey 1 = 0 := by decide +kernel

theorem test_witness_FinalizerFormula : 9 ≤ (testString 9).length := by decide

theorem test_witness_FaultEntryRecordsTheFirstCause : keyed.fault = false ∧ faulted.fault = true := by decide

theorem test_witness_FaultedBlockRefusesTransactions : faulted.fault = true := by decide

theorem test_witness_FaultIsFinalWithoutReset :
    faulted.fault = true ∧
      ∀ e ∈ (faulted.withInput [.transaction ⟨0x00000006, []⟩, .transaction ⟨0, []⟩]).input,
        ∃ t, e = HostEvent.transaction t :=
  ⟨rfl, fun e h => by
    simp only [State.withInput, List.mem_cons, List.not_mem_nil, or_false] at h
    rcases h with h | h <;> exact ⟨_, h⟩⟩

theorem test_witness_KeyldLoadsTheKeyFile :
    (opened .both 0).sstate = .empty ∧ (fed .both 0 [1]).sstate = .accumulating ∧ keyed.sstate = .uninit ∧
      (digested .both 0 []).sstate = .done := by decide +kernel

theorem test_witness_BatchCommands : State.reset.keyValid = false ∧ keyed.keyValid = true := by decide

theorem test_witness_RegrdReadsTheNamedRegister :
    6 ≤ (6 : BitVec 8).toNat ∧ 6 ≤ (255 : BitVec 8).toNat ∧ 1 ≤ (1 : BitVec 8).toNat ∧ (5 : BitVec 8).toNat ≤ 5 ∧
      keyed.sstate = .uninit ∧ (opened .primary 0).sstate ≠ .uninit := by decide

theorem test_witness_SinitInitialisesTheSink :
    (sinitOf .primary 3 = .sinitP 3 ∧ sinitOf .secondary 3 = .sinitS 3 ∧ sinitOf .both 3 = .sinitF 3) ∧
      State.reset.keyValid = false ∧ keyed.keyValid = true := by decide

theorem test_witness_SupdChecksBeforeTakingAByte :
    keyed.sstate = .uninit ∧ (digested .primary 0 []).sstate = .done ∧ (opened .primary 0).sstate = .empty ∧
      2 ^ 64 ≤ ({ opened .primary 0 with bytes := 0xFFFFFFFFFFFFFFFF } : State).bytes.toNat + [(0x61 : Byte)].length := by
  decide +kernel

theorem test_witness_EmptySupdChangesNothing :
    (opened .primary 0).sstate = .empty ∧ (fed .primary 0 [1]).sstate = .accumulating ∧
      (digested .primary 0 []).sstate = .done := by decide +kernel

theorem test_witness_SupdTakesAllItsBytes :
    ((opened .primary 0).sstate = .empty ∧ (opened .primary 0).bufn.toNat ≤ 16 ∧ (opened .primary 0).buf.wf = true ∧
        1 ≤ [(0x61 : Byte)].length ∧ (opened .primary 0).bytes.toNat + [(0x61 : Byte)].length < 2 ^ 64) ∧
      ((fed .primary 0 (testString 16)).sstate = .accumulating ∧ (fed .primary 0 (testString 16)).bufn.toNat ≤ 16 ∧
        (fed .primary 0 (testString 16)).bufn = 16 ∧ (fed .primary 0 (testString 16)).buf.wf = true ∧
        (fed .primary 0 (testString 16)).bytes.toNat + [(0x61 : Byte)].length < 2 ^ 64) := by decide +kernel

/-- The frame of an SUPD: at its last byte before a chunk closes and a block closes, the addresses outside the stored ones;
one byte later, the addresses of `PEND` it does not reach. -/
theorem test_witness_SupdTakesAllItsBytes_frame :
    (opened .primary 0).bufn.toNat + (testString 16).length ≤ 16 ∧
      16 * ({ opened .primary 0 with chunks := 15 } : State).chunks.toNat + (opened .primary 0).bufn.toNat +
          (testString 16).length ≤ 256 ∧
      (∀ a ∈ [0, 15, 32],
        (∀ k < 16, a ≠ Config.pendBase + (pendAddr (opened .primary 0) + k) % Config.chunkBytes) ∧
          (a < Config.pendBase → (opened .primary 0).bufn.toNat + (testString 16).length ≤ 16)) ∧
      (∀ a ∈ [17, 31, 32],
        (∀ k < 1, a ≠ Config.pendBase + (pendAddr (fed .primary 0 (testString 16)) + k) % Config.chunkBytes) ∧
          ¬ a < Config.pendBase) := by decide +kernel

theorem test_witness_SupdAppendsToPend :
    (opened .primary 0).sstate = .empty ∧ (opened .primary 0).buf.wf = true ∧
      (opened .primary 0).bufn.toNat + (testString 16).length ≤ 16 ∧
      (opened .primary 0).bytes.toNat + (testString 16).length < 2 ^ 64 := by decide +kernel

theorem test_witness_SupdAtFullPendClosesTheChunk :
    (fed .primary 0 (testString 16)).sstate = .accumulating ∧ (fed .primary 0 (testString 16)).buf.wf = true ∧
      (fed .primary 0 (testString 16)).bufn = 16 ∧ (fed .primary 0 (testString 16)).bytes.toNat + 1 < 2 ^ 64 ∧
      ({ fed .primary 0 (testString 16) with chunks := 14 } : State).chunks.toNat < 15 ∧
      ({ fed .primary 0 (testString 16) with chunks := 15 } : State).chunks.toNat = 15 := by decide +kernel

theorem test_witness_SupdDependsOnlyOnTheConcatenation :
    (opened .both 0).sstate = .empty ∧ (opened .both 0).bufn.toNat ≤ 16 ∧
      (opened .both 0).bytes.toNat + (testString 16).length + [(1 : Byte)].length < 2 ^ 64 := by decide +kernel

theorem test_witness_SdigReportsTheSinkValue :
    keyed.sstate = .uninit ∧ (fed .both 0 (testString 17)).sstate ≠ .uninit ∧
      (fed .both 0 (testString 17)).bufn.toNat ≤ 16 ∧ (opened .both 0).sstate = .empty ∧ (opened .both 0).bytes = 0 ∧
      (opened .both 0).bufn.toNat ≤ 16 := by decide +kernel

theorem represents_opened : Represents (opened .both 0) [] :=
  ⟨by decide, by decide, by decide, by decide, by decide, by decide, by decide⟩

theorem represents_fed : Represents (fed .both 0 (testString 17)) (testString 17) :=
  ⟨by decide +kernel, by decide +kernel, by decide +kernel, by decide +kernel, by decide +kernel, by decide +kernel,
    by decide +kernel⟩

theorem test_witness_SinkStandsForTheBytesTaken :
    keyed.keyValid = true ∧ Represents (opened .both 0) [] ∧ (opened .both 0).sstate = .empty ∧
      (fed .both 0 (testString 17)).sstate = .accumulating ∧ (fed .both 0 (testString 17)).buf.wf = true ∧
      Represents (fed .both 0 (testString 17)) (testString 17) ∧
      (testString 17).length + (testString 5).length < 2 ^ 64 :=
  ⟨rfl, represents_opened, rfl, by decide +kernel, by decide +kernel, represents_fed, by decide +kernel⟩

theorem test_witness_SinkValueIsTheBatchHash :
    Represents (opened .both 0) [] ∧ Represents (fed .both 0 (testString 17)) (testString 17) :=
  ⟨represents_opened, represents_fed⟩

theorem test_witness_IncrementalDigestEqualsBatchHash :
    keyed.fault = false ∧ keyed.keyValid = true ∧ keyed.buf.wf = true ∧
      [testString 17, [], [0x61]].flatten.length < 2 ^ 64 := by decide +kernel

theorem test_witness_StepRunsTheDecodedCommand :
    (keyed.withInput [.transaction ⟨0x00000006, []⟩]).input = [.transaction ⟨0x00000006, []⟩] ∧
      keyed.fault = false ∧ decode ⟨0x00000006, []⟩ = .ok .sdig ∧ keyed.input = [] := by decide

theorem test_witness_EveryTransactionGetsOneResponse :
    Inv keyed ∧ Inv faulted ∧ Inv (fed .both 0 (testString 17)) := ⟨inv_keyed, inv_faulted, inv_fed⟩

theorem test_witness_WithoutAKeyCommandsFault :
    ({ State.reset with sseed := 0 } : State).keyValid = false ∧
      ({ State.reset with sseed := 0 } : State).sstate = .uninit ∧ 1 ≤ (1 : BitVec 8).toNat ∧
      (5 : BitVec 8).toNat ≤ 5 := by decide

/-- Every command goes on from a block with a key, the sink commands from an open sink. -/
theorem test_witness_SinkStateTransitions :
    goesOn (exec (.keyld testKey) keyed) = true ∧ goesOn (exec (.hashP 0 [1]) keyed) = true ∧
      goesOn (exec (.hashS 0 [1]) keyed) = true ∧ goesOn (exec (.fprint 0 [1]) keyed) = true ∧
      goesOn (exec (.sinitP 0) keyed) = true ∧ goesOn (exec (.sinitS 0) keyed) = true ∧
      goesOn (exec (.sinitF 0) keyed) = true ∧ goesOn (exec (.supd [1]) (opened .both 0)) = true ∧
      goesOn (exec .sdig (fed .both 0 (testString 17))) = true ∧ goesOn (exec (.regrd 5) (opened .both 0)) = true := by
  decide +kernel

theorem test_witness_KeySeedAndModeAreImmutableInAStream :
    goesOn (exec .sdig (fed .both 0 (testString 17))) = true ∧ (∀ image, Instr.sdig ≠ .keyld image) ∧
      (∀ (m : SinkMode) (seed : Word), Instr.sdig ≠ sinitOf m seed) ∧ (fed .both 0 (testString 17)).sstate = .accumulating ∧
      (fed .both 0 (testString 17)).keyValid = true ∧ goesOn (exec .sdig faulted) = true ∧ faulted.fault = true :=
  ⟨by decide +kernel, fun _ h => (by cases h), fun m _ h => (by cases m <;> cases h), by decide +kernel, by decide +kernel,
    by decide, by decide⟩

theorem test_witness_EveryStepKeepsTheInvariant :
    Inv (fed .both 0 (testString 17)) ∧
      goesOn (step ((fed .both 0 (testString 17)).withInput [.transaction ⟨0x00000006, []⟩])) = true ∧
      Inv ((fed .both 0 (testString 17)).withInput [.transaction ⟨0x00000006, []⟩]) :=
  ⟨inv_fed, by decide +kernel,
    ⟨inv_fed.bufWf, inv_fed.noCause, inv_fed.someCause, fun h =>
      have i := inv_fed.sink h
      ⟨i.keyed, i.bufnLe, i.count, i.bufnZero, i.emptyBytes, i.accumulatingBytes, i.nothingClosed, i.accRange,
        i.freshBlock⟩⟩⟩

theorem test_witness_NoStepStopsUnderTheInvariant : Inv keyed ∧ Inv (fed .both 0 (testString 17)) :=
  ⟨inv_keyed, inv_fed⟩

/-- Two states that differ only in what holds no value: with no stream, and within one. -/
theorem test_witness_RegistersWithoutValueAreNeverRead :
    (Inv keyed ∧ Inv { keyed with sseed := 5, bufn := 3, buf := [(7, 1)] } ∧
        visible keyed = visible { keyed with sseed := 5, bufn := 3, buf := [(7, 1)] } ∧
        keyed ≠ { keyed with sseed := 5, bufn := 3, buf := [(7, 1)] }) ∧
      (Inv (fed .both 0 (testString 17)) ∧
        Inv { fed .both 0 (testString 17) with buf := (fed .both 0 (testString 17)).buf.write 20 9 } ∧
        visible (fed .both 0 (testString 17)) =
          visible { fed .both 0 (testString 17) with buf := (fed .both 0 (testString 17)).buf.write 20 9 } ∧
        fed .both 0 (testString 17) ≠
          { fed .both 0 (testString 17) with buf := (fed .both 0 (testString 17)).buf.write 20 9 }) :=
  ⟨⟨inv_keyed, inv_keyed_other, by decide +kernel, by decide +kernel⟩,
    ⟨inv_fed, inv_fed_other, by decide +kernel, by decide +kernel⟩⟩

end Sys2Proof.Tests
end

section
/-! PROOFS. The running form of the block compressor is the block form (R128). -/

namespace Sys2Proof.Machine

/-! ### Lane shifts -/

theorem laneshl_xor (v w : DWord) (n : Nat) : laneshl (v ^^^ w) n = laneshl v n ^^^ laneshl w n :=
  dword_ext (by simp [shl64, BitVec.shiftLeft_xor_distrib]) (by simp [shl64, BitVec.shiftLeft_xor_distrib])

theorem laneshl_laneshl (v : DWord) (a b : Nat) : laneshl (laneshl v a) b = laneshl v (a + b) :=
  dword_ext (by simp [shl64, BitVec.shiftLeft_add]) (by simp [shl64, BitVec.shiftLeft_add])

@[simp] theorem laneshl_zero_value (n : Nat) : laneshl 0#128 n = 0#128 := by
  simpa using laneshl_xor 0#128 0#128 n

/-- A lane shift of a sum is the sum of the shifted values (R89). -/
theorem laneshl_xorAll (vs : List DWord) (n : Nat) : laneshl (xorAll vs) n = xorAll (vs.map fun v => laneshl v n) := by
  induction vs with
  | nil => simp
  | cons v vs ih => simp [laneshl_xor, ih]

/-! ### Sums over a range of chunks -/

theorem xorAll_map_range_succ (f : Nat → DWord) (n : Nat) :
    xorAll ((List.range (n + 1)).map f) = xorAll ((List.range n).map f) ^^^ f n := by
  simp [List.range_succ, xorAll_append]

theorem xorAll64_map_range_succ (f : Nat → Word) (n : Nat) :
    xorAll64 ((List.range (n + 1)).map f) = xorAll64 ((List.range n).map f) ^^^ f n := by
  simp [List.range_succ, xorAll64_append]

/-! ### The running form -/

/-- The running values after the first `n` chunks of a block whose chunk `i` is `c i` (R128). -/
def runningAfter (k : Key) (c : Nat → ByteString) (n : Nat) : Running :=
  (List.range n).foldl (fun r i => r.step k i (c i)) Running.start

theorem runningAfter_succ (k : Key) (c : Nat → ByteString) (n : Nat) :
    runningAfter k c (n + 1) = (runningAfter k c n).step k n (c n) := by
  simp [runningAfter, List.range_succ]

/-- The running values depend on the chunks taken so far only. -/
theorem runningAfter_congr (k : Key) {c c' : Nat → ByteString} (n : Nat) (h : ∀ i < n, c i = c' i) :
    runningAfter k c n = runningAfter k c' n := by
  induction n with
  | zero => rfl
  | succ n ih => rw [runningAfter_succ, runningAfter_succ, ih fun i hi => h i (by omega), h n (by omega)]

/-- `A0` is the sum of the `PH` values so far (R128). -/
theorem runningAfter_a0 (k : Key) (c : Nat → ByteString) (n : Nat) :
    (runningAfter k c n).a0 = xorAll ((List.range n).map fun i => phAt k i (c i)) := by
  induction n with
  | zero => rfl
  | succ n ih => rw [runningAfter_succ, xorAll_map_range_succ, ← ih]; rfl

/-- `A1` is the sum of the `PH` values so far, each shifted by its distance to the next chunk (R128). -/
theorem runningAfter_a1 (k : Key) (c : Nat → ByteString) (n : Nat) :
    (runningAfter k c n).a1 = xorAll ((List.range n).map fun i => laneshl (phAt k i (c i)) (n - i)) := by
  induction n with
  | zero => rfl
  | succ n ih =>
    have shifted : (List.range n).map (fun i => laneshl (phAt k i (c i)) (n + 1 - i)) =
        ((List.range n).map fun i => laneshl (phAt k i (c i)) (n - i)).map fun v => laneshl v 1 := by
      rw [List.map_map]
      refine List.map_congr_left fun i hi => ?_
      have := List.mem_range.1 hi
      rw [Function.comp_apply, laneshl_laneshl, show n - i + 1 = n + 1 - i by omega]
    calc (runningAfter k c (n + 1)).a1 = laneshl ((runningAfter k c n).a1 ^^^ phAt k n (c n)) 1 := by
          rw [runningAfter_succ]; rfl
      _ = xorAll ((List.range n).map fun i => laneshl (phAt k i (c i)) (n + 1 - i)) ^^^
            laneshl (phAt k n (c n)) (n + 1 - n) := by
          rw [laneshl_xor, ih, laneshl_xorAll, ← shifted, show n + 1 - n = 1 by omega]
      _ = _ := (xorAll_map_range_succ _ n).symm

theorem checksumStep_lo (key : Key) (i : Nat) (c : ByteString) (k : DWord) :
    lo64 (checksumStep key i c k) = lo64 k ^^^ (chunkLo c ^^^ oh key (2 * i)) := by
  simp [checksumStep, BitVec.xor_assoc]

theorem checksumStep_hi (key : Key) (i : Nat) (c : ByteString) (k : DWord) :
    hi64 (checksumStep key i c k) = hi64 k ^^^ (chunkHi c ^^^ oh key (2 * i + 1)) := by
  simp [checksumStep, BitVec.xor_assoc]

/-- The low lane of `K` is the low checksum so far (R128, R123). -/
theorem runningAfter_lo (k : Key) (c : Nat → ByteString) (n : Nat) :
    lo64 (runningAfter k c n).k = xorAll64 ((List.range n).map fun i => chunkLo (c i) ^^^ oh k (2 * i)) := by
  induction n with
  | zero => exact lo64_zero
  | succ n ih => rw [runningAfter_succ, xorAll64_map_range_succ, ← ih]; exact checksumStep_lo _ _ _ _

/-- The high lane of `K` is the high checksum so far (R128, R123). -/
theorem runningAfter_hi (k : Key) (c : Nat → ByteString) (n : Nat) :
    hi64 (runningAfter k c n).k = xorAll64 ((List.range n).map fun i => chunkHi (c i) ^^^ oh k (2 * i + 1)) := by
  induction n with
  | zero => exact hi64_zero
  | succ n ih => rw [runningAfter_succ, xorAll64_map_range_succ, ← ih]; exact checksumStep_hi _ _ _ _

/-! ### The block form, chunk by chunk -/

/-- The chunks of a block given as a function of the index. -/
def chunksOf (c : Nat → ByteString) (n : Nat) : List ByteString := (List.range n).map c

@[simp] theorem chunksOf_length (c : Nat → ByteString) (n : Nat) : (chunksOf c n).length = n := by simp [chunksOf]

theorem chunksOf_getD (c : Nat → ByteString) {n i : Nat} (h : i < n) : (chunksOf c n).getD i [] = c i := by
  simp [chunksOf, List.getD_eq_getElem?_getD, h]

theorem map_range_chunksOf {α : Type} (f : Nat → ByteString → α) (c : Nat → ByteString) {m n : Nat} (h : m ≤ n) :
    (List.range m).map (fun i => f i ((chunksOf c n).getD i [])) = (List.range m).map fun i => f i (c i) :=
  List.map_congr_left fun i hi => by
    have := List.mem_range.1 hi
    rw [chunksOf_getD c (by omega)]

/-- Closing the running form on the last chunk gives the two values of the block (R128, with the `SHUF` of log 6). -/
theorem close_runningAfter (k : Key) (seed : Word) (blen : Nat) (c : Nat → ByteString) (n : Nat) :
    (runningAfter k c n).close k seed blen n (c n) = ohBlock k seed (chunksOf c (n + 1)) blen := by
  have last : lastEnh k seed (chunksOf c (n + 1)) blen = enhAt k seed blen n (c n) := by
    rw [lastEnh, chunksOf_length, Nat.add_sub_cancel, chunksOf_getD c (Nat.lt_succ_self n)]
  have interior : interiorPh k (chunksOf c (n + 1)) = (List.range n).map fun i => phAt k i (c i) := by
    simpa [interiorPh] using map_range_chunksOf (phAt k) c (Nat.le_succ n)
  have shuffled : shuffledPh k (chunksOf c (n + 1)) = (List.range n).map fun i => laneshl (phAt k i (c i)) (n - i) := by
    simpa [shuffledPh, shuffle, params] using
      map_range_chunksOf (fun i b => laneshl (phAt k i b) (n + 1 - 1 - i)) c (Nat.le_succ n)
  have low : checksumLo k (chunksOf c (n + 1)) = lo64 (checksumStep k n (c n) (runningAfter k c n).k) := by
    rw [checksumStep_lo, runningAfter_lo, ← xorAll64_map_range_succ]
    simpa [checksumLo] using
      congrArg xorAll64 (map_range_chunksOf (fun i b => chunkLo b ^^^ oh k (2 * i)) c (Nat.le_refl (n + 1)))
  have high : checksumHi k (chunksOf c (n + 1)) = hi64 (checksumStep k n (c n) (runningAfter k c n).k) := by
    rw [checksumStep_hi, runningAfter_hi, ← xorAll64_map_range_succ]
    simpa [checksumHi] using
      congrArg xorAll64 (map_range_chunksOf (fun i b => chunkHi b ^^^ oh k (2 * i + 1)) c (Nat.le_refl (n + 1)))
  simp only [Running.close, ohBlock, primaryValue, secondaryValue, last, interior, shuffled, low, high,
    runningAfter_a0, runningAfter_a1]

end Sys2Proof.Machine

end

section
/-! PROOFS. What the sink registers stand for: SINIT.x and SUPD keep `Represents` (R18 to R24). -/

namespace Sys2Proof.Safety

open Sys2Proof Sys2Proof.Machine

/-! ### Chunks of an input that grows -/

/-- The number of chunks the sink has closed, once the next byte is taken: every full chunk (R169). -/
theorem closedChunks_succ (n : Nat) : closedChunks (n + 1) = n / 16 := rfl

theorem inputChunk_append (d e : ByteString) {j : Nat} (h : 16 * j + 16 ≤ d.length) :
    inputChunk (d ++ e) j = inputChunk d j := slice_append_left d e _ _ h

theorem closedBlocks_append (d e : ByteString) {n : Nat} (h : 256 * n ≤ d.length) :
    closedBlocks (d ++ e) n = closedBlocks d n := by
  refine List.map_congr_left fun b hb => ?_
  have hb := List.mem_range.1 hb
  congr 1
  refine List.map_congr_left fun i hi => inputChunk_append d e ?_
  have hi := List.mem_range.1 hi
  omega

theorem runningOf_append (k : Key) (d e : ByteString) {base n : Nat} (h : 16 * (base + n) ≤ d.length) :
    runningOf k (d ++ e) base n = runningOf k d base n :=
  runningAfter_congr k n fun i hi => inputChunk_append d e (by omega)

theorem runningOf_succ (k : Key) (d : ByteString) (base n : Nat) :
    runningOf k d base (n + 1) = (runningOf k d base n).step k n (inputChunk d (base + n)) :=
  runningAfter_succ k (fun i => inputChunk d (base + i)) n

theorem closedBlocks_succ (d : ByteString) (m : Nat) :
    closedBlocks d (m + 1) = closedBlocks d m ++ [(chunksOf (fun i => inputChunk d (16 * m + i)) 16, 256)] := by
  unfold closedBlocks
  rw [List.range_succ (n := m), List.map_append]
  rfl

/-- Folding one more full block is closing its running form on its chunk 15 (R170, R128). -/
theorem foldl_closedBlocks_succ (k : Key) (seed : Word) (d : ByteString) (m : Nat) (acc : Word × Word) :
    (closedBlocks d (m + 1)).foldl (foldBlock k seed) acc =
      let a := (closedBlocks d m).foldl (foldBlock k seed) acc
      let y := (runningOf k d (16 * m) 15).close k seed 256 15 (inputChunk d (16 * m + 15))
      (hornerStep k 0 a.1 y.1, hornerStep k 1 a.2 y.2) := by
  have close := close_runningAfter k seed 256 (fun i => inputChunk d (16 * m + i)) 15
  rw [closedBlocks_succ, List.foldl_append, List.foldl_cons, List.foldl_nil, foldBlock, ← close]
  rfl

/-! ### The sink with a given number of chunks closed -/

/-- The sink registers stand for the input `d`, of which `q` chunks are closed. `Represents` is the case in which the
last chunk is still pending; `makeRoom` passes through the case in which every full chunk is closed (R169). -/
structure StandsWith (s : State) (d : ByteString) (q : Nat) : Prop where
  length : s.bytes.toNat = d.length
  bufn : s.bufn.toNat = d.length - 16 * q
  chunks : s.chunks.toNat = q % 16
  pending : s.buf.bytesAt 16 s.bufn.toNat = d.drop (16 * q)
  previous : 1 ≤ q → s.buf.bytesAt 0 16 = inputChunk d (q - 1)
  folded : (s.acc0, s.acc1) = (closedBlocks d (q / 16)).foldl (foldBlock s.key s.sseed) accStart
  running : s.running = runningOf s.key d (16 * (q / 16)) (q % 16)

theorem represents_iff {s : State} {d : ByteString} : Represents s d ↔ StandsWith s d (closedChunks d.length) :=
  ⟨fun ⟨hl, hn, hc, hp, hv, hf, hr⟩ => ⟨hl, hn, hc, hp, hv, hf, hr⟩,
    fun ⟨hl, hn, hc, hp, hv, hf, hr⟩ => ⟨hl, hn, hc, hp, hv, hf, hr⟩⟩

/-- A full `PEND` is the first chunk not yet closed (R22). -/
theorem StandsWith.pend_eq {s : State} {d : ByteString} {q : Nat} (h : StandsWith s d q)
    (hd : d.length = 16 * q + 16) : pend s = inputChunk d q := by
  have full : s.bufn.toNat = 16 := by rw [h.bufn]; omega
  rw [inputChunk, slice_to_end _ _ _ (by omega), ← h.pending, full]
  rfl

/-- `CHUNKS` counts the chunks closed, modulo 16 (R170). -/
theorem closeChunk_chunks (s : State) : s.closeChunk.chunks.toNat = (s.chunks.toNat + 1) % 16 := by
  rcases closeChunk_cases s with ⟨-, hc⟩ | ⟨h15, hc⟩ <;> rw [hc, State.shiftBuf_chunks]
  · rw [State.closeInterior_chunks, BitVec.toNat_add]
    rfl
  · rw [State.closeBlock_chunks, h15]
    rfl

/-- The running values after a chunk is closed: one chunk further, or those of a fresh block (R170). -/
theorem StandsWith.closeChunk_running {s : State} {d : ByteString} {q : Nat} (h : StandsWith s d q)
    (hd : d.length = 16 * q + 16) :
    s.closeChunk.running = runningOf s.key d (16 * ((q + 1) / 16)) ((q + 1) % 16) := by
  have chunks := h.chunks
  rcases closeChunk_cases s with ⟨hlt, hc⟩ | ⟨h15, hc⟩
  · rw [show (q + 1) / 16 = q / 16 by omega, show (q + 1) % 16 = q % 16 + 1 by omega, runningOf_succ, ← h.running,
      ← chunks, show 16 * (q / 16) + s.chunks.toNat = q by omega, ← h.pend_eq hd, hc]
    simp [State.running]
  · rw [show (q + 1) % 16 = 0 by omega, hc]
    simp [State.running, runningOf, Running.start]

/-- The accumulators after a chunk is closed: those of before, or with the block it fills folded in (R170). -/
theorem StandsWith.closeChunk_folded {s : State} {d : ByteString} {q : Nat} (h : StandsWith s d q)
    (hd : d.length = 16 * q + 16) :
    (s.closeChunk.acc0, s.closeChunk.acc1) =
      (closedBlocks d ((q + 1) / 16)).foldl (foldBlock s.key s.sseed) accStart := by
  have chunks := h.chunks
  rcases closeChunk_cases s with ⟨hlt, hc⟩ | ⟨h15, hc⟩
  · rw [show (q + 1) / 16 = q / 16 by omega, ← h.folded, hc]
    simp
  · have running := h.running
    rw [show q % 16 = 15 by omega] at running
    rw [show (q + 1) / 16 = q / 16 + 1 by omega, foldl_closedBlocks_succ, ← h.folded, ← running,
      show 16 * (q / 16) + 15 = q by omega, ← h.pend_eq hd, hc]
    simp [h15]

theorem bytesAt_writeBytes_self {m : Memory} (hm : m.wf = true) {a : Nat} {bs : ByteString} (h : a + bs.length ≤ 32) :
    (m.writeBytes a bs).bytesAt a bs.length = bs := by
  refine List.ext_getElem (by simp) fun i hi _ => ?_
  rw [Memory.bytesAt_length] at hi
  simp [Memory.bytesAt, Memory.read_writeBytes hm h, hi]

/-- `PREV` after a chunk is closed is that chunk (R170). -/
theorem closeChunk_previous {s : State} (hw : s.buf.wf = true) : s.closeChunk.buf.bytesAt 0 16 = pend s := by
  obtain ⟨-, -, -, -, -, -, -, -, -, -, fbuf, -⟩ := closeChunk_frame s
  rw [fbuf, ← pend_length s]
  exact bytesAt_writeBytes_self hw (by rw [pend_length]; omega)

/-- `close_chunk` on a full `PEND` closes one chunk more (R170). -/
theorem StandsWith.closeChunk {s : State} {d : ByteString} {q : Nat} (h : StandsWith s d q) (hw : s.buf.wf = true)
    (hd : d.length = 16 * q + 16) : StandsWith s.closeChunk d (q + 1) := by
  obtain ⟨fk, -, -, -, fe, fb, -, -, -, -, -, fn⟩ := closeChunk_frame s
  have nothingPending : d.length - 16 * (q + 1) = 0 := by omega
  exact
    { length := by rw [fb, h.length]
      bufn := by rw [fn, nothingPending]; rfl
      chunks := by rw [closeChunk_chunks, h.chunks]; omega
      pending := by rw [fn, List.drop_of_length_le (by omega)]; rfl
      previous := fun _ => by rw [closeChunk_previous hw, Nat.add_sub_cancel, h.pend_eq hd]
      folded := by rw [fk, fe, h.closeChunk_folded hd]
      running := by rw [fk, h.closeChunk_running hd] }

/-! ### One byte -/

theorem Represents.bufn_le {s : State} {d : ByteString} (h : Represents s d) : s.bufn.toNat ≤ 16 := by
  rw [h.bufn]
  unfold closedChunks
  omega

/-- After step 1 of `absorb_byte` every full chunk is closed (R169). -/
theorem Represents.makeRoom {s : State} {d : ByteString} (h : Represents s d) (hw : s.buf.wf = true) :
    StandsWith s.makeRoom d (d.length / 16) := by
  have stands := represents_iff.1 h
  have bufn := stands.bufn
  rcases makeRoom_cases s with ⟨h16, hm⟩ | ⟨hne, hm⟩ <;> rw [hm]
  · have h16 : s.bufn.toNat = 16 := by rw [h16]; rfl
    rw [show d.length / 16 = closedChunks d.length + 1 by unfold closedChunks at *; omega]
    exact stands.closeChunk hw (by unfold closedChunks at *; omega)
  · have hne : s.bufn.toNat ≠ 16 := fun e => hne (BitVec.eq_of_toNat_eq e)
    rwa [show d.length / 16 = closedChunks d.length by unfold closedChunks at *; omega]

theorem absorbed_buf (s : State) (b : Byte) :
    (s.absorbed b).buf = s.makeRoom.buf.write (16 + s.makeRoom.bufn.toNat) b := rfl

theorem absorbed_bytes {s : State} (h : s.bytes.toNat + 1 < 2 ^ 64) (b : Byte) :
    (s.absorbed b).bytes.toNat = s.bytes.toNat + 1 := by
  obtain ⟨-, -, -, -, -, fb, -⟩ := absorbed_frame s b
  rw [fb]
  exact BitVec.toNat_add_of_lt h

/-- `absorb_byte` makes a sink that stands for `d` stand for `d ∥ b` (R169). -/
theorem Represents.absorbed {s : State} {d : ByteString} (h : Represents s d) (hw : s.buf.wf = true)
    (hd : d.length + 1 < 2 ^ 64) (b : Byte) : Represents (s.absorbed b) (d ++ [b]) := by
  have room := h.makeRoom hw
  have bufn := absorbed_bufn h.bufn_le b
  have mbufn := room.bufn
  have outside : ∀ a n, a + n ≤ 16 + s.makeRoom.bufn.toNat →
      (s.absorbed b).buf.bytesAt a n = s.makeRoom.buf.bytesAt a n := fun a n hlt =>
    Memory.bytesAt_congr fun k hk => Memory.read_write_of_ne _ b (by rw [pendAddr_eq]; omega)
  have written : (s.absorbed b).buf.bytesAt (16 + s.makeRoom.bufn.toNat) 1 = [b] := by
    rw [absorbed_buf, Memory.bytesAt]
    simp [Memory.read_write_self (makeRoom_wf hw)]
  rw [represents_iff, List.length_append, List.length_singleton, closedChunks_succ]
  exact
    { length := by
        rw [List.length_append, List.length_singleton, ← h.length]
        exact absorbed_bytes (by rwa [h.length]) b
      bufn := by rw [bufn, mbufn, List.length_append, List.length_singleton]; omega
      chunks := room.chunks
      pending := by
        rw [bufn, Memory.bytesAt_add, outside _ _ (by omega), room.pending, written,
          List.drop_append_of_le_length (by omega)]
      previous := fun hq => by
        rw [outside _ _ (by omega), room.previous hq, inputChunk_append _ _ (by omega)]
      folded := by
        rw [closedBlocks_append _ _ (by omega)]
        exact room.folded
      running := by
        rw [runningOf_append _ _ _ (by omega)]
        exact room.running }

/-! ### The commands -/

/-- Absorbing a byte string makes a sink that stands for `d` stand for `d ∥ data` (R171). -/
theorem Represents.absorb (data : ByteString) {s : State} {d : ByteString} (h : Represents s d)
    (hw : s.buf.wf = true) (hd : d.length + data.length < 2 ^ 64) :
    ∃ t, absorb data s = .ok t ∧ Represents t (d ++ data) := by
  induction data generalizing s d with
  | nil => exact ⟨s, rfl, by rwa [List.append_nil]⟩
  | cons b bs ih =>
    rw [List.length_cons] at hd
    rw [absorb_cons h.bufn_le, List.append_cons]
    exact ih (h.absorbed hw (by omega) b) (absorbed_wf hw h.bufn_le b) (by simp; omega)

/-- SINIT.x leaves a sink that stands for the empty input (R166). -/
theorem represents_initSink (s : State) (m : SinkMode) (seed : Word) : Represents ((s.initSink m seed).ok 0 0) [] :=
  ⟨rfl, rfl, rfl, rfl, fun h => absurd h (by decide), rfl, rfl⟩

/-- The response to SUPD and the new state word change nothing of what the sink stands for (R171). -/
theorem Represents.ok_afterUpdate {s : State} {d : ByteString} (h : Represents s d) (len : Nat) :
    Represents ((s.afterUpdate len).ok 0 0) d :=
  ⟨h.length, h.bufn, h.chunks, h.pending, h.previous, h.folded, h.running⟩

/-- SUPD in an open sink whose count does not overflow, where its bytes are absorbed (R171). -/
theorem execSupd_absorbs {data : ByteString} {s u : State} (hs : s.sstate = .empty ∨ s.sstate = .accumulating)
    (hlen : s.bytes.toNat + data.length < 2 ^ 64) (hu : absorb data s = .ok u) :
    execSupd data s = .next ((u.afterUpdate data.length).ok 0 0) := by
  have notUninit : s.sstate ≠ .uninit := by rcases hs with h | h <;> simp [h]
  have notDone : s.sstate ≠ .done := by rcases hs with h | h <;> simp [h]
  rw [execSupd, if_neg notUninit, if_neg notDone, if_neg (by omega), hu]

theorem exec_sinitOf (m : SinkMode) (seed : Word) (s : State) : exec (sinitOf m seed) s = sinit m seed s := by
  cases m <;> rfl

/-- SUPD outside a stream (R177). -/
theorem execSupd_closed {s : State} (hs : s.sstate = .uninit ∨ s.sstate = .done) (data : ByteString) :
    execSupd data s = .next (s.raise .sinkState) := by
  rcases hs with hs | hs <;> simp [execSupd, hs]

/-- SUPD in an open sink whose count would overflow (R171). -/
theorem execSupd_overflows {s : State} {data : ByteString} (hs : s.sstate = .empty ∨ s.sstate = .accumulating)
    (hlen : 2 ^ 64 ≤ s.bytes.toNat + data.length) : execSupd data s = .next (s.raise .lengthOverflow) := by
  rcases execSupd_spec data s with ⟨closed, -⟩ | ⟨-, -, hx⟩ | ⟨-, fits, -⟩
  · rcases hs with hs | hs <;> simp [hs] at closed
  · exact hx
  · omega

/-- Settles O47: SINIT.x by its one equation, SUPD by absorbing byte after byte. -/
theorem sinkStandsForTheBytesTaken : Obligations.SinkStandsForTheBytesTaken := by
  unfold Obligations.SinkStandsForTheBytesTaken
  constructor
  · intro s m seed hk
    exact ⟨_, by rw [exec_sinitOf, sinit, if_pos hk], represents_initSink s m seed⟩
  · intro s d data hs hw h hd
    obtain ⟨u, hu, hr⟩ := h.absorb data hw hd
    exact ⟨_, execSupd_absorbs hs (by rw [h.length]; omega) hu, hr.ok_afterUpdate _⟩

end Sys2Proof.Safety

end

section
/-! PROOFS. What a command and a step can do, and which registers it leaves (R13, R15, R17, R25). -/

namespace Sys2Proof.Safety

open Sys2Proof Sys2Proof.Machine

/-! ### Absorbing, with no premise on `BUFN` -/

/-- Absorbing answers a state only with at most 16 bytes pending, or with nothing to absorb (R45, log 7). -/
theorem absorb_ok_cases {data : ByteString} {s t : State} (h : absorb data s = .ok t) :
    t = s ∨ s.bufn.toNat ≤ 16 := by
  by_cases hn : s.bufn.toNat ≤ 16
  · exact .inr hn
  cases data with
  | nil => exact .inl (Except.ok.inj h).symm
  | cons b bs =>
    have noRoom : s.makeRoom = s := if_neg fun h16 => hn (by rw [h16]; decide)
    have outside : ¬ 16 + s.bufn.toNat < 32 := by omega
    simp [absorb, absorbByte, noRoom, writeBuf, pendAddr_eq, outside] at h

/-- What absorbing leaves alone, wherever it answers a state (R171). -/
theorem absorb_frame {data : ByteString} {s t : State} (h : absorb data s = .ok t) :
    t.key = s.key ∧ t.keyValid = s.keyValid ∧ t.smode = s.smode ∧ t.sseed = s.sseed ∧ t.fault = s.fault ∧
      t.fcause = s.fcause := by
  rcases absorb_ok_cases h with rfl | hn
  · exact ⟨rfl, rfl, rfl, rfl, rfl, rfl⟩
  · obtain ⟨u, hu, -, -, hk, hv, -, hm, he, hf, hc, -⟩ := absorb_spec data hn
    obtain rfl : u = t := Except.ok.inj (hu.symm.trans h)
    exact ⟨hk, hv, hm, he, hf, hc⟩

/-! ### What a command can do -/

/-- The next states a command can leave a state `s` in. -/
inductive ExecTo (s : State) : Instr → State → Prop
  /-- A fault is taken (R196). -/
  | raised (i : Instr) (c : Cause) : ExecTo s i (s.raise c)
  /-- An answer that writes no register (R154 to R157). -/
  | answered (i : Instr) (r0 r1 : Word) : ExecTo s i (s.ok r0 r1)
  /-- KEYLD outside a stream (R153). -/
  | keyLoaded (image : Key) (closed : s.sstate = .uninit ∨ s.sstate = .done) :
      ExecTo s (.keyld image) ((s.loadKey image).ok 0 0)
  /-- SINIT.x with a key (R166). -/
  | sinkOpened (m : SinkMode) (seed : Word) (keyed : s.keyValid = true) :
      ExecTo s (sinitOf m seed) ((s.initSink m seed).ok 0 0)
  /-- SUPD in a stream (R171). -/
  | bytesTaken (data : ByteString) (t : State) (stream : s.sstate = .empty ∨ s.sstate = .accumulating)
      (fits : s.bytes.toNat + data.length < 2 ^ 64) (taken : absorb data s = .ok t) :
      ExecTo s (.supd data) ((t.afterUpdate data.length).ok 0 0)
  /-- SDIG after SINIT.x (R173). -/
  | digested (r0 r1 : Word) (started : s.sstate ≠ .uninit) : ExecTo s .sdig (s.finish.ok r0 r1)

theorem ExecTo.of_batch {i : Instr} {s t : State} {r : Word × Word} (h : batch s r = .next t) : ExecTo s i t := by
  rcases batch_spec s r with ⟨-, hb⟩ | ⟨-, hb⟩ <;> obtain rfl := Host.Outcome.next.inj (hb.symm.trans h)
  · exact .answered i _ _
  · exact .raised i _

theorem ExecTo.of_sinit {m : SinkMode} {seed : Word} {s t : State} (h : sinit m seed s = .next t) :
    ExecTo s (sinitOf m seed) t := by
  rcases sinit_spec m seed s with ⟨hk, hs⟩ | ⟨-, hs⟩ <;> obtain rfl := Host.Outcome.next.inj (hs.symm.trans h)
  · exact .sinkOpened m seed hk
  · exact .raised _ _

/-- Everything a command can do where it answers a next state (R150 step 5). -/
theorem exec_cases {i : Instr} {s t : State} (h : exec i s = .next t) : ExecTo s i t := by
  cases i with
  | keyld image =>
    rcases execKeyld_spec image s with ⟨-, hx⟩ | ⟨hc, hx⟩ <;> obtain rfl := Host.Outcome.next.inj (hx.symm.trans h)
    · exact .raised _ _
    · exact .keyLoaded image hc
  | hashP seed data => exact .of_batch h
  | hashS seed data => exact .of_batch h
  | fprint seed data => exact .of_batch h
  | sinitP seed => exact .of_sinit (m := .primary) h
  | sinitS seed => exact .of_sinit (m := .secondary) h
  | sinitF seed => exact .of_sinit (m := .both) h
  | supd data =>
    change execSupd data s = .next t at h
    rcases execSupd_spec data s with ⟨-, hx⟩ | ⟨-, -, hx⟩ | ⟨hs, hlen, ⟨u, hu, hx⟩ | ⟨f, -, hx⟩⟩ <;> rw [hx] at h
    · exact Host.Outcome.next.inj h ▸ .raised _ _
    · exact Host.Outcome.next.inj h ▸ .raised _ _
    · exact Host.Outcome.next.inj h ▸ .bytesTaken data u hs hlen hu
    · cases h
  | sdig =>
    change execSdig s = .next t at h
    rcases execSdig_spec s with ⟨-, hx⟩ | ⟨hs, ⟨v, -, hx⟩ | ⟨f, -, hx⟩⟩ <;> rw [hx] at h
    · exact Host.Outcome.next.inj h ▸ .raised _ _
    · exact Host.Outcome.next.inj h ▸ .digested _ _ hs
    · cases h
  | regrd reg =>
    rcases execRegrd_spec reg s with ⟨-, hx⟩ | ⟨-, -, -, hx⟩ | ⟨-, hx⟩ <;>
      obtain rfl := Host.Outcome.next.inj (hx.symm.trans h)
    · exact .raised _ _
    · exact .raised _ _
    · exact .answered _ _ _

/-- Settles O55, by the cases of what a command can do. -/
theorem keySeedAndModeAreImmutableInAStream : Obligations.KeySeedAndModeAreImmutableInAStream := by
  unfold Obligations.KeySeedAndModeAreImmutableInAStream
  intro i s t h
  cases exec_cases h with
  | raised _ c => exact ⟨fun _ => ⟨rfl, rfl⟩, fun _ => rfl, id, fun _ => ⟨rfl, rfl⟩, fun hf => ⟨rfl, by simp [hf]⟩⟩
  | answered _ r0 r1 => exact ⟨fun _ => ⟨rfl, rfl⟩, fun _ => rfl, id, fun _ => ⟨rfl, rfl⟩, fun hf => ⟨hf, rfl⟩⟩
  | keyLoaded image closed =>
    refine ⟨fun hne => absurd rfl (hne image), fun hs => ?_, fun _ => rfl, fun _ => ⟨rfl, rfl⟩, fun hf => ⟨hf, rfl⟩⟩
    rcases closed with hc | hc <;> simp [hc] at hs
  | sinkOpened m seed keyed =>
    exact ⟨fun _ => ⟨rfl, rfl⟩, fun _ => rfl, id, fun hne => absurd rfl (hne m seed), fun hf => ⟨hf, rfl⟩⟩
  | bytesTaken data u stream fits taken =>
    obtain ⟨hk, hv, hm, he, hf, hc⟩ := absorb_frame taken
    exact ⟨fun _ => ⟨hk, hv⟩, fun _ => hk, hv.trans, fun _ => ⟨he, hm⟩, fun ht => ⟨hf.trans ht, hc⟩⟩
  | digested r0 r1 started => exact ⟨fun _ => ⟨rfl, rfl⟩, fun _ => rfl, id, fun _ => ⟨rfl, rfl⟩, fun hf => ⟨hf, rfl⟩⟩

/-! ### What a step can do -/

/-- The next states a step can leave a state `s` in (R150, R205, R220). -/
inductive StepTo (s : State) : State → Prop
  /-- With nothing sent the block waits (R205). -/
  | waited : StepTo s s
  /-- The reset input (R220). -/
  | wasReset (rest : List HostEvent) : StepTo s (s.withInput rest).applyReset
  /-- A faulted block answers and changes no register (R197). -/
  | refused (rest : List HostEvent) (code : BitVec 8) (r0 r1 : Word) : StepTo s ((s.withInput rest).respond code r0 r1)
  /-- A transaction that carries no command raises its cause (R150 steps 2 and 3). -/
  | rejected (rest : List HostEvent) (c : Cause) : StepTo s ((s.withInput rest).raise c)
  /-- A transaction that carries a command is that command (R150 step 5). -/
  | executed (rest : List HostEvent) (i : Instr) (t : State) (run : exec i (s.withInput rest) = .next t) : StepTo s t

theorem transact_faulted {s : State} (hf : s.fault = true) (t : Transaction) :
    transact t s = .next (answerFaulted t s) := if_pos hf

theorem transact_ok {s : State} (hf : s.fault = false) {t : Transaction} {i : Instr} (hd : decode t = .ok i) :
    transact t s = exec i s := by
  simp [transact, hf, hd]

theorem transact_error {s : State} (hf : s.fault = false) {t : Transaction} {r : Reject} (hd : decode t = .error r) :
    transact t s = .next (s.raise (rejectCause r)) := by
  simp [transact, hf, hd]

theorem step_nil {s : State} (h : s.input = []) : step s = .next s := by
  simp [step, advance, h]

theorem step_cons {s : State} {e : HostEvent} {rest : List HostEvent} (h : s.input = e :: rest) :
    step s = takeEvent e (s.withInput rest) := by
  simp [step, advance, h]

/-- Everything a step can do where it answers a next state. -/
theorem step_cases {s t : State} (h : step s = .next t) : StepTo s t := by
  cases hin : s.input with
  | nil =>
    rw [step_nil hin] at h
    exact Host.Outcome.next.inj h ▸ .waited
  | cons e rest =>
    rw [step_cons hin] at h
    cases e with
    | reset abandoned => exact Host.Outcome.next.inj h ▸ .wasReset rest
    | transaction tr =>
      change transact tr (s.withInput rest) = .next t at h
      cases hf : (s.withInput rest).fault with
      | true =>
        rw [transact_faulted hf, answerFaulted] at h
        split at h
        · exact Host.Outcome.next.inj h ▸ .refused rest _ _ _
        · exact Host.Outcome.next.inj h ▸ .refused rest _ _ _
      | false =>
        cases hd : decode tr with
        | ok i => exact .executed rest i t (by rw [← h, transact_ok hf hd])
        | error r =>
          rw [transact_error hf hd] at h
          exact Host.Outcome.next.inj h ▸ .rejected rest _

end Sys2Proof.Safety

end

section
/-! PROOFS. The invariant: it holds after reset and every step keeps it (R24, R25). -/

namespace Sys2Proof.Safety

open Sys2Proof Sys2Proof.Machine

/-! ### The position and accumulator invariants, apart from the state word -/

/-- The part of `SinkInv` that holds after every byte absorbed: it speaks of the position counters and the accumulators
and not of `SSTATE`, which SUPD writes last (R24 (a), (b), (e); R18 to R20; R22). -/
structure CountInv (s : State) : Prop where
  bufnLe : s.bufn.toNat ≤ 16
  count : s.bytes.toNat % 256 = (16 * s.chunks.toNat + s.bufn.toNat) % 256
  bufnZero : s.bufn = 0 ↔ s.bytes = 0
  nothingClosed : s.bytes.toNat ≤ 16 → s.chunks = 0 ∧ s.acc0 = params.accInit ∧ s.acc1 = params.accInit
  accRange : s.acc0.toNat < Config.ring ∧ s.acc1.toNat < Config.ring
  freshBlock : s.chunks = 0 → s.ohacc0 = 0 ∧ s.ohacc1 = 0 ∧ s.lrc = 0

theorem sinkInv_iff {s : State} :
    SinkInv s ↔ s.keyValid = true ∧ (s.sstate = .empty → s.bytes = 0) ∧
      (s.sstate = .accumulating → 1 ≤ s.bytes.toNat) ∧ CountInv s :=
  ⟨fun ⟨hk, hn, hc, hz, he, ha, h0, hr, hf⟩ => ⟨hk, he, ha, hn, hc, hz, h0, hr, hf⟩,
    fun ⟨hk, he, ha, hn, hc, hz, h0, hr, hf⟩ => ⟨hk, hn, hc, hz, he, ha, h0, hr, hf⟩⟩

/-- With at most 16 bytes taken, all of them are pending (R24 (a), (e)). -/
theorem CountInv.bufn_eq_bytes {s : State} (h : CountInv s) (hb : s.bytes.toNat ≤ 16) :
    s.bufn.toNat = s.bytes.toNat := by
  have count := h.count
  have bufnLe := h.bufnLe
  rw [(h.nothingClosed hb).1] at count
  change s.bytes.toNat % 256 = (16 * 0 + s.bufn.toNat) % 256 at count
  omega

/-- A state that has not filled `PEND` has nothing to close (R169 step 1). -/
theorem makeRoom_of_bufn_lt {s : State} (h : s.bufn.toNat < 16) : s.makeRoom = s :=
  if_neg fun h16 => by rw [h16] at h; exact absurd h (by decide)

theorem hornerStep_lt_ring (k : Key) (w : Nat) (acc : Word) (y : DWord) :
    (hornerStep k w acc y).toNat < Config.ring := by
  rw [hornerStep, horner2, BitVec.toNat_ofNat]
  exact Nat.lt_of_le_of_lt (Nat.mod_le _ _) (Nat.mod_lt _ (by decide))

/-- Making room keeps the accumulators reduced (R18). -/
theorem makeRoom_accRange {s : State} (h : s.acc0.toNat < Config.ring ∧ s.acc1.toNat < Config.ring) :
    s.makeRoom.acc0.toNat < Config.ring ∧ s.makeRoom.acc1.toNat < Config.ring := by
  rcases makeRoom_cases s with ⟨-, hm⟩ | ⟨-, hm⟩ <;> rw [hm]
  · rcases closeChunk_cases s with ⟨-, hc⟩ | ⟨-, hc⟩ <;> rw [hc]
    · simpa using h
    · simp [hornerStep_lt_ring]
  · exact h

/-- Making room leaves a fresh block with the running values 0 (R19, R20). -/
theorem makeRoom_freshBlock {s : State} (h : s.chunks = 0 → s.ohacc0 = 0 ∧ s.ohacc1 = 0 ∧ s.lrc = 0) :
    s.makeRoom.chunks = 0 → s.makeRoom.ohacc0 = 0 ∧ s.makeRoom.ohacc1 = 0 ∧ s.makeRoom.lrc = 0 := by
  rcases makeRoom_cases s with ⟨-, hm⟩ | ⟨-, hm⟩ <;> rw [hm]
  · intro fresh
    rcases closeChunk_cases s with ⟨hlt, hc⟩ | ⟨-, hc⟩
    · have next := closeChunk_chunks s
      rw [fresh] at next
      change 0 = _ at next
      omega
    · simp [hc]
  · exact h

/-- Making room keeps 16 · CHUNKS + BUFN modulo 256 (R170, R24 (a)). -/
theorem makeRoom_count (s : State) :
    (16 * s.makeRoom.chunks.toNat + s.makeRoom.bufn.toNat) % 256 = (16 * s.chunks.toNat + s.bufn.toNat) % 256 := by
  rcases makeRoom_cases s with ⟨h16, hm⟩ | ⟨-, hm⟩ <;> rw [hm]
  have next := closeChunk_chunks s
  obtain ⟨-, -, -, -, -, -, -, -, -, -, -, fn⟩ := closeChunk_frame s
  rw [fn, h16, next]
  change (16 * ((s.chunks.toNat + 1) % 16) + 0) % 256 = (16 * s.chunks.toNat + 16) % 256
  omega

/-- `absorb_byte` keeps the position and accumulator invariants where `BYTES` does not overflow (R169, R24). -/
theorem CountInv.absorbed {s : State} (h : CountInv s) (hb : s.bytes.toNat + 1 < 2 ^ 64) (b : Byte) :
    CountInv (s.absorbed b) := by
  have bufn := absorbed_bufn h.bufnLe b
  have bytes := absorbed_bytes hb b
  have room := makeRoom_count s
  have count := h.count
  have chunks : (s.absorbed b).chunks = s.makeRoom.chunks := rfl
  exact
    { bufnLe := absorbed_bufn_le h.bufnLe b
      count := by
        rw [bufn, bytes, chunks]
        omega
      bufnZero := by
        constructor <;> intro h0 <;> simp [h0] at bufn bytes
      nothingClosed := fun hle => by
        have few := h.bufn_eq_bytes (by omega)
        have kept := makeRoom_of_bufn_lt (s := s) (by omega)
        show s.makeRoom.chunks = 0 ∧ s.makeRoom.acc0 = _ ∧ s.makeRoom.acc1 = _
        rw [kept]
        exact h.nothingClosed (by omega)
      accRange := makeRoom_accRange h.accRange
      freshBlock := makeRoom_freshBlock h.freshBlock }

/-- Absorbing keeps the position and accumulator invariants where `BYTES` does not overflow, and counts the bytes
(R171, R24). -/
theorem CountInv.absorb (data : ByteString) {s t : State} (h : CountInv s)
    (hb : s.bytes.toNat + data.length < 2 ^ 64) (ht : absorb data s = .ok t) :
    CountInv t ∧ t.bytes.toNat = s.bytes.toNat + data.length := by
  induction data generalizing s with
  | nil => exact Except.ok.inj ht ▸ ⟨h, rfl⟩
  | cons b bs ih =>
    rw [List.length_cons] at hb ⊢
    rw [absorb_cons h.bufnLe] at ht
    have bytes := absorbed_bytes (s := s) (by omega) b
    obtain ⟨hc, hn⟩ := ih (h.absorbed (by omega) b) (by omega) ht
    exact ⟨hc, by omega⟩

/-! ### What keeps the invariant -/

/-- The invariant speaks of the registers, not of the channels. -/
theorem inv_registers {s : State} : Inv (registers s) ↔ Inv s := by
  have sink : SinkInv (registers s) ↔ SinkInv s := by
    rw [sinkInv_iff, sinkInv_iff]
    exact ⟨fun ⟨hk, he, ha, hn, hc, hz, h0, hr, hf⟩ => ⟨hk, he, ha, hn, hc, hz, h0, hr, hf⟩,
      fun ⟨hk, he, ha, hn, hc, hz, h0, hr, hf⟩ => ⟨hk, he, ha, hn, hc, hz, h0, hr, hf⟩⟩
  exact ⟨fun ⟨hw, hn, hc, hs⟩ => ⟨hw, hn, hc, fun h => sink.1 (hs h)⟩,
    fun ⟨hw, hn, hc, hs⟩ => ⟨hw, hn, hc, fun h => sink.2 (hs h)⟩⟩

theorem Inv.of_registers_eq {s t : State} (h : Inv s) (he : registers t = registers s) : Inv t := by
  rwa [← inv_registers, he, inv_registers]

theorem Inv.withInput {s : State} (h : Inv s) (events : List HostEvent) : Inv (s.withInput events) :=
  h.of_registers_eq rfl

theorem Inv.respond {s : State} (h : Inv s) (code : BitVec 8) (r0 r1 : Word) : Inv (s.respond code r0 r1) :=
  h.of_registers_eq rfl

/-- The state word may change, and the registers of the sink with it, as long as the sink invariants hold. -/
theorem Inv.of_sink {s t : State} (h : Inv s) (hw : t.buf.wf = true) (hf : t.fault = s.fault)
    (hc : t.fcause = s.fcause) (hs : t.sstate ≠ .uninit → SinkInv t) : Inv t :=
  ⟨hw, by rw [hf, hc]; exact h.noCause, by rw [hf, hc]; exact h.someCause, hs⟩

theorem cause_code_range (c : Cause) : 1 ≤ c.code.toNat ∧ c.code.toNat ≤ 6 := by cases c <;> decide

/-- Fault entry records a cause, the first (R196). -/
theorem Inv.raise {s : State} (h : Inv s) (c : Cause) : Inv (s.raise c) where
  bufWf := h.bufWf
  noCause := (nomatch ·)
  someCause _ := by
    rw [State.raise_fcause]
    split
    · next hf => exact h.someCause hf
    · exact cause_code_range c
  sink hs :=
    have ⟨hk, hn, hc, hz, he, ha, h0, hr, hf⟩ := h.sink hs
    ⟨hk, hn, hc, hz, he, ha, h0, hr, hf⟩

/-- Settles O56: after reset the sink is not initialised, so only the memory and the cause are at stake. -/
theorem invariantHoldsAfterReset : Obligations.InvariantHoldsAfterReset := by
  unfold Obligations.InvariantHoldsAfterReset
  exact ⟨rfl, fun _ => rfl, (nomatch ·), (absurd rfl ·)⟩

/-- KEYLD outside a stream leaves the sink not initialised (R153). -/
theorem Inv.loadKey {s : State} (h : Inv s) (image : Key) (hs : s.sstate = .uninit ∨ s.sstate = .done) :
    Inv (s.loadKey image) :=
  h.of_sink h.bufWf rfl rfl fun hne => absurd (by rcases hs with hs | hs <;> simp [hs]) hne

theorem countInv_initSink (s : State) (m : SinkMode) (seed : Word) : CountInv (s.initSink m seed) where
  bufnLe := by simp
  count := by simp
  bufnZero := by simp
  nothingClosed := by simp
  accRange := by simp; decide
  freshBlock := by simp

/-- SINIT.x with a key opens an empty stream (R166). -/
theorem Inv.initSink {s : State} (h : Inv s) (m : SinkMode) (seed : Word) (hk : s.keyValid = true) :
    Inv (s.initSink m seed) :=
  h.of_sink h.bufWf rfl rfl fun _ =>
    sinkInv_iff.2 ⟨hk, fun _ => rfl, (nomatch ·), countInv_initSink s m seed⟩

/-- SUPD in a stream counts its bytes before it writes the state word (R171). -/
theorem Inv.absorb {s t : State} (h : Inv s) {data : ByteString} (hs : s.sstate = .empty ∨ s.sstate = .accumulating)
    (hb : s.bytes.toNat + data.length < 2 ^ 64) (ht : absorb data s = .ok t) : Inv (t.afterUpdate data.length) := by
  have started : s.sstate ≠ .uninit := by rcases hs with hs | hs <;> simp [hs]
  obtain ⟨keyed, emptyBytes, accumulatingBytes, counts⟩ := sinkInv_iff.1 (h.sink started)
  obtain ⟨u, hu, -, -, -, hv, hss, -, -, hf, hc, -, -, hw⟩ := absorb_spec data counts.bufnLe
  obtain rfl : u = t := Except.ok.inj (hu.symm.trans ht)
  obtain ⟨⟨hn, hc', hz, h0, hr, hf'⟩, bytes⟩ := counts.absorb data hb hu
  have countsKept : CountInv (u.afterUpdate data.length) := ⟨hn, hc', hz, h0, hr, hf'⟩
  refine h.of_sink (hw h.bufWf) hf hc fun _ => sinkInv_iff.2 ?_
  by_cases some : 1 ≤ data.length
  · have sstate : (u.afterUpdate data.length).sstate = .accumulating := if_pos some
    refine ⟨hv.trans keyed, fun he => ?_, fun _ => ?_, countsKept⟩
    · rw [sstate] at he
      cases he
    · rw [State.afterUpdate_bytes]
      omega
  · have sstate : (u.afterUpdate data.length).sstate = s.sstate := (if_neg some).trans hss
    have same : u.bytes = s.bytes := BitVec.eq_of_toNat_eq (by omega)
    rw [sstate, State.afterUpdate_bytes, same]
    exact ⟨hv.trans keyed, emptyBytes, accumulatingBytes, countsKept⟩

/-- SDIG writes the state word alone (R173). -/
theorem Inv.finish {s : State} (h : Inv s) (hs : s.sstate ≠ .uninit) : Inv s.finish := by
  obtain ⟨keyed, -, -, hn, hc, hz, h0, hr, hf⟩ := sinkInv_iff.1 (h.sink hs)
  exact h.of_sink h.bufWf rfl rfl fun _ =>
    sinkInv_iff.2 ⟨keyed, (nomatch ·), (nomatch ·), hn, hc, hz, h0, hr, hf⟩

/-! ### Every step -/

/-- A command keeps the invariant, in each of the cases of what it can do. -/
theorem Inv.exec {i : Instr} {s t : State} (h : Inv s) (hx : exec i s = .next t) : Inv t := by
  cases exec_cases hx with
  | raised _ c => exact h.raise c
  | answered _ r0 r1 => exact h.respond _ _ _
  | keyLoaded image closed => exact (h.loadKey image closed).respond _ _ _
  | sinkOpened m seed keyed => exact (h.initSink m seed keyed).respond _ _ _
  | bytesTaken data u stream fits taken => exact (h.absorb stream fits taken).respond _ _ _
  | digested r0 r1 started => exact (h.finish started).respond _ _ _

/-- Settles O57, by the cases of what a step can do. -/
theorem everyStepKeepsTheInvariant : Obligations.EveryStepKeepsTheInvariant := by
  unfold Obligations.EveryStepKeepsTheInvariant
  intro s t h hs
  cases step_cases hs with
  | waited => exact h
  | wasReset rest => exact Inv.of_registers_eq invariantHoldsAfterReset rfl
  | refused rest code r0 r1 => exact (h.withInput rest).respond code r0 r1
  | rejected rest c => exact (h.withInput rest).raise c
  | executed rest i _ run => exact (h.withInput rest).exec run

end Sys2Proof.Safety

end

section
/-! PROOFS. Agreeing on everything that holds a value is having the same `visible` (R33). -/

namespace Sys2Proof.Machine

/-! ### A memory with some addresses left out, a state with another memory -/

theorem Memory.read_filter (p : Nat → Bool) (m : Memory) (a : Nat) :
    Memory.read (m.filter fun c => p c.1) a = if p a then m.read a else unwrittenByte := by
  induction m with
  | nil => simp
  | cons c m ih =>
    obtain ⟨x, v⟩ := c
    by_cases hx : x = a
    · subst hx
      cases hp : p x <;> simp [hp, ih, Memory.read_cons]
    · cases hp : p x <;> simp [hp, ih, Memory.read_cons, hx]

theorem Memory.wfFrom_filter (p : Nat → Bool) {m : Memory} {lo : Nat} (h : m.wfFrom lo = true) :
    Memory.wfFrom lo (m.filter fun c => p c.1) = true := by
  induction m generalizing lo with
  | nil => rfl
  | cons c m ih =>
    obtain ⟨x, v⟩ := c
    obtain ⟨hlo, hx, hv, hm⟩ := (Memory.wfFrom_cons lo x v m).1 h
    cases hp : p x
    · simpa [hp] using ih (Memory.wfFrom_mono (by omega) hm)
    · simpa [hp, Memory.wfFrom_cons] using ⟨hlo, hx, hv, ih hm⟩

/-- The state with another memory. -/
def State.withBuf (s : State) (m : Memory) : State := { s with buf := m }

end Sys2Proof.Machine

namespace Sys2Proof.Safety

open Sys2Proof Sys2Proof.Machine

/-! ### Agreeing on what holds a value -/

/-- The sink registers apart from `BUF`. -/
def sinkWords (s : State) : Word × Word × Word × DWord × DWord × DWord × BitVec 4 × BitVec 5 × Word :=
  (s.sseed, s.acc0, s.acc1, s.ohacc0, s.ohacc1, s.lrc, s.chunks, s.bufn, s.bytes)

/-- A memory reads as `BUF` does at every address that holds a value (R33). -/
def SameBytes (s : State) (m : Memory) : Prop := ∀ a, byteHasValue s a = true → m.read a = s.buf.read a

/-- Two states agree on everything that holds a value (R33): what `visible` says, register by register. -/
structure Agree (s t : State) : Prop where
  keyValid : t.keyValid = s.keyValid
  sstate : t.sstate = s.sstate
  smode : t.smode = s.smode
  fault : t.fault = s.fault
  fcause : t.fcause = s.fcause
  input : t.input = s.input
  output : t.output = s.output
  key : s.keyValid = true → t.key = s.key
  sink : s.sstate ≠ .uninit → sinkWords t = sinkWords s ∧ SameBytes s t.buf

theorem Agree.refl (s : State) : Agree s s :=
  ⟨rfl, rfl, rfl, rfl, rfl, rfl, rfl, fun _ => rfl, fun _ => ⟨rfl, fun _ _ => rfl⟩⟩

theorem agree_withBuf {s : State} {m : Memory} (h : SameBytes s m) : Agree s (s.withBuf m) :=
  ⟨rfl, rfl, rfl, rfl, rfl, rfl, rfl, fun _ => rfl, fun _ => ⟨rfl, h⟩⟩

/-- With a key and a stream only the memory can differ. -/
theorem Agree.eq_withBuf {s t : State} (h : Agree s t) (hk : s.keyValid = true) (hs : s.sstate ≠ .uninit) :
    ∃ m, t = s.withBuf m ∧ SameBytes s m := by
  obtain ⟨words, same⟩ := h.sink hs
  simp only [sinkWords, Prod.mk.injEq] at words
  obtain ⟨hse, h0, h1, ho0, ho1, hl, hc, hn, hb⟩ := words
  refine ⟨t.buf, ?_, same⟩
  rw [State.withBuf, ← h.key hk, ← h.keyValid, ← h.sstate, ← h.smode, ← h.fault, ← h.fcause, ← h.input, ← h.output,
    ← hse, ← h0, ← h1, ← ho0, ← ho1, ← hl, ← hc, ← hn, ← hb]

/-! ### `visible` and agreeing are the same -/

theorem visible_sstate (s : State) : (visible s).sstate = s.sstate := by
  unfold visible
  cases s.keyValid <;> by_cases hs : s.sstate = .uninit <;> simp [hs]

/-- Without a stream what can be seen is the key with its flag, the mode, the fault registers and the channels. -/
theorem visible_idle {s : State} (h : s.sstate = .uninit) :
    visible s = { State.reset with
      key := if s.keyValid then s.key else State.reset.key, keyValid := s.keyValid, smode := s.smode, fault := s.fault,
      fcause := s.fcause, input := s.input, output := s.output } := by
  unfold visible
  cases hk : s.keyValid <;> simp [h, State.reset, hk]

/-- With a key and a stream everything can be seen but the bytes that hold no value. -/
theorem visible_stream {s : State} (hk : s.keyValid = true) (hs : s.sstate ≠ .uninit) :
    visible s = s.withBuf (s.buf.filter fun c => byteHasValue s c.1) := by
  unfold visible State.withBuf
  simp [hk, hs]

theorem agree_of_visible {s t : State} (hs : Inv s) (ht : Inv t) (h : visible s = visible t) : Agree s t := by
  have sstate : t.sstate = s.sstate := by rw [← visible_sstate t, ← h, visible_sstate]
  by_cases idle : s.sstate = .uninit
  · rw [visible_idle idle, visible_idle (sstate.trans idle)] at h
    have keyValid := congrArg State.keyValid h
    have key := congrArg State.key h
    exact
      { keyValid := keyValid.symm
        sstate := sstate
        smode := (congrArg State.smode h).symm
        fault := (congrArg State.fault h).symm
        fcause := (congrArg State.fcause h).symm
        input := (congrArg State.input h).symm
        output := (congrArg State.output h).symm
        key := fun hk => by
          change s.keyValid = t.keyValid at keyValid
          simpa [hk, ← keyValid] using key.symm
        sink := fun hne => absurd idle hne }
  · have keyS := (hs.sink idle).keyed
    have keyT := (ht.sink (sstate ▸ idle)).keyed
    rw [visible_stream keyS idle, visible_stream keyT (sstate ▸ idle)] at h
    have words : sinkWords t = sinkWords s := (congrArg sinkWords h).symm
    have bufn : s.bufn = t.bufn := (congrArg State.bufn h :)
    have bytes : s.bytes = t.bytes := (congrArg State.bytes h :)
    have sameValues : ∀ a, byteHasValue t a = byteHasValue s a := fun a => by simp [byteHasValue, bufn, bytes]
    have buf : (s.buf.filter fun c => byteHasValue s c.1) = t.buf.filter fun c => byteHasValue t c.1 :=
      congrArg State.buf h
    exact
      { keyValid := keyT.trans keyS.symm
        sstate := sstate
        smode := (congrArg State.smode h).symm
        fault := (congrArg State.fault h).symm
        fcause := (congrArg State.fcause h).symm
        input := (congrArg State.input h).symm
        output := (congrArg State.output h).symm
        key := fun _ => (congrArg State.key h).symm
        sink := fun _ => ⟨words, fun a ha => by
          have := congrArg (Memory.read · a) buf
          simpa [Memory.read_filter, sameValues, ha] using this.symm⟩ }

theorem visible_of_agree {s t : State} (hs : Inv s) (ht : Inv t) (h : Agree s t) : visible s = visible t := by
  by_cases idle : s.sstate = .uninit
  · have key : (if t.keyValid then t.key else State.reset.key) = if s.keyValid then s.key else State.reset.key := by
      rw [h.keyValid]
      split
      · next hk => exact h.key hk
      · rfl
    rw [visible_idle idle, visible_idle (h.sstate.trans idle), key, h.keyValid, h.smode, h.fault, h.fcause, h.input,
      h.output]
  · have keyS := (hs.sink idle).keyed
    obtain ⟨m, rfl, same⟩ := h.eq_withBuf keyS idle
    rw [visible_stream keyS idle, visible_stream (s := s.withBuf m) keyS idle]
    show s.withBuf _ = s.withBuf (m.filter fun c => byteHasValue s c.1)
    congr 1
    refine Memory.ext_read (Memory.wfFrom_filter _ hs.bufWf) (Memory.wfFrom_filter _ ht.bufWf) fun a => ?_
    rw [Memory.read_filter, Memory.read_filter]
    split
    · next ha => exact (same a ha).symm
    · rfl

end Sys2Proof.Safety

end

section
/-! PROOFS. Noninterference: agreeing states step alike, so what holds no value is never read (R33). -/

namespace Sys2Proof.Safety

open Sys2Proof Sys2Proof.Machine

/-! ### The sink with another memory -/

/-- The bytes that hold a value (R33), by the half of `BUF` they are in. -/
theorem byteHasValue_iff {s : State} {a : Nat} :
    byteHasValue s a = true ↔ a < 16 ∧ 17 ≤ s.bytes.toNat ∨ 16 ≤ a ∧ a < 16 + s.bufn.toNat := by
  simp [byteHasValue]

/-- A full `PEND` holds a value at each of its addresses. -/
theorem SameBytes.pend_eq {s : State} {m : Memory} (h : SameBytes s m) (h16 : s.bufn = 16) :
    pend (s.withBuf m) = pend s :=
  Memory.bytesAt_congr fun k hk => h _ (byteHasValue_iff.2 (.inr ⟨by simp, by
    rw [h16]
    exact Nat.add_lt_add_left hk 16⟩))

theorem shiftBuf_withBuf {s : State} {m : Memory} (hp : pend (s.withBuf m) = pend s) :
    (s.withBuf m).shiftBuf = s.shiftBuf.withBuf (m.writeBytes 0 (pend s)) := by
  unfold State.shiftBuf
  rw [hp]
  rfl

/-- Closing a chunk reads `PEND` alone. -/
theorem closeChunk_withBuf {s : State} {m : Memory} (hp : pend (s.withBuf m) = pend s) :
    (s.withBuf m).closeChunk = s.closeChunk.withBuf (m.writeBytes 0 (pend s)) := by
  have interior : (s.withBuf m).closeInterior = s.closeInterior.withBuf m := by
    unfold State.closeInterior
    rw [hp]
    rfl
  have block : (s.withBuf m).closeBlock = s.closeBlock.withBuf m := by
    unfold State.closeBlock
    rw [hp]
    rfl
  unfold State.closeChunk
  rw [interior, block, show (s.withBuf m).chunks = s.chunks from rfl]
  split
  · exact shiftBuf_withBuf hp
  · exact shiftBuf_withBuf hp

/-- What `absorb_byte` may read after room is made: `PREV` once the byte makes 17 of them, and the bytes pending. -/
def SameAfterRoom (s : State) (m : Memory) : Prop :=
  ∀ a, a < 16 ∧ 16 ≤ s.bytes.toNat ∨ 16 ≤ a ∧ a < 16 + s.makeRoom.bufn.toNat → m.read a = s.makeRoom.buf.read a

/-- Making room on another memory: the same, on a memory that reads alike wherever there is a value. -/
theorem makeRoom_withBuf {s : State} (hi : CountInv s) (hw : s.buf.wf = true) {m : Memory} (hm : m.wf = true)
    (h : SameBytes s m) :
    ∃ m', (s.withBuf m).makeRoom = s.makeRoom.withBuf m' ∧ m'.wf = true ∧ SameAfterRoom s m' := by
  unfold SameAfterRoom
  rcases makeRoom_cases s with ⟨h16, hr⟩ | ⟨hne, hr⟩ <;> rw [hr]
  · have fits : 0 + (pend s).length ≤ 32 := by rw [pend_length]; omega
    obtain ⟨-, -, -, -, -, -, -, -, -, -, fbuf, fn⟩ := closeChunk_frame s
    refine ⟨m.writeBytes 0 (pend s), ?_, Memory.wf_writeBytes hm fits, fun a ha => ?_⟩
    · rw [← closeChunk_withBuf (h.pend_eq h16)]
      exact if_pos h16
    · rw [fbuf, Memory.read_writeBytes hm fits, Memory.read_writeBytes hw fits]
      rw [fn] at ha
      change _ ∨ 16 ≤ a ∧ a < 16 + 0 at ha
      rw [if_pos (by rw [pend_length]; omega), if_pos (by rw [pend_length]; omega)]
  · refine ⟨m, if_neg hne, hm, fun a ha => h a (byteHasValue_iff.2 ?_)⟩
    have notFull : s.bufn.toNat ≠ 16 := fun e => hne (BitVec.eq_of_toNat_eq e)
    have few : s.bytes.toNat ≤ 16 → s.bufn.toNat = s.bytes.toNat := hi.bufn_eq_bytes
    omega

/-- `absorb_byte` on another memory: the same, and the memories read alike again. -/
theorem absorbed_withBuf {s : State} (hi : CountInv s) (hb : s.bytes.toNat + 1 < 2 ^ 64) (hw : s.buf.wf = true)
    {m : Memory} (hm : m.wf = true) (h : SameBytes s m) (b : Byte) :
    ∃ m', (s.withBuf m).absorbed b = (s.absorbed b).withBuf m' ∧ m'.wf = true ∧ SameBytes (s.absorbed b) m' := by
  obtain ⟨n, room, hn, same⟩ := makeRoom_withBuf hi hw hm h
  have mbufn := makeRoom_bufn hi.bufnLe
  refine ⟨n.write (16 + s.makeRoom.bufn.toNat) b, ?_, Memory.wf_write hn (by omega) b, fun a ha => ?_⟩
  · unfold State.absorbed
    rw [room]
    rfl
  · rw [byteHasValue_iff, absorbed_bytes hb, absorbed_bufn hi.bufnLe] at ha
    rw [absorbed_buf, Memory.read_write hn, Memory.read_write (makeRoom_wf hw)]
    split
    · rfl
    · next hne => exact same a (by omega)

/-- Absorbing on another memory: the same, and the memories read alike again. -/
theorem absorb_withBuf (data : ByteString) {s u : State} (hi : CountInv s) (hb : s.bytes.toNat + data.length < 2 ^ 64)
    (hw : s.buf.wf = true) {m : Memory} (hm : m.wf = true) (h : SameBytes s m) (hu : absorb data s = .ok u) :
    ∃ m', absorb data (s.withBuf m) = .ok (u.withBuf m') ∧ SameBytes u m' := by
  induction data generalizing s m with
  | nil =>
    obtain rfl : s = u := Except.ok.inj hu
    exact ⟨m, rfl, h⟩
  | cons b bs ih =>
    rw [List.length_cons] at hb
    have bytes := absorbed_bytes (s := s) (by omega) b
    obtain ⟨n, byte, hn, same⟩ := absorbed_withBuf hi (by omega) hw hm h b
    rw [absorb_cons hi.bufnLe] at hu
    rw [absorb_cons (s := s.withBuf m) hi.bufnLe, byte]
    exact ih (hi.absorbed (by omega) b) (by omega) (absorbed_wf hw hi.bufnLe b) hn same hu

/-- A read of bytes that hold a value. -/
theorem readBuf_withBuf {s : State} {m : Memory} (h : SameBytes s m) {a n : Nat}
    (hv : ∀ k < n, byteHasValue s (a + k) = true) : readBuf (s.withBuf m) a n = readBuf s a n := by
  unfold readBuf
  rw [show (s.withBuf m).buf.bytesAt a n = s.buf.bytesAt a n from Memory.bytesAt_congr fun k hk => h _ (hv k hk)]

/-- The last chunk of an input of 9 bytes or more is made of bytes that hold a value (R172). -/
theorem lastChunk_withBuf {s : State} (hi : CountInv s) (h9 : 9 ≤ s.bytes.toNat) {m : Memory} (h : SameBytes s m) :
    lastChunk (s.withBuf m) = lastChunk s := by
  have few : s.bytes.toNat ≤ 16 → s.bufn.toNat = s.bytes.toNat := hi.bufn_eq_bytes
  have bufnLe := hi.bufnLe
  unfold lastChunk
  rw [show (s.withBuf m).bytes = s.bytes from rfl, show (s.withBuf m).bufn = s.bufn from rfl]
  split
  · rw [readBuf_withBuf h fun k hk => byteHasValue_iff.2 (by omega),
      readBuf_withBuf h fun k hk => byteHasValue_iff.2 (by omega)]
  · exact readBuf_withBuf h fun k hk => byteHasValue_iff.2 (by omega)

/-- `sink_value` depends on bytes that hold a value alone (R172). -/
theorem sinkValue_withBuf {s : State} (hi : CountInv s) {m : Memory} (h : SameBytes s m) :
    sinkValue (s.withBuf m) = sinkValue s := by
  unfold sinkValue
  rw [show (s.withBuf m).bytes = s.bytes from rfl]
  split
  · next short =>
    change s.bytes.toNat ≤ 8 at short
    have few := hi.bufn_eq_bytes (by omega)
    rw [readBuf_withBuf h fun k hk => byteHasValue_iff.2 (by omega)]
    rfl
  · next long =>
    change ¬ s.bytes.toNat ≤ 8 at long
    rw [lastChunk_withBuf hi (by omega) h]
    rfl

/-! ### Agreeing states answer alike -/

/-- Both outcomes are next states, and they agree. -/
def AgreeNext (o o' : Host.Outcome State Fault Refusal) : Prop :=
  ∃ s' t', o = .next s' ∧ o' = .next t' ∧ Agree s' t'

theorem Agree.next {s t : State} (h : Agree s t) : AgreeNext (.next s) (.next t) := ⟨s, t, rfl, rfl, h⟩

section

variable {s t : State}

theorem Agree.withInput (h : Agree s t) (events : List HostEvent) : Agree (s.withInput events) (t.withInput events) :=
  ⟨h.keyValid, h.sstate, h.smode, h.fault, h.fcause, rfl, h.output, h.key, h.sink⟩

theorem Agree.respond (h : Agree s t) (code : BitVec 8) (r0 r1 : Word) :
    Agree (s.respond code r0 r1) (t.respond code r0 r1) :=
  ⟨h.keyValid, h.sstate, h.smode, h.fault, h.fcause, h.input, congrArg (· ++ _) h.output, h.key, h.sink⟩

theorem Agree.raise (h : Agree s t) (c : Cause) : Agree (s.raise c) (t.raise c) :=
  ⟨h.keyValid, h.sstate, h.smode, rfl, by simp [h.fault, h.fcause], h.input, congrArg (· ++ _) h.output, h.key, h.sink⟩

theorem Agree.status (h : Agree s t) : t.status = s.status := by
  rw [State.status, State.status, h.fcause, h.fault, h.keyValid, h.smode, h.sstate]

/-- Reset leaves nothing of the registers. -/
theorem Agree.applyReset (h : Agree s t) : Agree s.applyReset t.applyReset := by
  rw [State.applyReset, State.applyReset, h.input, h.output]
  exact Agree.refl _

theorem Agree.finish (h : Agree s t) (hs : s.sstate ≠ .uninit) : Agree s.finish t.finish :=
  ⟨h.keyValid, rfl, h.smode, h.fault, h.fcause, h.input, h.output, h.key, fun _ => h.sink hs⟩

/-- KEYLD outside a stream: the sink holds no value then (R153). -/
theorem Agree.loadKey (h : Agree s t) (image : Key) (hs : s.sstate = .uninit ∨ s.sstate = .done) :
    Agree (s.loadKey image) (t.loadKey image) :=
  ⟨rfl, by simp [h.sstate], h.smode, h.fault, h.fcause, h.input, h.output, fun _ => rfl,
    fun hne => absurd (by rcases hs with hs | hs <;> simp [hs]) hne⟩

/-- SINIT.x writes every sink register but `BUF`, of which no byte holds a value then (R166). -/
theorem Agree.initSink (h : Agree s t) (m : SinkMode) (seed : Word) : Agree (s.initSink m seed) (t.initSink m seed) :=
  ⟨h.keyValid, rfl, rfl, h.fault, h.fcause, h.input, h.output, h.key, fun _ => ⟨rfl, fun a ha => by
    rw [byteHasValue_iff] at ha
    simp at ha
    omega⟩⟩

theorem Agree.batch (h : Agree s t) (f : Key → Word × Word) : AgreeNext (batch s (f s.key)) (batch t (f t.key)) := by
  unfold Machine.batch
  rw [h.keyValid]
  split
  · next hk =>
    rw [h.key hk]
    exact (h.respond _ _ _).next
  · exact (h.raise .noKey).next

theorem Agree.sinit (h : Agree s t) (m : SinkMode) (seed : Word) : AgreeNext (sinit m seed s) (sinit m seed t) := by
  unfold Machine.sinit
  rw [h.keyValid]
  split
  · exact ((h.initSink m seed).respond _ _ _).next
  · exact (h.raise .noKey).next

theorem Agree.execKeyld (h : Agree s t) (image : Key) : AgreeNext (execKeyld image s) (execKeyld image t) := by
  rcases execKeyld_spec image s with ⟨stream, hx⟩ | ⟨closed, hx⟩ <;> rw [hx]
  · rw [Machine.execKeyld, h.sstate, if_pos stream]
    exact (h.raise .keyBusy).next
  · rw [Machine.execKeyld, h.sstate, if_neg (by rcases closed with hc | hc <;> simp [hc])]
    exact ((h.loadKey image closed).respond _ _ _).next

theorem Agree.execRegrd (h : Agree s t) (hi : Inv s) (reg : BitVec 8) :
    AgreeNext (execRegrd reg s) (execRegrd reg t) := by
  unfold Machine.execRegrd
  rw [h.sstate]
  split
  · exact (h.raise .illegalCommand).next
  · split
    · exact (h.raise .sinkState).next
    · next reads =>
      have value : regValue t reg.toNat = regValue s reg.toNat := by
        by_cases h0 : reg.toNat = 0
        · rw [h0]
          exact h.status
        · have started : s.sstate ≠ .uninit := fun hu => reads ⟨by omega, hu⟩
          obtain ⟨m, rfl, -⟩ := h.eq_withBuf (hi.sink started).keyed started
          rfl
      rw [value]
      exact (h.respond _ _ _).next

theorem Agree.execSupd (h : Agree s t) (hs : Inv s) (ht : Inv t) (data : ByteString) :
    AgreeNext (execSupd data s) (execSupd data t) := by
  rcases execSupd_spec data s with ⟨closed, hx⟩ | ⟨stream, tooLong, hx⟩ | ⟨stream, fits, -⟩
  · rw [hx, execSupd_closed (s := t) (by rwa [h.sstate])]
    exact (h.raise .sinkState).next
  · have started : s.sstate ≠ .uninit := by rcases stream with hc | hc <;> simp [hc]
    obtain ⟨m, rfl, -⟩ := h.eq_withBuf (hs.sink started).keyed started
    rw [hx, execSupd_overflows (s := s.withBuf m) stream tooLong]
    exact (h.raise .lengthOverflow).next
  · have started : s.sstate ≠ .uninit := by rcases stream with hc | hc <;> simp [hc]
    obtain ⟨keyed, -, -, counts⟩ := sinkInv_iff.1 (hs.sink started)
    obtain ⟨m, rfl, same⟩ := h.eq_withBuf keyed started
    obtain ⟨u, hu, -⟩ := absorb_spec data counts.bufnLe
    obtain ⟨m', hu', same'⟩ := absorb_withBuf data counts fits hs.bufWf ht.bufWf same hu
    rw [execSupd_absorbs stream fits hu, execSupd_absorbs (s := s.withBuf m) stream fits hu']
    exact ((agree_withBuf (s := u.afterUpdate data.length) same').respond _ _ _).next

theorem Agree.execSdig (h : Agree s t) (hs : Inv s) : AgreeNext (execSdig s) (execSdig t) := by
  by_cases hu : s.sstate = .uninit
  · rw [Machine.execSdig, Machine.execSdig, if_pos hu, if_pos (h.sstate.trans hu)]
    exact (h.raise .sinkState).next
  · obtain ⟨keyed, -, -, counts⟩ := sinkInv_iff.1 (hs.sink hu)
    obtain ⟨m, rfl, same⟩ := h.eq_withBuf keyed hu
    obtain ⟨v, hv⟩ := sinkValue_ok counts.bufnLe
    have hv' : sinkValue (s.withBuf m) = .ok v := by rw [sinkValue_withBuf counts same, hv]
    rw [Machine.execSdig, Machine.execSdig, if_neg hu, if_neg (c := (s.withBuf m).sstate = .uninit) hu, hv, hv']
    exact ((h.finish hu).respond _ _ _).next

/-- Agreeing states answer every command alike and agree again. -/
theorem Agree.exec (h : Agree s t) (hs : Inv s) (ht : Inv t) (i : Instr) : AgreeNext (exec i s) (exec i t) := by
  cases i with
  | keyld image => exact h.execKeyld image
  | hashP seed data => exact h.batch fun k => (hashOf k seed .primary data, 0)
  | hashS seed data => exact h.batch fun k => (hashOf k seed .secondary data, 0)
  | fprint seed data => exact h.batch fun k => Machine.fprint k seed data
  | sinitP seed => exact h.sinit .primary seed
  | sinitS seed => exact h.sinit .secondary seed
  | sinitF seed => exact h.sinit .both seed
  | supd data => exact h.execSupd hs ht data
  | sdig => exact h.execSdig hs
  | regrd reg => exact h.execRegrd hs reg

theorem Agree.transact (h : Agree s t) (hs : Inv s) (ht : Inv t) (tr : Transaction) :
    AgreeNext (transact tr s) (transact tr t) := by
  cases hf : s.fault with
  | true =>
    rw [transact_faulted hf, transact_faulted (h.fault.trans hf), answerFaulted, answerFaulted, h.status]
    split
    · exact (h.respond _ _ _).next
    · exact (h.respond _ _ _).next
  | false =>
    cases hd : decode tr with
    | ok i =>
      rw [transact_ok hf hd, transact_ok (h.fault.trans hf) hd]
      exact h.exec hs ht i
    | error r =>
      rw [transact_error hf hd, transact_error (h.fault.trans hf) hd]
      exact (h.raise _).next

/-- Agreeing states take the same step and agree again. -/
theorem Agree.step (h : Agree s t) (hs : Inv s) (ht : Inv t) : AgreeNext (step s) (step t) := by
  cases hin : s.input with
  | nil =>
    rw [step_nil hin, step_nil (h.input.trans hin)]
    exact h.next
  | cons e rest =>
    rw [step_cons hin, step_cons (h.input.trans hin)]
    cases e with
    | reset abandoned => exact (h.withInput rest).applyReset.next
    | transaction tr => exact (h.withInput rest).transact (hs.withInput rest) (ht.withInput rest) tr

end

/-- Settles O59: the states agree where `visible` is the same, a step keeps them agreeing, and the invariant it keeps
turns agreeing back into equal `visible`. -/
theorem registersWithoutValueAreNeverRead : Obligations.RegistersWithoutValueAreNeverRead := by
  unfold Obligations.RegistersWithoutValueAreNeverRead
  intro s t hs ht h
  obtain ⟨s', t', hs', ht', h'⟩ := (agree_of_visible hs ht h).step hs ht
  have keeps := everyStepKeepsTheInvariant
  exact ⟨s', t', hs', ht', visible_of_agree (keeps s s' hs hs') (keeps t t' ht ht') h'⟩

end Sys2Proof.Safety

end

section
/-! PROOFS. The fields of STATUS (R26). -/

namespace Sys2Proof.Safety

open Sys2Proof Sys2Proof.Machine

/-! ### The fields of a word put together as STATUS is -/

section

variable (zeros : BitVec 48) (cause : BitVec 8) (gap : BitVec 2) (fault valid : Bool) (mode state : BitVec 2)

/-- The layout of `STATUS` (R26), at the width the laws of append speak of: the sum of the widths of its fields. -/
def statusLayout : BitVec (48 + 8 + 2 + 1 + 1 + 2 + 2) :=
  zeros ++ cause ++ gap ++ BitVec.ofBool fault ++ BitVec.ofBool valid ++ mode ++ state

theorem statusLayout_state : (statusLayout zeros cause gap fault valid mode state).extractLsb' 0 2 = state :=
  BitVec.extractLsb'_append_eq_right

theorem statusLayout_mode : (statusLayout zeros cause gap fault valid mode state).extractLsb' 2 2 = mode := by
  rw [statusLayout, BitVec.extractLsb'_append_eq_of_le (by decide)]
  exact BitVec.extractLsb'_append_eq_right

theorem statusLayout_valid : (statusLayout zeros cause gap fault valid mode state).getLsbD 4 = valid := by
  rw [statusLayout]
  iterate 3 rw [BitVec.getLsbD_append]
  simp

theorem statusLayout_fault : (statusLayout zeros cause gap fault valid mode state).getLsbD 5 = fault := by
  rw [statusLayout]
  iterate 4 rw [BitVec.getLsbD_append]
  simp

theorem statusLayout_gap : (statusLayout zeros cause gap fault valid mode state).extractLsb' 6 2 = gap := by
  rw [statusLayout]
  iterate 4 rw [BitVec.extractLsb'_append_eq_of_le (by decide)]
  exact BitVec.extractLsb'_append_eq_right

theorem statusLayout_cause : (statusLayout zeros cause gap fault valid mode state).extractLsb' 8 8 = cause := by
  rw [statusLayout]
  iterate 5 rw [BitVec.extractLsb'_append_eq_of_le (by decide)]
  exact BitVec.extractLsb'_append_eq_right

theorem statusLayout_zeros : (statusLayout zeros cause gap fault valid mode state).extractLsb' 16 48 = zeros := by
  rw [statusLayout]
  iterate 6 rw [BitVec.extractLsb'_append_eq_of_le (by decide)]
  exact BitVec.extractLsb'_eq_self

end

theorem status_eq_statusLayout (s : State) :
    s.status = statusLayout 0 s.fcause 0 s.fault s.keyValid s.smode.code s.sstate.code := rfl

/-- Settles O38, field by field from the layout. -/
theorem statusFieldsViewTheRegisters : Obligations.StatusFieldsViewTheRegisters := by
  unfold Obligations.StatusFieldsViewTheRegisters
  refine ⟨fun s => ?_, by decide⟩
  rw [status_eq_statusLayout]
  exact ⟨statusLayout_state .., statusLayout_mode .., statusLayout_valid .., statusLayout_fault ..,
    statusLayout_gap .., statusLayout_cause .., statusLayout_zeros ..⟩

end Sys2Proof.Safety

end

section
/-! PROOFS. Progress: where no more than 16 bytes are pending, nothing the host sends stops the block (R45, R190). -/

namespace Sys2Proof.Safety

open Sys2Proof Sys2Proof.Machine

/-! ### The two commands that access `BUF` -/

/-- SUPD stores inside `BUF` from at most 16 bytes pending (R45, R171). -/
theorem execSupd_next {s : State} (hn : s.sstate ≠ .uninit → s.bufn.toNat ≤ 16) (data : ByteString) :
    ∃ t, execSupd data s = .next t := by
  rcases execSupd_spec data s with ⟨-, hx⟩ | ⟨-, -, hx⟩ | ⟨stream, fits, -⟩
  · exact ⟨_, hx⟩
  · exact ⟨_, hx⟩
  · have started : s.sstate ≠ .uninit := by rcases stream with hc | hc <;> simp [hc]
    obtain ⟨u, taken, -⟩ := absorb_spec data (hn started)
    exact ⟨_, execSupd_absorbs stream fits taken⟩

/-- SDIG reads inside `BUF` with at most 16 bytes pending (R45, R172, R173). -/
theorem execSdig_next {s : State} (hn : s.sstate ≠ .uninit → s.bufn.toNat ≤ 16) : ∃ t, execSdig s = .next t := by
  by_cases hu : s.sstate = .uninit
  · exact ⟨_, if_pos hu⟩
  · obtain ⟨v, digest⟩ := sinkValue_ok (hn hu)
    exact ⟨_, by rw [execSdig, if_neg hu, digest]⟩

/-! ### Every command and every step -/

/-- No command stops where at most 16 bytes are pending in a sink that holds a value (R190). -/
theorem exec_next {s : State} (hn : s.sstate ≠ .uninit → s.bufn.toNat ≤ 16) (i : Instr) :
    ∃ t, exec i s = .next t := by
  have batched (r : Word × Word) : ∃ t, batch s r = .next t := by
    rcases batch_spec s r with ⟨-, hx⟩ | ⟨-, hx⟩ <;> exact ⟨_, hx⟩
  have opened (m : SinkMode) (seed : Word) : ∃ t, sinit m seed s = .next t := by
    rcases sinit_spec m seed s with ⟨-, hx⟩ | ⟨-, hx⟩ <;> exact ⟨_, hx⟩
  cases i with
  | keyld image => rcases execKeyld_spec image s with ⟨-, hx⟩ | ⟨-, hx⟩ <;> exact ⟨_, hx⟩
  | hashP seed data => exact batched _
  | hashS seed data => exact batched _
  | fprint seed data => exact batched _
  | sinitP seed => exact opened .primary seed
  | sinitS seed => exact opened .secondary seed
  | sinitF seed => exact opened .both seed
  | supd data => exact execSupd_next hn data
  | sdig => exact execSdig_next hn
  | regrd reg => rcases execRegrd_spec reg s with ⟨-, hx⟩ | ⟨-, -, -, hx⟩ | ⟨-, hx⟩ <;> exact ⟨_, hx⟩

/-- A transaction never stops the block: a faulted block and a rejected transaction reach no command (R150). -/
theorem transact_next {s : State} (hn : s.sstate ≠ .uninit → s.bufn.toNat ≤ 16) (tr : Transaction) :
    ∃ t, transact tr s = .next t := by
  cases hf : s.fault with
  | true => exact ⟨_, transact_faulted hf tr⟩
  | false =>
    cases hd : decode tr with
    | ok i =>
      rw [transact_ok hf hd]
      exact exec_next hn i
    | error r => exact ⟨_, transact_error hf hd⟩

/-- Settles O58: of the invariant, progress needs only that `BUFN` is at most 16 while the sink holds a value (R22). -/
theorem noStepStopsUnderTheInvariant : Obligations.NoStepStopsUnderTheInvariant := by
  unfold Obligations.NoStepStopsUnderTheInvariant
  intro s h
  have pending : s.sstate ≠ .uninit → s.bufn.toNat ≤ 16 := fun started => (h.sink started).bufnLe
  cases hin : s.input with
  | nil => exact ⟨s, step_nil hin⟩
  | cons e rest =>
    rw [step_cons hin]
    cases e with
    | reset abandoned => exact ⟨_, rfl⟩
    | transaction tr => exact transact_next (s := s.withInput rest) pending tr

end Sys2Proof.Safety

end

section
/-! PROOFS. The fields of a command word and the rows they select (R61, R62, R72). -/

namespace Sys2Proof

open Sys2Proof.Machine

/-! ### The five fields of a command word -/

/-- The five fields cover the word (R61). -/
theorem commandWord_ext_iff {v w : CommandWord} :
    v = w ↔ opcField v = opcField w ∧ modeField v = modeField w ∧ rsv0Field v = rsv0Field w ∧
      regField v = regField w ∧ rsv1Field v = rsv1Field w := by
  refine ⟨fun h => h ▸ ⟨rfl, rfl, rfl, rfl, rfl⟩, fun h => ?_⟩
  simp only [opcField, modeField, rsv0Field, regField, rsv1Field, ← BitVec.toNat_inj, BitVec.extractLsb'_toNat,
    Nat.shiftRight_eq_div_pow] at *
  omega

section

variable (v w : CommandWord)

@[simp] theorem opcField_and : opcField (v &&& w) = opcField v &&& opcField w := BitVec.extractLsb'_and
@[simp] theorem modeField_and : modeField (v &&& w) = modeField v &&& modeField w := BitVec.extractLsb'_and
@[simp] theorem rsv0Field_and : rsv0Field (v &&& w) = rsv0Field v &&& rsv0Field w := BitVec.extractLsb'_and
@[simp] theorem regField_and : regField (v &&& w) = regField v &&& regField w := BitVec.extractLsb'_and
@[simp] theorem rsv1Field_and : rsv1Field (v &&& w) = rsv1Field v &&& rsv1Field w := BitVec.extractLsb'_and

end

/-- The fields of the word that carries a REGRD (R61, R67). -/
theorem regrdWord_fields (reg : BitVec 8) :
    opcField (encode (.regrd reg)).word = 7 ∧ modeField (encode (.regrd reg)).word = 0 ∧
      rsv0Field (encode (.regrd reg)).word = 0 ∧ regField (encode (.regrd reg)).word = reg ∧
      rsv1Field (encode (.regrd reg)).word = 0 := by
  have moved : (reg.setWidth 32 <<< 16).toNat = reg.toNat * 2 ^ 16 := by
    rw [BitVec.toNat_shiftLeft, BitVec.toNat_setWidth, Nat.shiftLeft_eq]
    omega
  have word : (encode (.regrd reg)).word.toNat = 7 + reg.toNat * 2 ^ 16 := by
    rw [encode, BitVec.toNat_or, moved, Nat.or_comm, ← Nat.shiftLeft_eq,
      ← Nat.shiftLeft_add_eq_or_of_lt (by decide), Nat.shiftLeft_eq, Nat.add_comm]
    rfl
  simp only [opcField, modeField, rsv0Field, regField, rsv1Field, ← BitVec.toNat_inj, BitVec.extractLsb'_toNat,
    Nat.shiftRight_eq_div_pow, word, BitVec.ofNat_eq_ofNat, BitVec.toNat_ofNat]
  omega

/-! ### Rows -/

/-- Every mask covers the fields `OPC`, `MODE`, `RSV0` and `RSV1`, and `REG` unless the row is that of REGRD; no
pattern has a bit in `RSV0`, `REG` or `RSV1` (R62). -/
theorem opcodeMap_fields : ∀ r ∈ opcodeMap,
    (opcField r.mask = BitVec.allOnes 8 ∧ modeField r.mask = BitVec.allOnes 2 ∧ rsv0Field r.mask = BitVec.allOnes 6 ∧
      regField r.mask = (if r.command = .regrd then 0 else BitVec.allOnes 8) ∧ rsv1Field r.mask = BitVec.allOnes 8) ∧
    rsv0Field r.pattern = 0 ∧ regField r.pattern = 0 ∧ rsv1Field r.pattern = 0 := by
  decide

/-- A row selects the words with its `OPC` and `MODE`, with nothing in the reserved fields, and, unless it is the row of
REGRD, nothing in `REG` (R62). -/
theorem OpcodeRow.selects_iff {r : OpcodeRow} (hr : r ∈ opcodeMap) (w : CommandWord) :
    r.selects w = true ↔ opcField w = opcField r.pattern ∧ modeField w = modeField r.pattern ∧ rsv0Field w = 0 ∧
      (r.command = .regrd ∨ regField w = 0) ∧ rsv1Field w = 0 := by
  obtain ⟨⟨opcMask, modeMask, rsv0Mask, regMask, rsv1Mask⟩, rsv0Pattern, regPattern, rsv1Pattern⟩ :=
    opcodeMap_fields r hr
  rw [OpcodeRow.selects, beq_iff_eq, commandWord_ext_iff]
  simp only [opcField_and, modeField_and, rsv0Field_and, regField_and, rsv1Field_and, opcMask, modeMask, rsv0Mask,
    regMask, rsv1Mask, rsv0Pattern, regPattern, rsv1Pattern, BitVec.and_allOnes]
  by_cases hc : r.command = .regrd <;> simp only [hc, if_true, if_false, BitVec.ofNat_eq_ofNat,
    BitVec.and_zero, BitVec.and_allOnes, true_or, false_or, true_and]

/-- The rows do not overlap (R62): two patterns that agree where both masks look are one row. -/
theorem opcodeMap_disjoint : ∀ r₁ ∈ opcodeMap, ∀ r₂ ∈ opcodeMap,
    r₁.pattern &&& r₂.mask = r₂.pattern &&& r₁.mask → r₁ = r₂ := by
  decide

/-- Settles O1: both patterns are the word under a mask, so they agree under the other mask. -/
theorem opcodeRowsAreDisjoint : Obligations.OpcodeRowsAreDisjoint := by
  unfold Obligations.OpcodeRowsAreDisjoint
  intro w r₁ h₁ r₂ h₂ s₁ s₂
  refine opcodeMap_disjoint r₁ h₁ r₂ h₂ ?_
  rw [← beq_iff_eq.mp s₁, ← beq_iff_eq.mp s₂, BitVec.and_assoc, BitVec.and_assoc, BitVec.and_comm r₁.mask]

theorem rowOf_selects {w : CommandWord} {r : OpcodeRow} (h : rowOf w = some r) :
    r ∈ opcodeMap ∧ r.selects w = true :=
  ⟨List.mem_of_find?_eq_some h, List.find?_some (p := fun q : OpcodeRow => q.selects w) h⟩

theorem rowOf_eq_none_iff {w : CommandWord} : rowOf w = none ↔ ∀ r ∈ opcodeMap, ¬ r.selects w = true :=
  List.find?_eq_none

/-- The words that select no row are those of R72: the ten rows, written out in the fields they fix, leave these. -/
theorem rowOf_eq_none_iff_fields (w : CommandWord) : rowOf w = none ↔
    ((opcField w).toNat = 0 ∨ 8 ≤ (opcField w).toNat ∨ rsv0Field w ≠ 0 ∨ rsv1Field w ≠ 0 ∨
      (modeField w ≠ 0 ∧ opcField w ≠ 2 ∧ opcField w ≠ 4) ∨ (2 ≤ (modeField w).toNat ∧ opcField w = 2) ∨
      (modeField w = 3 ∧ opcField w = 4) ∨ (regField w ≠ 0 ∧ opcField w ≠ 7)) := by
  rw [rowOf_eq_none_iff, forall₂_congr fun r hr => not_congr (OpcodeRow.selects_iff hr w)]
  generalize opcField w = opc, modeField w = mode, rsv0Field w = rsv0, regField w = reg, rsv1Field w = rsv1
  simp only [opcodeMap, opcField, modeField, List.mem_cons, List.not_mem_nil, or_false, forall_eq_or_imp, forall_eq,
    BitVec.ofNat_eq_ofNat, BitVec.reduceExtractLsb', reduceCtorEq, false_or, true_or, true_and, ne_eq]
  bv_omega

end Sys2Proof

end

section
/-! PROOFS. The operand formats: what the encoder writes the decoder reads back, and the other way (R63 to R69). -/

namespace Sys2Proof.Machine

/-! ### Numbers read from a byte string -/

theorem leNat_slice_lt (b : ByteString) (a : Nat) : leNat (slice b a (a + 8)) < 2 ^ 64 := by
  have short : (slice b a (a + 8)).length ≤ 8 := by rw [slice_length]; omega
  exact (leNat_lt _).trans_le (Nat.pow_le_pow_right (by decide) short)

theorem memRead_lt (b : ByteString) (a : Nat) : memRead b a 8 < 2 ^ 64 := leNat_slice_lt b a

theorem le64_slice_toNat (b : ByteString) (a : Nat) : (le64 (slice b a (a + 8))).toNat = memRead b a 8 := by
  rw [le64, BitVec.toNat_ofNat, Nat.mod_eq_of_lt (leNat_slice_lt b a), memRead]

/-- Writing the eight bytes that were read (R43). -/
theorem leBytes_memRead {b : ByteString} {a : Nat} (h : a + 8 ≤ b.length) :
    leBytes 8 (memRead b a 8) = slice b a (a + 8) := by
  have full : (slice b a (a + 8)).length = 8 := by rw [slice_length]; omega
  have written := leBytes_leNat (slice b a (a + 8))
  rwa [full] at written

theorem leBytes_ofNat_memRead {b : ByteString} {a : Nat} (h : a + 8 ≤ b.length) :
    leBytes 8 (BitVec.ofNat 64 (memRead b a 8)).toNat = slice b a (a + 8) := by
  rw [BitVec.toNat_ofNat, Nat.mod_eq_of_lt (memRead_lt b a), leBytes_memRead h]

/-- Reading the eight bytes that were written (R43). -/
theorem memRead_leBytes_append {v : Nat} (h : v < 2 ^ 64) (rest : ByteString) :
    memRead (leBytes 8 v ++ rest) 0 8 = v := by
  rw [memRead, slice_append_left _ _ _ _ (by rw [leBytes_length]), slice_zero_left, List.take_of_length_le (by simp),
    leNat_leBytes_of_lt h]

theorem memRead_append_right (a b : ByteString) (n : Nat) : memRead (a ++ b) a.length n = memRead b 0 n := by
  have h := slice_append_right a b 0 n
  rw [Nat.add_zero] at h
  rw [memRead, h, memRead, Nat.zero_add]

theorem slice_drop (b : ByteString) (k i j : Nat) : slice (b.drop k) i j = slice b (k + i) (k + j) := by
  rw [slice, slice, List.drop_drop, Nat.add_sub_add_left]

/-! ### The key image -/

theorem imageWord_zero_append (w : Word) (rest : ByteString) : imageWord (leBytes 8 w.toNat ++ rest) 0 = w := by
  rw [imageWord, Nat.mul_zero, memRead_leBytes_append w.isLt, BitVec.ofNat_toNat, BitVec.setWidth_eq]

theorem imageWord_succ (b : ByteString) (j : Nat) : imageWord b (j + 1) = imageWord (b.drop 8) j := by
  rw [imageWord, imageWord, memRead, memRead, slice_drop]
  congr 3 <;> omega

/-- Word `j` of the image of a list of words is its word `j` (R63). -/
theorem imageWord_flatMap (ws : List Word) (j : Nat) (h : j < ws.length) :
    imageWord (ws.flatMap fun w => leBytes 8 w.toNat) j = ws[j] := by
  induction ws generalizing j with
  | nil => exact absurd h (Nat.not_lt_zero j)
  | cons w ws ih =>
    rw [List.flatMap_cons]
    cases j with
    | zero => exact imageWord_zero_append w _
    | succ j =>
      rw [imageWord_succ, List.drop_left' (leBytes_length 8 _)]
      exact ih j (Nat.lt_of_succ_lt_succ h)

theorem keyImage_keyImageBytes (k : Key) : keyImage (keyImageBytes k) = k := by
  refine Vector.ext fun j hj => ?_
  rw [keyImage, Vector.getElem_ofFn, keyImageBytes, imageWord_flatMap _ _ (by simpa using hj), Vector.getElem_toList]

/-- The image of the words read from a byte string is that byte string (R63). -/
theorem flatMap_imageWord (n : Nat) (b : ByteString) (h : b.length = 8 * n) :
    ((List.range n).map (imageWord b)).flatMap (fun w => leBytes 8 w.toNat) = b := by
  induction n generalizing b with
  | zero => exact (List.length_eq_zero_iff.mp h).symm
  | succ n ih =>
    have first : leBytes 8 (imageWord b 0).toNat = b.take 8 := by
      rw [imageWord, leBytes_ofNat_memRead (by omega), slice_zero_left]
    have others : (List.range n).map (fun j => imageWord b (j + 1)) = (List.range n).map (imageWord (b.drop 8)) :=
      List.map_congr_left fun j _ => imageWord_succ b j
    rw [List.range_succ_eq_map, List.map_cons, List.flatMap_cons, List.map_map, first]
    change _ ++ List.flatMap _ ((List.range n).map fun j => imageWord b (j + 1)) = b
    rw [others, ih (b.drop 8) (by rw [List.length_drop]; omega), List.take_append_drop]

theorem keyImageBytes_keyImage {b : ByteString} (h : b.length = 304) : keyImageBytes (keyImage b) = b := by
  have words : (keyImage b).toList = (List.range 38).map (imageWord b) :=
    List.ext_getElem (by simp) (by simp [keyImage])
  rw [keyImageBytes, words, flatMap_imageWord 38 b h]

end Sys2Proof.Machine

namespace Sys2Proof

open Sys2Proof.Machine

/-! ### What each format requires of the operand bytes (R74) -/

section

variable (ops : ByteString)

theorem operandsFit_k : operandsFit .k ops = true ↔ ops.length = 304 := beq_iff_eq

theorem operandsFit_b : operandsFit .b ops = true ↔ 16 ≤ ops.length ∧ ops.length = 16 + memRead ops 8 8 := by
  simp [operandsFit]

theorem operandsFit_i : operandsFit .i ops = true ↔ ops.length = 8 := beq_iff_eq

theorem operandsFit_u : operandsFit .u ops = true ↔ 8 ≤ ops.length ∧ ops.length = 8 + memRead ops 0 8 := by
  simp [operandsFit]

theorem operandsFit_n : operandsFit .n ops = true ↔ ops.length = 0 := beq_iff_eq

end

theorem lenFits_iff (data : ByteString) : lenFits data = true ↔ data.length < 2 ^ 64 := decide_eq_true_iff

/-! ### Format I (R65) -/

theorem seedOperand_append (seed : Word) (rest : ByteString) : seedOperand (leBytes 8 seed.toNat ++ rest) = seed :=
  imageWord_zero_append seed rest

theorem seedOperand_leBytes (seed : Word) : seedOperand (leBytes 8 seed.toNat) = seed := by
  simpa using seedOperand_append seed []

theorem leBytes_seedOperand {ops : ByteString} (h : 8 ≤ ops.length) :
    leBytes 8 (seedOperand ops).toNat = ops.take 8 := by
  rw [seedOperand, leBytes_ofNat_memRead (by omega), slice_zero_left]

/-! ### Format B (R64) -/

theorem formatB_eq (seed : Word) (data : ByteString) : formatB seed data = leBytes 8 seed.toNat ++ formatU data :=
  List.append_assoc ..

theorem seedOperand_formatB (seed : Word) (data : ByteString) : seedOperand (formatB seed data) = seed := by
  rw [formatB_eq, seedOperand_append]

theorem drop_formatU (data : ByteString) : (formatU data).drop 8 = data := List.drop_left' (leBytes_length 8 _)

theorem drop_formatB (seed : Word) (data : ByteString) : (formatB seed data).drop 16 = data :=
  List.drop_left' (by simp)

theorem operandsFit_formatU {data : ByteString} (h : lenFits data = true) : operandsFit .u (formatU data) = true := by
  rw [operandsFit_u, formatU, memRead_leBytes_append ((lenFits_iff data).mp h), List.length_append, leBytes_length]
  exact ⟨Nat.le_add_right .., rfl⟩

theorem operandsFit_formatB {seed : Word} {data : ByteString} (h : lenFits data = true) :
    operandsFit .b (formatB seed data) = true := by
  have len : memRead (formatB seed data) 8 8 = data.length := by
    rw [formatB_eq]
    have second := memRead_append_right (leBytes 8 seed.toNat) (formatU data) 8
    rw [leBytes_length] at second
    rw [second, formatU, memRead_leBytes_append ((lenFits_iff data).mp h)]
  have total : (formatB seed data).length = 16 + data.length := by
    simp only [formatB, List.length_append, leBytes_length]
  rw [operandsFit_b, len, total]
  exact ⟨Nat.le_add_right .., rfl⟩

theorem lenFits_of_fit_b {ops : ByteString} (h : operandsFit .b ops = true) : lenFits (ops.drop 16) = true := by
  obtain ⟨fixed, len⟩ := (operandsFit_b ops).mp h
  have := memRead_lt ops 8
  rw [lenFits_iff, List.length_drop]
  omega

theorem lenFits_of_fit_u {ops : ByteString} (h : operandsFit .u ops = true) : lenFits (ops.drop 8) = true := by
  obtain ⟨fixed, len⟩ := (operandsFit_u ops).mp h
  have := memRead_lt ops 0
  rw [lenFits_iff, List.length_drop]
  omega

theorem formatU_of_fit {ops : ByteString} (h : operandsFit .u ops = true) : formatU (ops.drop 8) = ops := by
  obtain ⟨fixed, len⟩ := (operandsFit_u ops).mp h
  have count : (ops.drop 8).length = memRead ops 0 8 := by rw [List.length_drop]; omega
  rw [formatU, count, leBytes_memRead (by omega), slice_zero_left, List.take_append_drop]

theorem formatB_of_fit {ops : ByteString} (h : operandsFit .b ops = true) :
    formatB (seedOperand ops) (ops.drop 16) = ops := by
  obtain ⟨fixed, len⟩ := (operandsFit_b ops).mp h
  have count : (ops.drop 16).length = memRead ops 8 8 := by rw [List.length_drop]; omega
  have tail : slice ops 8 16 ++ ops.drop 16 = ops.drop 8 := by
    rw [slice, ← List.drop_drop (i := 8) (j := 8), List.take_append_drop]
  rw [formatB, count, leBytes_memRead (by omega), leBytes_seedOperand (by omega), List.append_assoc, tail,
    List.take_append_drop]

end Sys2Proof

end

section
/-! PROOFS. The decoder: it reads back what the encoder wrote, accepts nothing else, and rejects by cause
(R62 to R74). -/

namespace Sys2Proof

open Sys2Proof.Machine Sys2Proof.Laws

/-! ### What the decoder answers -/

theorem decode_of_rowOf_none {t : Transaction} (h : rowOf t.word = none) : decode t = .error .illegalCommand := by
  simp [decode, h]

theorem decode_of_rowOf_some {t : Transaction} {r : OpcodeRow} (h : rowOf t.word = some r) :
    decode t = if operandsFit r.format t.operands then .ok (assembleOperands r.command t.word t.operands)
      else .error .malformed := by
  simp [decode, h]

theorem decode_of_unfit {t : Transaction} {r : OpcodeRow} (h : rowOf t.word = some r)
    (unfit : ¬ operandsFit r.format t.operands = true) : decode t = .error .malformed := by
  rw [decode_of_rowOf_some h, if_neg unfit]

/-- The decoder accepts a transaction where its word selects a row and its operand bytes fit the row's format (R150). -/
theorem decode_eq_ok_iff {t : Transaction} {i : Instr} :
    decode t = .ok i ↔ ∃ r, rowOf t.word = some r ∧ operandsFit r.format t.operands = true ∧
      assembleOperands r.command t.word t.operands = i := by
  cases h : rowOf t.word with
  | none => simp [decode_of_rowOf_none h]
  | some r => cases fits : operandsFit r.format t.operands <;> simp [decode_of_rowOf_some h, fits]

/-! ### Rows by command -/

/-- The operand format of a command (R62). -/
def Mnemonic.format : Mnemonic → Format
  | .keyld => .k
  | .hashP => .b
  | .hashS => .b
  | .fprint => .b
  | .sinitP => .i
  | .sinitS => .i
  | .sinitF => .i
  | .supd => .u
  | .sdig => .n
  | .regrd => .n

theorem format_eq_of_mem : ∀ r ∈ opcodeMap, r.format = r.command.format := by decide

/-- A command's word selects the row of that command, whose format is the command's (R62). -/
theorem selects_own_row (i : Instr) :
    ∃ r, rowOf (encode i).word = some r ∧ r.command = mnemonicOf i ∧ r.format = (mnemonicOf i).format := by
  have selects : SelectsItsRow.Statement i := by
    cases i with
    | keyld image => exact SelectsItsRow.keyld image
    | hashP seed data => exact SelectsItsRow.hashP seed data
    | hashS seed data => exact SelectsItsRow.hashS seed data
    | fprint seed data => exact SelectsItsRow.fprint seed data
    | sinitP seed => exact SelectsItsRow.sinitP seed
    | sinitS seed => exact SelectsItsRow.sinitS seed
    | sinitF seed => exact SelectsItsRow.sinitF seed
    | supd data => exact SelectsItsRow.supd data
    | sdig => exact SelectsItsRow.sdig
    | regrd reg => exact SelectsItsRow.regrd reg
  obtain ⟨r, row, name⟩ := Option.map_eq_some_iff.mp selects
  exact ⟨r, row, name, name ▸ format_eq_of_mem r (rowOf_selects row).1⟩

/-! ### Decoding what was encoded -/

/-- The operand bytes of a well-formed command are as many as its format requires (R68). -/
theorem operandsFit_encode {i : Instr} (h : i.wf = true) :
    operandsFit (mnemonicOf i).format (encode i).operands = true := by
  cases i with
  | keyld image => exact (operandsFit_k _).mpr (keyImageBytes_length image)
  | hashP seed data => exact operandsFit_formatB h
  | hashS seed data => exact operandsFit_formatB h
  | fprint seed data => exact operandsFit_formatB h
  | sinitP seed => exact (operandsFit_i _).mpr (leBytes_length 8 _)
  | sinitS seed => exact (operandsFit_i _).mpr (leBytes_length 8 _)
  | sinitF seed => exact (operandsFit_i _).mpr (leBytes_length 8 _)
  | supd data => exact operandsFit_formatU h
  | sdig => rfl
  | regrd reg => rfl

/-- Operand assembly reads back the operands of a command (R69). -/
theorem assembleOperands_encode (i : Instr) :
    assembleOperands (mnemonicOf i) (encode i).word (encode i).operands = i := by
  cases i with
  | keyld image => exact congrArg Instr.keyld (keyImage_keyImageBytes image)
  | hashP seed data => exact congrArg₂ Instr.hashP (seedOperand_formatB seed data) (drop_formatB seed data)
  | hashS seed data => exact congrArg₂ Instr.hashS (seedOperand_formatB seed data) (drop_formatB seed data)
  | fprint seed data => exact congrArg₂ Instr.fprint (seedOperand_formatB seed data) (drop_formatB seed data)
  | sinitP seed => exact congrArg Instr.sinitP (seedOperand_leBytes seed)
  | sinitS seed => exact congrArg Instr.sinitS (seedOperand_leBytes seed)
  | sinitF seed => exact congrArg Instr.sinitF (seedOperand_leBytes seed)
  | supd data => exact congrArg Instr.supd (drop_formatU data)
  | sdig => rfl
  | regrd reg =>
    obtain ⟨-, -, -, field, -⟩ := regrdWord_fields reg
    exact congrArg Instr.regrd field

/-- Settles O4: the word selects the command's own row, the operand bytes fit it, and assembly reads them back. -/
theorem decodeOfEncodeIsTheCommand : Obligations.DecodeOfEncodeIsTheCommand := by
  unfold Obligations.DecodeOfEncodeIsTheCommand
  intro i wf
  obtain ⟨r, row, name, format⟩ := selects_own_row i
  refine decode_eq_ok_iff.mpr ⟨r, row, ?_, ?_⟩
  · rw [format]
    exact operandsFit_encode wf
  · rw [name]
    exact assembleOperands_encode i

/-! ### Encoding what was decoded -/

/-- Every row but that of REGRD has its pattern for the one word of its command (R62). -/
theorem encode_word_eq_pattern (w : CommandWord) (ops : ByteString) : ∀ r ∈ opcodeMap, r.command ≠ .regrd →
    (encode (assembleOperands r.command w ops)).word = r.pattern := by
  simp only [opcodeMap, List.forall_mem_cons]
  exact ⟨fun _ => rfl, fun _ => rfl, fun _ => rfl, fun _ => rfl, fun _ => rfl, fun _ => rfl, fun _ => rfl,
    fun _ => rfl, fun _ => rfl, fun other => absurd rfl other, fun _ none => absurd none List.not_mem_nil⟩

/-- The pattern of REGRD (R62). -/
theorem regrd_pattern : ∀ r ∈ opcodeMap, r.command = .regrd →
    opcField r.pattern = 7 ∧ modeField r.pattern = 0 := by decide

/-- The word of the command read from a word of a row is that word again (R62). -/
theorem encode_word_of_selects {r : OpcodeRow} (hr : r ∈ opcodeMap) {w : CommandWord} (hs : r.selects w = true)
    (ops : ByteString) : (encode (assembleOperands r.command w ops)).word = w := by
  obtain ⟨opc, mode, rsv0, reg, rsv1⟩ := (OpcodeRow.selects_iff hr w).mp hs
  by_cases hc : r.command = .regrd
  · obtain ⟨opcPattern, modePattern⟩ := regrd_pattern r hr hc
    obtain ⟨opcWord, modeWord, rsv0Word, regWord, rsv1Word⟩ := regrdWord_fields (regField w)
    rw [hc]
    exact commandWord_ext_iff.mpr ⟨opcWord.trans (opc.trans opcPattern).symm,
      modeWord.trans (mode.trans modePattern).symm, rsv0Word.trans rsv0.symm, regWord, rsv1Word.trans rsv1.symm⟩
  · obtain ⟨-, rsv0Pattern, regPattern, rsv1Pattern⟩ := opcodeMap_fields r hr
    rw [encode_word_eq_pattern w ops r hr hc]
    exact commandWord_ext_iff.mpr ⟨opc.symm, mode.symm, rsv0Pattern.trans rsv0.symm,
      regPattern.trans (reg.resolve_left hc).symm, rsv1Pattern.trans rsv1.symm⟩

/-- The command read from operand bytes that fit is well formed and has those operand bytes (R63 to R67). -/
theorem assembleOperands_of_fit {c : Mnemonic} (w : CommandWord) {ops : ByteString}
    (h : operandsFit c.format ops = true) :
    (assembleOperands c w ops).wf = true ∧ (encode (assembleOperands c w ops)).operands = ops := by
  have formatI (fits : operandsFit .i ops = true) : leBytes 8 (seedOperand ops).toNat = ops := by
    have len := (operandsFit_i ops).mp fits
    rw [leBytes_seedOperand len.ge, List.take_of_length_le len.le]
  have formatN (fits : operandsFit .n ops = true) : [] = ops :=
    (List.length_eq_zero_iff.mp ((operandsFit_n ops).mp fits)).symm
  cases c with
  | keyld =>
    have len := (operandsFit_k ops).mp h
    exact ⟨rfl, by simp only [assembleOperands, encode, keyImageBytes_keyImage len]⟩
  | hashP => exact ⟨lenFits_of_fit_b h, formatB_of_fit h⟩
  | hashS => exact ⟨lenFits_of_fit_b h, formatB_of_fit h⟩
  | fprint => exact ⟨lenFits_of_fit_b h, formatB_of_fit h⟩
  | sinitP => exact ⟨rfl, formatI h⟩
  | sinitS => exact ⟨rfl, formatI h⟩
  | sinitF => exact ⟨rfl, formatI h⟩
  | supd => exact ⟨lenFits_of_fit_u h, formatU_of_fit h⟩
  | sdig => exact ⟨rfl, formatN h⟩
  | regrd => exact ⟨rfl, formatN h⟩

/-- Settles O5: the word of the command read is the word that selected its row, and its operand bytes are those that
came. -/
theorem decodedTransactionsAreEncodings : Obligations.DecodedTransactionsAreEncodings := by
  unfold Obligations.DecodedTransactionsAreEncodings
  rintro ⟨w, ops⟩ i decoded
  obtain ⟨r, row, fits, rfl⟩ := decode_eq_ok_iff.mp decoded
  obtain ⟨hr, hs⟩ := rowOf_selects row
  rw [format_eq_of_mem r hr] at fits
  obtain ⟨wf, operands⟩ := assembleOperands_of_fit w fits
  exact ⟨wf, congrArg₂ Transaction.mk (encode_word_of_selects hr hs ops) operands⟩

end Sys2Proof

namespace Sys2Proof.Safety

open Sys2Proof Sys2Proof.Machine

/-! ### Rejected transactions -/

theorem step_transaction (s : State) (t : Transaction) (rest : List HostEvent) :
    step (s.withInput (.transaction t :: rest)) = transact t (s.withInput rest) := rfl

theorem step_rejected {s : State} (hf : s.fault = false) {t : Transaction} {reject : Reject}
    (hd : decode t = .error reject) (rest : List HostEvent) :
    step (s.withInput (.transaction t :: rest)) = .next ((s.withInput rest).raise (rejectCause reject)) := by
  rw [step_transaction]
  exact transact_error (s := s.withInput rest) hf hd

/-- Settles O2: the words that select no row, in fields; the decoder's first rejection; the word and the meaning of a
REGRD of a reserved register. -/
theorem illegalWordsRaiseIllegalCommand : Obligations.IllegalWordsRaiseIllegalCommand := by
  unfold Obligations.IllegalWordsRaiseIllegalCommand
  refine ⟨rowOf_eq_none_iff_fields, fun s t rest hf illegal => step_rejected hf (decode_of_rowOf_none illegal) rest,
    fun s reg reserved => ⟨?_, if_pos reserved⟩⟩
  obtain ⟨r, row, -⟩ := selects_own_row (.regrd reg)
  rw [row, Option.isSome_some]

/-- Settles O3, format by format. -/
theorem wrongOperandCountRaisesMalformed : Obligations.WrongOperandCountRaisesMalformed := by
  unfold Obligations.WrongOperandCountRaisesMalformed
  intro s w r ops rest hf row wrong
  have unfit : ¬ operandsFit r.format ops = true := by
    revert wrong
    cases r.format with
    | k => exact fun wrong fits => wrong ((operandsFit_k ops).mp fits)
    | b =>
      intro wrong fits
      obtain ⟨fixed, len⟩ := (operandsFit_b ops).mp fits
      exact wrong.elim (Nat.not_lt_of_le fixed) fun other => other (le64_slice_toNat ops 8 ▸ len)
    | i => exact fun wrong fits => wrong ((operandsFit_i ops).mp fits)
    | u =>
      intro wrong fits
      obtain ⟨fixed, len⟩ := (operandsFit_u ops).mp fits
      exact wrong.elim (Nat.not_lt_of_le fixed) fun other => other (le64_slice_toNat ops 0 ▸ len)
    | n => exact fun wrong fits => wrong ((operandsFit_n ops).mp fits)
  exact step_rejected hf (decode_of_unfit row unfit) rest

end Sys2Proof.Safety

end

section
/-! PROOFS. Responses: their form on the wire, and one for each transaction (R70, R71). -/

namespace Sys2Proof.Safety

open Sys2Proof Sys2Proof.Machine

/-! ### The wire form -/

/-- Settles O8: the code, then two little-endian words of eight bytes. -/
theorem responsesAreSeventeenBytes : Obligations.ResponsesAreSeventeenBytes := by
  unfold Obligations.ResponsesAreSeventeenBytes
  rintro ⟨code, r0, r1⟩
  have first : slice (Response.bytes ⟨code, r0, r1⟩) 1 9 = leBytes 8 r0.toNat := by
    refine (slice_append_right [code] (leBytes 8 r0.toNat ++ leBytes 8 r1.toNat) 0 8).trans ?_
    rw [slice_append_left _ _ _ _ (leBytes_length 8 _).ge, slice_zero_left,
      List.take_of_length_le (leBytes_length 8 _).le]
  have second : slice (Response.bytes ⟨code, r0, r1⟩) 9 17 = leBytes 8 r1.toNat := by
    refine (slice_append_right (code :: leBytes 8 r0.toNat) (leBytes 8 r1.toNat) 0 8).trans ?_
    rw [slice_zero_left, List.take_of_length_le (leBytes_length 8 _).le]
  refine ⟨by simp [Response.bytes], rfl, ?_, ?_⟩
  · rw [first, le64_leBytes]
  · rw [second, le64_leBytes]

/-! ### One response for each transaction -/

/-- A response with a code of R71: OK, a cause or REFUSED, with zeros beside any code but OK. -/
def WellCoded (r : Response) : Prop :=
  (r.code.toNat ≤ 6 ∨ r.code = 0xFF) ∧ (r.code ≠ 0x00 → r.r0 = 0 ∧ r.r1 = 0)

theorem wellCoded_ok (r0 r1 : Word) : WellCoded ⟨okCode, r0, r1⟩ :=
  ⟨.inl (Nat.zero_le 6), fun notOk => absurd rfl notOk⟩

theorem wellCoded_refused : WellCoded ⟨refusedCode, 0, 0⟩ := ⟨.inr rfl, fun _ => ⟨rfl, rfl⟩⟩

theorem wellCoded_cause (c : Cause) : WellCoded ⟨c.code, 0, 0⟩ := ⟨.inl (cause_code_range c).2, fun _ => ⟨rfl, rfl⟩⟩

/-- From `s` to `u` the block gives exactly one response and takes nothing more from the host (R70). -/
def AnswersOnce (s u : State) : Prop :=
  ∃ r : Response, u.output = s.output ++ [r] ∧ u.input = s.input ∧ WellCoded r

theorem answersOnce_ok {s t : State} (ho : t.output = s.output) (hi : t.input = s.input) (r0 r1 : Word) :
    AnswersOnce s (t.ok r0 r1) :=
  ⟨⟨okCode, r0, r1⟩, by rw [State.ok_output, ho], hi, wellCoded_ok r0 r1⟩

theorem answersOnce_raise (s : State) (c : Cause) : AnswersOnce s (s.raise c) :=
  ⟨⟨c.code, 0, 0⟩, rfl, rfl, wellCoded_cause c⟩

theorem answersOnce_answerFaulted (t : Transaction) (s : State) : AnswersOnce s (answerFaulted t s) := by
  unfold answerFaulted
  split
  · exact answersOnce_ok rfl rfl _ _
  · exact ⟨⟨refusedCode, 0, 0⟩, rfl, rfl, wellCoded_refused⟩

/-- Absorbing bytes answers nothing and takes nothing from the host. -/
theorem absorb_channels {data : ByteString} {s t : State} (h : absorb data s = .ok t) :
    t.output = s.output ∧ t.input = s.input := by
  rcases absorb_ok_cases h with rfl | hn
  · exact ⟨rfl, rfl⟩
  · obtain ⟨u, hu, -, -, -, -, -, -, -, -, -, hi, ho, -⟩ := absorb_spec data hn
    obtain rfl : u = t := Except.ok.inj (hu.symm.trans h)
    exact ⟨ho, hi⟩

theorem ExecTo.answersOnce {i : Instr} {s u : State} (h : ExecTo s i u) : AnswersOnce s u := by
  cases h with
  | raised _ c => exact answersOnce_raise s c
  | answered _ r0 r1 => exact answersOnce_ok rfl rfl r0 r1
  | keyLoaded image closed => exact answersOnce_ok rfl rfl 0 0
  | sinkOpened m seed keyed => exact answersOnce_ok rfl rfl 0 0
  | bytesTaken data t stream fits taken =>
    obtain ⟨ho, hi⟩ := absorb_channels taken
    exact answersOnce_ok (t := t.afterUpdate data.length) ho hi 0 0
  | digested r0 r1 started => exact answersOnce_ok rfl rfl r0 r1

/-- A transaction gets one response, whether it reaches a command or not (R150). -/
theorem transact_answersOnce {t : Transaction} {s u : State} (h : transact t s = .next u) : AnswersOnce s u := by
  cases hf : s.fault with
  | true =>
    obtain rfl := Host.Outcome.next.inj ((transact_faulted hf t).symm.trans h)
    exact answersOnce_answerFaulted t s
  | false =>
    cases hd : decode t with
    | ok i => exact (exec_cases ((transact_ok hf hd).symm.trans h)).answersOnce
    | error reject =>
      obtain rfl := Host.Outcome.next.inj ((transact_error hf hd).symm.trans h)
      exact answersOnce_raise s _

/-- Settles O51: the invariant keeps a transaction from stopping the block, and one that does not stop it gets one
response. -/
theorem everyTransactionGetsOneResponse : Obligations.EveryTransactionGetsOneResponse := by
  unfold Obligations.EveryTransactionGetsOneResponse
  intro s t rest inv
  obtain ⟨u, taken⟩ := transact_next (s := s.withInput rest) (fun started => (inv.sink started).bufnLe) t
  obtain ⟨r, output, input, codes, zeros⟩ := transact_answersOnce taken
  exact ⟨u, r, (step_transaction s t rest).trans taken, output, input, codes, zeros⟩

end Sys2Proof.Safety

end

section
/-! PROOFS. The word primitives on integers, and the two lanes they act on (R80 to R83, R86, R88, R89). -/

namespace Sys2Proof.Machine

/-! ### Words as integers -/

theorem add64_toNat (a b : Word) : (add64 a b).toNat = (a.toNat + b.toNat) % 2 ^ 64 := BitVec.toNat_add a b

theorem mul64_toNat (a b : Word) : (mul64 a b).toNat = a.toNat * b.toNat % 2 ^ 64 := BitVec.toNat_mul a b

theorem shr64_toNat (a : Word) (s : Nat) : (shr64 a s).toNat = a.toNat / 2 ^ s := by
  rw [shr64, BitVec.toNat_ushiftRight, Nat.shiftRight_eq_div_pow]

theorem shl64_toNat (a : Word) (s : Nat) : (shl64 a s).toNat = a.toNat * 2 ^ s % 2 ^ 64 := by
  rw [shl64, BitVec.toNat_shiftLeft, Nat.shiftLeft_eq]

/-- 128 bits hold the product of two words, so nothing wraps (R86). -/
theorem mul128_toNat (a b : Word) : (mul128 a b).toNat = a.toNat * b.toNat := by
  have ha : (a.setWidth 128).toNat = a.toNat := BitVec.toNat_setWidth_of_le (by decide)
  have hb : (b.setWidth 128).toNat = b.toNat := BitVec.toNat_setWidth_of_le (by decide)
  have fits : a.toNat * b.toNat < 2 ^ 64 * 2 ^ 64 := Nat.mul_lt_mul'' a.isLt b.isLt
  rw [mul128, BitVec.toNat_mul_of_lt (by rwa [ha, hb, show 128 = 64 + 64 from rfl, Nat.pow_add]), ha, hb]

theorem add128_toNat (a b : DWord) : (add128 a b).toNat = (a.toNat + b.toNat) % 2 ^ 128 := BitVec.toNat_add a b

/-! ### Lanes as integers -/

theorem lo64_toNat (v : DWord) : (lo64 v).toNat = v.toNat % 2 ^ 64 := by
  rw [lo64, BitVec.extractLsb'_toNat, Nat.shiftRight_zero]

theorem cat_toNat (h l : Word) : (cat h l).toNat = h.toNat * 2 ^ 64 + l.toNat := by
  rw [cat, BitVec.toNat_append, ← Nat.shiftLeft_add_eq_or_of_lt l.isLt, Nat.shiftLeft_eq]

theorem toNat_eq_lanes (v : DWord) : v.toNat = (hi64 v).toNat * 2 ^ 64 + (lo64 v).toNat := by
  rw [← cat_toNat, cat_hi64_lo64]

/-- An addend whose low lane is 0 sends no carry out of the low lane (R88). -/
theorem add128_cat_zero (a : DWord) (t : Word) : add128 a (cat t 0) = cat (add64 (hi64 a) t) (lo64 a) := by
  have low := (lo64 a).isLt
  have lanes := toNat_eq_lanes a
  apply BitVec.eq_of_toNat_eq
  rw [add128_toNat, cat_toNat, cat_toNat, add64_toNat, show (0 : Word).toNat = 0 from rfl]
  omega

end Sys2Proof.Machine

namespace Sys2Proof.Safety

open Sys2Proof Sys2Proof.Machine

/-- Settles O9: each primitive's value as an integer. -/
theorem wordArithmeticOnIntegers : Obligations.WordArithmeticOnIntegers := by
  unfold Obligations.WordArithmeticOnIntegers
  intro a b s _
  exact ⟨add64_toNat a b, mul64_toNat a b, shr64_toNat a s, shl64_toNat a s, mul128_toNat a b⟩

/-- Settles O12: the sum on integers, and on the two lanes when the addend has only a high one. -/
theorem tagAdditionLeavesTheLowLane : Obligations.TagAdditionLeavesTheLowLane := by
  unfold Obligations.TagAdditionLeavesTheLowLane
  exact ⟨add128_toNat, add128_cat_zero⟩

/-- Settles O13: each lane of a shifted value is the shifted lane. -/
theorem laneShiftsDoNotCrossLanes : Obligations.LaneShiftsDoNotCrossLanes := by
  unfold Obligations.LaneShiftsDoNotCrossLanes
  refine ⟨fun v s _ => ⟨?low, ?high⟩, fun v w s _ => laneshl_xor v w s, fun v s t _ => laneshl_laneshl v s t,
    by decide, by decide⟩
  case low => rw [lo64_laneshl, shl64_toNat]
  case high => rw [hi64_laneshl, shl64_toNat]

end Sys2Proof.Safety

end

section
/-! PROOFS. Rotation: the model's formula is the library's rotation, whose bits are known (R84). -/

namespace Sys2Proof.Machine

@[simp] theorem rotl64_zero (a : Word) : rotl64 a 0 = a := rfl

theorem rotl64_of_pos {r : Nat} (hpos : 1 ≤ r) (hr : r ≤ 63) (a : Word) :
    rotl64 a r = shl64 a r ||| shr64 a (64 - r) := by
  have small : r % 64 = r := Nat.mod_eq_of_lt (by omega)
  rw [rotl64, small, if_neg (by omega)]

theorem rotl64_mod (a : Word) (r : Nat) : rotl64 a (r % 64) = rotl64 a r := by
  simp only [rotl64, Nat.mod_mod]

/-- A count of 0 needs no case of its own: the right shift by 64 leaves nothing. -/
theorem rotl64_eq_rotateLeft (a : Word) (r : Nat) : rotl64 a r = a.rotateLeft r := by
  rw [rotl64, BitVec.rotateLeft_def]
  split
  next noTurn => simp [noTurn, BitVec.ushiftRight_eq_zero]
  next => rfl

/-- Bit `i` goes to place `(i + r) mod 64` (R84): a bit that passes place 63 comes back in from place 0. -/
theorem rotl64_getLsbD (a : Word) (r : Nat) {i : Nat} (hi : i < 64) :
    (rotl64 a r).getLsbD ((i + r) % 64) = a.getLsbD i := by
  have count : r % 64 < 64 := Nat.mod_lt r (by decide)
  rw [rotl64_eq_rotateLeft, BitVec.getLsbD_rotateLeft]
  rcases Nat.lt_or_ge (i + r % 64) 64 with inside | wrapped
  · have place : (i + r) % 64 = i + r % 64 := by omega
    have notBelow : ¬ i + r % 64 < r % 64 := by omega
    simp [place, notBelow, inside]
  · have place : (i + r) % 64 = i + r % 64 - 64 := by omega
    have below : i + r % 64 - 64 < r % 64 := by omega
    have origin : 64 - r % 64 + (i + r % 64 - 64) = i := by omega
    simp [place, below, origin]

end Sys2Proof.Machine

namespace Sys2Proof.Safety

open Sys2Proof Sys2Proof.Machine

/-- Settles O10, from the formula and the place of each bit. -/
theorem rotationLosesNoBit : Obligations.RotationLosesNoBit := by
  unfold Obligations.RotationLosesNoBit
  exact ⟨rotl64_zero, fun a _ hpos hr => rotl64_of_pos hpos hr a, fun a r => (rotl64_mod a r).symm,
    fun a r _ hi => rotl64_getLsbD a r hi, by decide, by decide⟩

end Sys2Proof.Safety

end

section
/-! PROOFS. The carry-less product (R87). Spread out, it is a sum of `2^(i + j)` over the bits `i` of one factor and `j`
of the other; this form is symmetric, so every law of one factor is a law of the other. -/

namespace Sys2Proof.Machine

/-! ### Sums of 128-bit values -/

/-- Bit `k` of a sum is the sum of the bits `k`. -/
theorem xorAll_getLsbD (vs : List DWord) (k : Nat) :
    (xorAll vs).getLsbD k = vs.foldr (fun v acc => v.getLsbD k ^^ acc) false := by
  induction vs with
  | nil => simp
  | cons v vs ih => rw [xorAll_cons, BitVec.getLsbD_xor, ih, List.foldr_cons]

theorem xorAll_getLsbD_eq_false {vs : List DWord} {k : Nat} (h : ∀ v ∈ vs, v.getLsbD k = false) :
    (xorAll vs).getLsbD k = false := by
  induction vs with
  | nil => simp
  | cons v vs ih =>
    obtain ⟨hv, hvs⟩ := List.forall_mem_cons.mp h
    rw [xorAll_cons, BitVec.getLsbD_xor, hv, ih hvs, Bool.false_xor]

theorem xorAll_shiftLeft (vs : List DWord) (n : Nat) :
    xorAll vs <<< n = xorAll (vs.map fun v : DWord => v <<< n) := by
  induction vs with
  | nil => simp
  | cons v vs ih => rw [xorAll_cons, BitVec.shiftLeft_xor_distrib, ih, List.map_cons, xorAll_cons]

@[simp] theorem xorAll_replicate_zero (n : Nat) : xorAll (List.replicate n 0#128) = 0#128 := by
  induction n with
  | zero => simp
  | succ n ih => simp [List.replicate_succ, ih]

/-- The terms that a condition leaves out add nothing. -/
theorem xorAll_map_ite {α : Type} (p : α → Bool) (f : α → DWord) (l : List α) :
    xorAll (l.map fun x => if p x then f x else 0) = xorAll ((l.filter p).map f) := by
  induction l with
  | nil => simp
  | cons x l ih =>
    rw [List.map_cons, xorAll_cons, ih]
    cases hp : p x <;> simp [hp]

/-- A double sum in either order. -/
theorem xorAll_map_comm {α β : Type} (f : α → β → DWord) (l : List α) (m : List β) :
    xorAll (l.map fun x => xorAll (m.map fun y => f x y)) = xorAll (m.map fun y => xorAll (l.map fun x => f x y)) := by
  induction l with
  | nil => simp
  | cons x l ih => simp only [List.map_cons, xorAll_cons, ih, xorAll_map_xor]

/-! ### A word as the sum of its bits -/

/-- The sum of the powers `2^i` with `i < n` that a condition picks. -/
theorem xorAll_twoPow_getLsbD (p : Nat → Bool) {n : Nat} (hn : n ≤ 128) (k : Nat) :
    (xorAll ((List.range n).map fun i => if p i then BitVec.twoPow 128 i else 0)).getLsbD k =
      (decide (k < n) && p k) := by
  induction n with
  | zero => simp
  | succ n ih =>
    have term : (if p n then BitVec.twoPow 128 n else 0).getLsbD k = (decide (n = k) && p k) := by
      rcases eq_or_ne n k with rfl | other
      · cases p n <;> simp [show n < 128 by omega]
      · cases p n <;> simp [BitVec.getLsbD_twoPow, other]
    rw [xorAll_map_range_succ, BitVec.getLsbD_xor, ih (by omega), term]
    rcases Nat.lt_trichotomy k n with before | rfl | after
    · simp [before, before.ne', show k < n + 1 by omega]
    · simp
    · simp [after.ne, show ¬ k < n by omega, show ¬ k < n + 1 by omega]

theorem setWidth_eq_xorAll (a : Word) :
    a.setWidth 128 = xorAll ((List.range 64).map fun i => if a.getLsbD i then BitVec.twoPow 128 i else 0) := by
  apply BitVec.eq_of_getLsbD_eq
  intro k hk
  rw [xorAll_twoPow_getLsbD _ (by decide), BitVec.getLsbD_setWidth]
  rcases Nat.lt_or_ge k 64 with low | high
  · simp [low, hk]
  · simp [BitVec.getLsbD_of_ge a k high]

/-! ### The product -/

/-- The product spread out over the bits of both factors (R87). -/
theorem clmul_eq_double_sum (a b : Word) :
    clmul a b = xorAll ((List.range 64).map fun i => xorAll ((List.range 64).map fun j =>
      if b.getLsbD i && a.getLsbD j then BitVec.twoPow 128 (i + j) else 0)) := by
  have term (i j : Nat) : (if a.getLsbD j then BitVec.twoPow 128 j else 0) <<< i =
      if a.getLsbD j then BitVec.twoPow 128 (i + j) else 0 := by
    cases a.getLsbD j
    · simp
    · simp [BitVec.twoPow_eq, ← BitVec.shiftLeft_add, Nat.add_comm]
  unfold clmul
  congr 1
  refine List.map_congr_left fun i _ => ?_
  cases b.getLsbD i
  · simp
  · rw [if_pos rfl, setWidth_eq_xorAll a, xorAll_shiftLeft, List.map_map]
    simp only [Function.comp_def, term, Bool.true_and]

theorem clmul_comm (a b : Word) : clmul a b = clmul b a := by
  rw [clmul_eq_double_sum, clmul_eq_double_sum, xorAll_map_comm]
  simp only [Bool.and_comm, Nat.add_comm]

theorem clmul_xor_left (a a' b : Word) : clmul (a ^^^ a') b = clmul a b ^^^ clmul a' b := by
  unfold clmul
  rw [← xorAll_map_xor]
  congr 1
  refine List.map_congr_left fun i _ => ?_
  cases b.getLsbD i
  · simp
  · simp [BitVec.setWidth_xor, BitVec.shiftLeft_xor_distrib]

theorem clmul_xor_right (a b b' : Word) : clmul a (b ^^^ b') = clmul a b ^^^ clmul a b' := by
  rw [clmul_comm, clmul_xor_left, clmul_comm b, clmul_comm b']

@[simp] theorem clmul_zero_left (b : Word) : clmul 0 b = 0 := by
  simpa using clmul_xor_left 0 0 b

theorem clmul_one_left (b : Word) : clmul 1 b = b.setWidth 128 := by
  rw [setWidth_eq_xorAll b]
  simp [clmul, BitVec.twoPow_eq]

/-- The equivalent form of R87: only the bits of `b` that are 1 add a multiple of `a`. -/
theorem clmul_eq_filtered_sum (a b : Word) :
    clmul a b = xorAll (((List.range 64).filter fun i => b.getLsbD i).map fun i =>
      a.setWidth 128 * BitVec.ofNat 128 (2 ^ i)) := by
  have power (i : Nat) : BitVec.ofNat 128 (2 ^ i) = BitVec.twoPow 128 i := by
    apply BitVec.eq_of_toNat_eq
    rw [BitVec.toNat_ofNat, BitVec.toNat_twoPow]
  unfold clmul
  simp only [xorAll_map_ite, power, BitVec.shiftLeft_eq_mul_twoPow]

/-- Bit `k` of the product: the bits `i` and `k - i` of the factors, over all `i` (R87). -/
theorem clmul_getLsbD (a b : Word) {k : Nat} (hk : k < 128) :
    (clmul a b).getLsbD k =
      (List.range 64).foldr (fun i acc => (a.getLsbD i && (decide (i ≤ k) && b.getLsbD (k - i))) ^^ acc) false := by
  have term (i : Nat) : (if a.getLsbD i then b.setWidth 128 <<< i else 0).getLsbD k =
      (a.getLsbD i && (decide (i ≤ k) && b.getLsbD (k - i))) := by
    cases a.getLsbD i
    · simp
    · rcases Nat.lt_or_ge k i with before | reached
      · simp [before, Nat.not_le.mpr before]
      · simp [hk, reached, Nat.not_lt.mpr reached]
  rw [clmul_comm, clmul, xorAll_getLsbD, List.foldr_map]
  simp only [term]

/-- The highest place a product reaches is 63 + 63 (R87). -/
theorem clmul_getLsbD_last (a b : Word) : (clmul a b).getLsbD 127 = false := by
  refine xorAll_getLsbD_eq_false fun v hv => ?_
  obtain ⟨i, hi, rfl⟩ := List.mem_map.mp hv
  rw [List.mem_range] at hi
  have beyond : a.getLsbD (127 - i) = false := BitVec.getLsbD_of_ge a _ (by omega)
  cases b.getLsbD i
  · simp
  · simp [beyond]

end Sys2Proof.Machine

namespace Sys2Proof.Safety

open Sys2Proof Sys2Proof.Machine

/-- Settles O11: the laws of the product, and its examples by evaluation. -/
theorem carrylessProductBitByBit : Obligations.CarrylessProductBitByBit := by
  unfold Obligations.CarrylessProductBitByBit
  exact ⟨fun a b _ hk => clmul_getLsbD a b hk, clmul_eq_filtered_sum, clmul_comm, clmul_xor_left, clmul_xor_right,
    clmul_getLsbD_last, fun b => ⟨clmul_zero_left b, clmul_one_left b⟩, by decide, by decide, by decide, by decide, by decide⟩

end Sys2Proof.Safety

end

section
/-! PROOFS. The packing of a short input (R100). Its two words read a front piece and a back piece of the input that
together reach every byte, so inputs of one length with equal packings are equal. -/

namespace Sys2Proof.Machine

/-! ### Little-endian numbers of a few bytes -/

theorem leNat_injective {a b : ByteString} (len : a.length = b.length) (h : leNat a = leNat b) : a = b := by
  rw [← leBytes_leNat a, ← leBytes_leNat b, len, h]

theorem leNat_lt_of_length_le {b : ByteString} {n : Nat} (h : b.length ≤ n) : leNat b < 256 ^ n :=
  (leNat_lt b).trans_le (Nat.pow_le_pow_right (by decide) h)

@[simp] theorem leNat_singleton (b : Byte) : leNat [b] = b.toNat := by simp [leNat]

@[simp] theorem leNat_pair (a b : Byte) : leNat [a, b] = a.toNat + 256 * b.toNat := by simp [leNat]

theorem le16_toNat {b : ByteString} (h : b.length ≤ 2) : (le16 b).toNat = leNat b :=
  Nat.mod_eq_of_lt (leNat_lt_of_length_le h)

theorem le32_toNat {b : ByteString} (h : b.length ≤ 4) : (le32 b).toNat = leNat b :=
  Nat.mod_eq_of_lt (leNat_lt_of_length_le h)

theorem le64_toNat {b : ByteString} (h : b.length ≤ 8) : (le64 b).toNat = leNat b :=
  Nat.mod_eq_of_lt (leNat_lt_of_length_le h)

/-! ### The two pieces the packing reads -/

/-- Where the piece read into the low word ends, for an input of `n` bytes (R100). -/
def frontStop (n : Nat) : Nat := if 4 ≤ n then 4 else n % 2

/-- Where the piece read into the high word starts, for an input of `n` bytes (R100). -/
def backStart (n : Nat) : Nat := if 4 ≤ n then n - 4 else n % 2

/-- The back piece starts no later than the front piece ends: no byte is left out. -/
theorem backStart_le_frontStop {n : Nat} (h : n ≤ 8) : backStart n ≤ frontStop n := by
  unfold backStart frontStop
  split <;> omega

/-- The low word is the front piece, for any input. -/
theorem packLow_toNat (d : ByteString) : (packLow d).toNat = leNat (d.take (frontStop d.length)) := by
  rcases Nat.lt_or_ge d.length 4 with short | long
  · rw [packLow, if_neg short.not_ge, frontStop, if_neg short.not_ge, Nat.testBit_zero]
    rcases Nat.mod_two_eq_zero_or_one d.length with even | odd
    · simp [even, leNat]
    · obtain ⟨first, rest, rfl⟩ := List.exists_cons_of_length_pos (Nat.odd_iff.mpr odd).pos
      rw [if_pos (decide_eq_true odd), odd, List.take_succ_cons, List.take_zero, leNat_singleton]
      exact BitVec.toNat_setWidth_of_le (by decide)
  · rw [packLow, if_pos long, slice_zero_left, le32_toNat (by simp), frontStop, if_pos long]

/-- Below four bytes the length's bit 1 says whether there are two bytes for the high word (R100). -/
theorem testBit_one_of_lt_four {n : Nat} (h : n < 4) : n.testBit 1 = decide (2 ≤ n) := by
  rw [Nat.testBit_eq_decide_div_mod_eq, decide_eq_decide]
  omega

/-- The high word is the back piece, for any input. -/
theorem packHigh_toNat (d : ByteString) : (packHigh d).toNat = leNat (d.drop (backStart d.length)) := by
  rcases Nat.lt_or_ge d.length 4 with short | long
  · rw [packHigh, if_neg short.not_ge, backStart, if_neg short.not_ge, testBit_one_of_lt_four short]
    rcases Nat.lt_or_ge d.length 2 with few | two
    · rw [if_neg (by simp [few]), List.drop_eq_nil_of_le (by omega)]
      rfl
    · have start : d.length - 2 = d.length % 2 := by omega
      rw [if_pos (decide_eq_true two), slice_to_end _ _ _ le_rfl, BitVec.toNat_setWidth_of_le (by decide),
        le16_toNat (by rw [List.length_drop]; omega), start]
  · rw [packHigh, if_pos long, slice_to_end _ _ _ le_rfl, le32_toNat (by rw [List.length_drop]; omega), backStart,
      if_pos long]

/-- The packing as an integer: each word in its half (R100). -/
theorem vecToU64_toNat_words (d : ByteString) :
    (vecToU64 d).toNat = (packHigh d).toNat * 2 ^ 32 + (packLow d).toNat := by
  have high := (packHigh d).isLt
  have shifted : (shl64 ((packHigh d).setWidth 64) 32).toNat = (packHigh d).toNat <<< 32 := by
    rw [shl64_toNat, BitVec.toNat_setWidth_of_le (by decide), Nat.shiftLeft_eq]
    omega
  rw [vecToU64, BitVec.toNat_or, shifted, BitVec.toNat_setWidth_of_le (by decide),
    ← Nat.shiftLeft_add_eq_or_of_lt (packLow d).isLt, Nat.shiftLeft_eq]

/-- Neither word spills into the other's half, so the packing determines both. -/
theorem words_eq_of_vecToU64_eq {a b : ByteString} (h : vecToU64 a = vecToU64 b) :
    packHigh a = packHigh b ∧ packLow a = packLow b := by
  have lowA := (packLow a).isLt
  have lowB := (packLow b).isLt
  have sums := congrArg BitVec.toNat h
  rw [vecToU64_toNat_words, vecToU64_toNat_words] at sums
  exact ⟨BitVec.eq_of_toNat_eq (by omega), BitVec.eq_of_toNat_eq (by omega)⟩

/-- The packing as an integer: the two pieces, each in its half (R100). -/
theorem vecToU64_toNat (d : ByteString) :
    (vecToU64 d).toNat =
      leNat (d.drop (backStart d.length)) * 2 ^ 32 + leNat (d.take (frontStop d.length)) := by
  rw [vecToU64_toNat_words, packHigh_toNat, packLow_toNat]

theorem eq_of_take_eq_of_drop_eq {α : Type} {a b : List α} {s e : Nat} (covered : s ≤ e)
    (front : a.take e = b.take e) (back : a.drop s = b.drop s) : a = b := by
  have rest : a.drop e = b.drop e := by
    rw [← Nat.add_sub_cancel' covered, ← List.drop_drop, ← List.drop_drop, back]
  rw [← List.take_append_drop e a, ← List.take_append_drop e b, front, rest]

/-- Equal packings have equal words, hence equal pieces, and the pieces hold every byte (R100). -/
theorem vecToU64_injective {a b : ByteString} (len : a.length = b.length) (short : a.length ≤ 8)
    (h : vecToU64 a = vecToU64 b) : a = b := by
  obtain ⟨highWord, lowWord⟩ := words_eq_of_vecToU64_eq h
  have low : leNat (a.take (frontStop a.length)) = leNat (b.take (frontStop a.length)) := by
    rw [← packLow_toNat, lowWord, packLow_toNat, len]
  have high : leNat (a.drop (backStart a.length)) = leNat (b.drop (backStart a.length)) := by
    rw [← packHigh_toNat, highWord, packHigh_toNat, len]
  exact eq_of_take_eq_of_drop_eq (backStart_le_frontStop short) (leNat_injective (by simp [len]) low)
    (leNat_injective (by simp [len]) high)

end Sys2Proof.Machine

namespace Sys2Proof.Safety

open Sys2Proof Sys2Proof.Machine

/-- Settles O14: each length's formula is the two pieces read at that length, and the pieces give injectivity. -/
theorem packingIsInjectivePerLength : Obligations.PackingIsInjectivePerLength := by
  unfold Obligations.PackingIsInjectivePerLength
  refine ⟨by decide, fun a => ?one, fun a b => ?two, fun a b c => ?three, fun d four _ => ?fourUp,
    fun d len => ?eight, fun _ _ len short same => vecToU64_injective len short same, by decide, by decide, by decide,
    by decide, by decide, by decide, by decide⟩
  case one =>
    apply BitVec.eq_of_toNat_eq
    rw [vecToU64_toNat, BitVec.toNat_setWidth_of_le (by decide)]
    simp [backStart, frontStop, leNat]
  case two => simp [vecToU64_toNat, backStart, frontStop, leNat]
  case three => simp [vecToU64_toNat, backStart, frontStop]
  case fourUp => rw [vecToU64_toNat, backStart, frontStop, if_pos four, if_pos four]
  case eight =>
    apply BitVec.eq_of_toNat_eq
    have halves := leNat_append (d.take 4) (d.drop 4)
    rw [List.take_append_drop, List.length_take, len] at halves
    rw [vecToU64_toNat, le64_toNat len.le, len, halves, Nat.add_comm, Nat.mul_comm]
    rfl

end Sys2Proof.Safety

end

section
/-! PROOFS. The short mix (R101 to R104, R159): for a fixed noise it is a chain of permutations of the words. -/

namespace Sys2Proof.Machine

/-! ### Steps that lose nothing -/

/-- A word folded onto itself, shifted right: the step that opens both rounds and closes the mix (R101). -/
def xorShift (s : Nat) (v : Word) : Word := v ^^^ shr64 v s

theorem xorShift_xor (s : Nat) (v w : Word) : xorShift s (v ^^^ w) = xorShift s v ^^^ xorShift s w := by
  simp only [xorShift, shr64, BitVec.ushiftRight_xor_distrib]
  ac_rfl

/-- The difference of two words with one image equals its own shift, so it is 0: a shift makes any other word
smaller. -/
theorem xorShift_injective {s : Nat} (hs : s ≠ 0) : Function.Injective (xorShift s) := by
  intro v w same
  have fixed : v ^^^ w = shr64 (v ^^^ w) s := by
    rw [← BitVec.xor_eq_zero_iff, ← xorShift, xorShift_xor, same, BitVec.xor_self]
  have zero : (v ^^^ w).toNat = 0 := by
    by_contra nonzero
    have smaller := Nat.div_lt_self (Nat.pos_of_ne_zero nonzero) (Nat.one_lt_two_pow hs)
    rw [← shr64_toNat, ← fixed] at smaller
    exact smaller.false
  exact BitVec.xor_eq_zero_iff.mp (BitVec.eq_of_toNat_eq zero)

/-- Multiplying by a word that has an inverse. -/
theorem mul64_injective {c c' : Word} (inverse : c * c' = 1) : Function.Injective fun v => mul64 v c :=
  (IsUnit.of_mul_eq_one c' inverse).mul_left_injective

/-! ### The mix as a chain of these steps -/

theorem shortRounds_eq (h0 noise : Word) :
    shortRounds h0 noise =
      xorShift 31 (mul64 (xorShift 27 (mul64 (xorShift 30 h0) Config.c1) ^^^ noise) Config.c2) := by
  have reorder (h2 : Word) : h2 ^^^ noise ^^^ shr64 h2 27 = xorShift 27 h2 ^^^ noise := by
    rw [xorShift]
    ac_rfl
  simp only [shortRounds, params, xorShift, reorder]

theorem shortRounds_injective (noise : Word) : Function.Injective fun h0 => shortRounds h0 noise := by
  have first := mul64_injective (c := Config.c1) (c' := 0x96DE1B173F119089) (by decide)
  have second := mul64_injective (c := Config.c2) (c' := 0x319642B2D24D8EC3) (by decide)
  intro v w same
  simp only [shortRounds_eq] at same
  have mixed := second (xorShift_injective (by decide) same)
  exact xorShift_injective (by decide) (first (xorShift_injective (by decide) ((BitVec.xor_left_inj noise).mp mixed)))

theorem shortMix_injective {k : Key} {seed : Word} {w : Which} {a b : ByteString} (len : a.length = b.length)
    (short : a.length ≤ 8) (same : shortMix k seed w a = shortMix k seed w b) : a = b := by
  rw [shortMix, shortMix, len] at same
  exact vecToU64_injective len short (shortRounds_injective _ same)

/-! ### The short path -/

theorem fprint_short (k : Key) (seed : Word) {d : ByteString} (short : d.length ≤ 8) :
    fprint k seed d = (shortMix k seed .primary d, shortMix k seed .secondary d) := if_pos short

theorem hashOf_short (k : Key) (seed : Word) (w : Which) {d : ByteString} (short : d.length ≤ 8) :
    hashOf k seed w d = shortMix k seed w d := by
  cases w <;> rw [hashOf, fprint_short k seed short]

theorem shortNoise_primary (k : Key) (seed : Word) (n : Nat) :
    shortNoise k seed .primary n = seed + keyWord k (4 + n) := rfl

theorem shortNoise_secondary (k : Key) (seed : Word) (n : Nat) :
    shortNoise k seed .secondary n = seed + keyWord k (8 + n) := by
  have place : 4 + shortIndex .secondary n = 8 + n := by
    simp only [shortIndex, params]
    omega
  rw [shortNoise, oh, place, add64]

/-- With no noise the mix of the empty input is 0 (R104): its key word is `OH[0]` or `OH[4]` (R102). -/
theorem shortMix_nil_eq_zero {k : Key} (zeros : ∀ i < 34, oh k i = 0) (w : Which) : shortMix k 0 w [] = 0 := by
  have inside : shortIndex w 0 < 34 := by cases w <;> decide
  rw [shortMix, shortNoise, List.length_nil, zeros _ inside]
  decide

end Sys2Proof.Machine

namespace Sys2Proof.Safety

open Sys2Proof Sys2Proof.Machine

/-- Settles O15: the short path is taken, and its noise is the key word of the length. -/
theorem shortInputsTakeTheShortMix : Obligations.ShortInputsTakeTheShortMix := by
  unfold Obligations.ShortInputsTakeTheShortMix
  refine ⟨fun k seed d short w x h1 h2 h3 h4 hx e1 e2 e3 e4 => ?mix, fun k zeros => ?empty⟩
  case mix =>
    have noise : shortNoise k seed w d.length = seed + x := by
      rw [hx]
      cases w
      case primary => exact shortNoise_primary k seed d.length
      case secondary => exact shortNoise_secondary k seed d.length
    rw [hashOf_short k seed w short, shortMix, noise]
    subst e4 e3 e2 e1
    rfl
  case empty =>
    rw [fprint_short k 0 (d := []) (by decide), shortMix_nil_eq_zero zeros, shortMix_nil_eq_zero zeros]

/-- Settles O16: the mix of inputs of one length is injective, and it is their hash. -/
theorem shortInputsOfOneLengthNeverCollide : Obligations.ShortInputsOfOneLengthNeverCollide := by
  unfold Obligations.ShortInputsOfOneLengthNeverCollide
  intro k seed w a b len short different
  have mixes : shortMix k seed w a ≠ shortMix k seed w b := fun same => different (shortMix_injective len short same)
  refine ⟨mixes, ?_⟩
  rwa [hashOf_short k seed w short, hashOf_short k seed w (len ▸ short)]

end Sys2Proof.Safety

end

section
/-! PROOFS. The chunks of an input (R110): the chunks the sink has closed, and one last chunk. -/

namespace Sys2Proof.Machine

/-! ### Lists built by index -/

theorem slice_map_range {α : Type} (f : Nat → α) {n i j : Nat} (h : j ≤ n) :
    slice ((List.range n).map f) i j = (List.range (j - i)).map fun k => f (i + k) := by
  apply List.ext_getElem?
  intro k
  rw [slice_getElem?, List.getElem?_map, List.getElem?_map]
  rcases Nat.lt_or_ge k (j - i) with inside | outside
  · rw [if_pos inside, List.getElem?_range inside, List.getElem?_range (by omega)]
    rfl
  · rw [if_neg outside.not_gt, List.getElem?_eq_none (by simpa using outside)]
    rfl

/-- Chunks of one true size. -/
theorem sum_map_snd_of_one_size {α β : Type} (f : α → β) (size : Nat) (l : List α) :
    ((l.map fun x => (f x, size)).map Prod.snd).sum = l.length * size := by
  rw [List.map_map, ← smul_eq_mul, ← List.sum_replicate, ← List.map_const']
  rfl

end Sys2Proof.Machine

namespace Sys2Proof.Safety

open Sys2Proof Sys2Proof.Machine

/-! ### The closed chunks and the last one -/

/-- The last chunk of an input: its first and last 8 bytes below 16 bytes, else its last 16 (R110). -/
def finalChunk (d : ByteString) : ByteString :=
  if d.length < 16 then d.take 8 ++ d.drop (d.length - 8) else d.drop (d.length - 16)

/-- The closed chunks, aligned and of true size 16, and the last one with the bytes left (R110). -/
theorem chunkBytes_eq (d : ByteString) :
    chunkBytes d = ((List.range (closedChunks d.length)).map fun j => (inputChunk d j, 16)) ++
      [(finalChunk d, d.length - 16 * closedChunks d.length)] := by
  rw [chunkBytes, finalChunk]
  rcases Nat.lt_or_ge d.length 16 with short | long
  · rw [if_pos short, if_pos short, show closedChunks d.length = 0 by unfold closedChunks; omega, slice_zero_left,
      slice_to_end _ _ _ le_rfl]
    rfl
  · have count : (d.length + 15) / 16 - 1 = closedChunks d.length := by
      unfold closedChunks
      omega
    simp only [if_neg long.not_gt, slice_to_end _ _ _ le_rfl, count]
    rfl

theorem closedChunks_bounds {n : Nat} (h : 1 ≤ n) : 16 * closedChunks n < n ∧ n ≤ 16 * closedChunks n + 16 := by
  unfold closedChunks
  omega

theorem chunkBytes_length (d : ByteString) : (chunkBytes d).length = closedChunks d.length + 1 := by
  simp [chunkBytes_eq]

theorem chunkBytes_getElem? {d : ByteString} {j : Nat} (h : j < closedChunks d.length) :
    (chunkBytes d)[j]? = some (inputChunk d j, 16) := by
  rw [chunkBytes_eq, List.getElem?_append_left (by simpa using h), List.getElem?_map, List.getElem?_range h]
  rfl

theorem chunkBytes_getLast? (d : ByteString) :
    (chunkBytes d).getLast? = some (finalChunk d, d.length - 16 * closedChunks d.length) := by
  rw [chunkBytes_eq, List.getLast?_concat]

theorem inputChunk_length {d : ByteString} {j : Nat} (h : 16 * j + 16 ≤ d.length) : (inputChunk d j).length = 16 := by
  rw [inputChunk, slice_length]
  omega

theorem finalChunk_length {d : ByteString} (h : 8 ≤ d.length) : (finalChunk d).length = 16 := by
  unfold finalChunk
  split
  · rw [List.length_append, List.length_take, List.length_drop]
    omega
  · rw [List.length_drop]
    omega

/-- Settles O17: the closed chunks are full, and the last one has the bytes left. -/
theorem chunksCoverTheInput : Obligations.ChunksCoverTheInput := by
  unfold Obligations.ChunksCoverTheInput
  intro d eight
  obtain ⟨left, fits⟩ := closedChunks_bounds (show 1 ≤ d.length by omega)
  rw [chunkBytes_length]
  refine ⟨by omega, ?sizes, fun c member => ?chunk, fun j inside => chunkBytes_getElem? (by omega), ?last⟩
  case sizes =>
    rw [chunkBytes_eq, List.map_append, List.sum_append, sum_map_snd_of_one_size, List.length_range,
      List.map_singleton, List.sum_singleton]
    omega
  case chunk =>
    rw [chunkBytes_eq, List.mem_append, List.mem_map, List.mem_singleton] at member
    rcases member with ⟨j, closed, rfl⟩ | rfl
    · have closed := List.mem_range.mp closed
      exact ⟨inputChunk_length (by omega), Nat.le_add_left 1 15, le_rfl⟩
    · exact ⟨finalChunk_length eight, by omega, by omega⟩
  case last =>
    split
    case isTrue short =>
      rw [chunkBytes_eq, finalChunk, if_pos short, show closedChunks d.length = 0 by omega]
      rfl
    case isFalse long => rw [chunkBytes_getLast?, finalChunk, if_neg long, Nat.add_sub_cancel]

end Sys2Proof.Safety

end

section
/-! PROOFS. The blocks of a list of chunks (R111); those of an input: the blocks the sink has closed, and a last one. -/

namespace Sys2Proof.Machine

/-! ### Blocks of any list of chunks -/

/-- The chunks of block `b`, with their true sizes (R111). -/
def blockGroup (cs : List (ByteString × Nat)) (b : Nat) : List (ByteString × Nat) := slice cs (16 * b) (16 * b + 16)

/-- A block as a group of chunks makes it (R111). -/
def blockOf (group : List (ByteString × Nat)) : Block := (group.map Prod.fst, (group.map Prod.snd).sum)

theorem blockify_eq (cs : List (ByteString × Nat)) :
    blockify cs = (List.range ((cs.length + 15) / 16)).map fun b => blockOf (blockGroup cs b) := rfl

theorem blockify_length (cs : List (ByteString × Nat)) : (blockify cs).length = (cs.length + 15) / 16 := by
  rw [blockify_eq, List.length_map, List.length_range]

theorem blockify_getElem? {cs : List (ByteString × Nat)} {b : Nat} (h : 16 * b < cs.length) :
    (blockify cs)[b]? = some (blockOf (blockGroup cs b)) := by
  rw [blockify_eq, List.getElem?_map, List.getElem?_range (by omega)]
  rfl

theorem blockGroup_length (cs : List (ByteString × Nat)) (b : Nat) :
    (blockGroup cs b).length = min (16 * b + 16) cs.length - 16 * b := by
  rw [blockGroup, slice_length]
  omega

theorem blockGroup_getElem? {cs : List (ByteString × Nat)} {b i : Nat} (h : i < (blockGroup cs b).length) :
    (blockGroup cs b)[i]? = cs[16 * b + i]? := by
  rw [blockGroup_length] at h
  rw [blockGroup, slice_getElem?, if_pos (by omega)]

end Sys2Proof.Machine

namespace Sys2Proof.Safety

open Sys2Proof Sys2Proof.Machine

/-! ### The blocks of an input -/

/-- The last block of an input: the closed chunks that fill no block, the last chunk, and the bytes left (R111). -/
def finalBlock (d : ByteString) : Block :=
  (chunksOf (fun i => inputChunk d (16 * (closedChunks d.length / 16) + i)) (closedChunks d.length % 16) ++
      [finalChunk d],
    d.length - 256 * (closedChunks d.length / 16))

/-- A block whose chunks are all closed is full. -/
theorem blockOf_blockGroup_closed {d : ByteString} {b : Nat} (h : 16 * b + 16 ≤ closedChunks d.length) :
    blockOf (blockGroup (chunkBytes d) b) = (chunksOf (fun i => inputChunk d (16 * b + i)) 16, 256) := by
  have group : blockGroup (chunkBytes d) b = (List.range 16).map fun i => (inputChunk d (16 * b + i), 16) := by
    rw [blockGroup, chunkBytes_eq, slice_append_left _ _ _ _ (by simpa using h), slice_map_range _ h,
      Nat.add_sub_cancel_left]
  rw [group, blockOf, sum_map_snd_of_one_size, List.length_range, List.map_map]
  rfl

/-- The last block takes the closed chunks left over and the last chunk. -/
theorem blockOf_blockGroup_last (d : ByteString) :
    blockOf (blockGroup (chunkBytes d) (closedChunks d.length / 16)) = finalBlock d := by
  have whole : 16 * (closedChunks d.length / 16) ≤ closedChunks d.length := Nat.mul_div_le _ _
  have group : blockGroup (chunkBytes d) (closedChunks d.length / 16) =
      ((List.range (closedChunks d.length % 16)).map fun i =>
          (inputChunk d (16 * (closedChunks d.length / 16) + i), 16)) ++
        [(finalChunk d, d.length - 16 * closedChunks d.length)] := by
    rw [blockGroup, slice_to_end _ _ _ (by rw [chunkBytes_length]; omega), chunkBytes_eq,
      List.drop_append_of_le_length (by simpa using whole),
      ← slice_to_end _ _ (closedChunks d.length) (by simp), slice_map_range _ le_rfl, ← Nat.mod_eq_sub_mul_div]
  have size : closedChunks d.length % 16 * 16 + (d.length - 16 * closedChunks d.length) =
      d.length - 256 * (closedChunks d.length / 16) := by
    unfold closedChunks
    omega
  rw [group, blockOf, List.map_append, List.map_append, List.sum_append, sum_map_snd_of_one_size, List.length_range,
    List.map_singleton, List.map_singleton, List.sum_singleton, size, List.map_map]
  rfl

/-- The blocks the sink folds as they close, and the last one (R111, R174). -/
theorem blockify_chunkBytes_eq (d : ByteString) :
    blockify (chunkBytes d) = closedBlocks d (closedChunks d.length / 16) ++ [finalBlock d] := by
  have count : ((chunkBytes d).length + 15) / 16 = closedChunks d.length / 16 + 1 := by
    rw [chunkBytes_length]
    omega
  rw [blockify_eq, count, List.range_succ, List.map_append, List.map_singleton, blockOf_blockGroup_last]
  congr 1
  refine List.map_congr_left fun b inside => blockOf_blockGroup_closed ?_
  have inside := List.mem_range.mp inside
  omega

theorem closedBlocks_length (d : ByteString) (n : Nat) : (closedBlocks d n).length = n := by
  rw [closedBlocks, List.length_map, List.length_range]

theorem blockify_chunkBytes_length (d : ByteString) :
    (blockify (chunkBytes d)).length = closedChunks d.length / 16 + 1 := by
  rw [blockify_chunkBytes_eq, List.length_append, closedBlocks_length, List.length_singleton]

theorem blockify_chunkBytes_getElem? {d : ByteString} {b : Nat} (h : b < closedChunks d.length / 16) :
    (blockify (chunkBytes d))[b]? = some (chunksOf (fun i => inputChunk d (16 * b + i)) 16, 256) := by
  rw [blockify_chunkBytes_eq, List.getElem?_append_left (by rwa [closedBlocks_length]), closedBlocks,
    List.getElem?_map, List.getElem?_range h]
  rfl

theorem finalBlock_chunks_length (d : ByteString) : (finalBlock d).1.length = closedChunks d.length % 16 + 1 := by
  simp [finalBlock]

theorem finalBlock_bytes (d : ByteString) : (finalBlock d).2 = d.length - 256 * (closedChunks d.length / 16) := rfl

/-- Settles O18: a block is its group of chunks; the blocks of an input are the closed ones and the last one. -/
theorem blocksAreFullButTheLast : Obligations.BlocksAreFullButTheLast := by
  unfold Obligations.BlocksAreFullButTheLast
  refine ⟨fun cs => ⟨blockify_length cs, fun b inside => ?group⟩, fun d eight => ?input⟩
  case group =>
    exact ⟨blockGroup cs b, blockify_getElem? inside, blockGroup_length cs b, fun i => blockGroup_getElem?⟩
  case input =>
    obtain ⟨left, fits⟩ := closedChunks_bounds (show 1 ≤ d.length by omega)
    rw [blockify_chunkBytes_length, chunkBytes_length]
    refine ⟨by omega, fun b inside => ⟨_, blockify_chunkBytes_getElem? (by omega), chunksOf_length _ _, ?aligned⟩,
      (finalBlock d).1, (finalBlock d).2, ?last⟩
    case aligned =>
      intro i small
      rw [chunksOf, List.getElem?_map, List.getElem?_range small, show 256 * b + 16 * i = 16 * (16 * b + i) by omega]
      rfl
    case last =>
      rw [blockify_chunkBytes_eq, List.getLast?_concat, finalBlock_chunks_length, finalBlock_bytes]
      exact ⟨rfl, by omega, by omega, by omega, by omega, by omega, by omega⟩

end Sys2Proof.Safety

end

section
/-! PROOFS. The tag of a block (R112). -/

namespace Sys2Proof.Machine

/-- The length modulo 256 reaches no bit of the tag's high lane above the low byte (R112). -/
theorem hi64_tag_getLsbD (seed : Word) (blen : Nat) {i : Nat} (h : 8 ≤ i) :
    (hi64 (tag seed blen)).getLsbD i = seed.getLsbD i := by
  have low : blen % 256 < 2 ^ i := calc
    blen % 256 < 2 ^ 8 := Nat.mod_lt blen (by decide)
    _ ≤ 2 ^ i := Nat.pow_le_pow_right (by decide) h
  rw [tag, hi64_cat, BitVec.getLsbD_xor, BitVec.getLsbD_ofNat, Nat.testBit_lt_two_pow low, Bool.and_false,
    Bool.xor_false]

theorem tag_full_block (seed : Word) : tag seed 256 = cat seed 0 := by
  rw [tag, Nat.mod_self]
  exact congrArg (cat · 0) (BitVec.xor_zero)

end Sys2Proof.Machine

namespace Sys2Proof.Safety

open Sys2Proof Sys2Proof.Machine

/-- Settles O19: the tag's lanes, its high bits, and the full length of every block but the last. -/
theorem tagHoldsSeedAndLength : Obligations.TagHoldsSeedAndLength := by
  unfold Obligations.TagHoldsSeedAndLength
  refine ⟨fun seed blen _ _ => ⟨lo64_cat _ _, hi64_cat _ _, fun i high _ => hi64_tag_getLsbD seed blen high⟩,
    fun seed d _ b interior => ?shared, tag_full_block, by decide, by decide, by decide, by decide⟩
  case shared =>
    rw [blockify_chunkBytes_eq, List.dropLast_concat] at interior
    obtain ⟨_, _, rfl⟩ := List.mem_map.mp interior
    exact tag_full_block seed

end Sys2Proof.Safety

end

section
/-! PROOFS. The two values of a block whose last chunk is set apart (R120 to R128). -/

namespace Sys2Proof.Machine

/-! ### Halves of a chunk and words of the key file -/

theorem chunkLo_eq (c : ByteString) : chunkLo c = le64 (c.take 8) := by rw [chunkLo, slice_zero_left]

theorem chunkHi_eq (c : ByteString) : chunkHi c = le64 ((c.drop 8).take 8) := rfl

theorem oh_even (k : Key) (i : Nat) : oh k (2 * i) = keyWord k (4 + 2 * i) := rfl

theorem oh_odd (k : Key) (i : Nat) : oh k (2 * i + 1) = keyWord k (5 + 2 * i) := by
  rw [oh, show 4 + (2 * i + 1) = 5 + 2 * i by omega]

/-- The order of the two factors of `PH` does not matter (R120). -/
theorem phAt_eq (k : Key) (i : Nat) (c : ByteString) :
    phAt k i c =
      clmul (le64 (c.take 8) ^^^ keyWord k (4 + 2 * i)) (le64 ((c.drop 8).take 8) ^^^ keyWord k (5 + 2 * i)) := by
  rw [phAt, ph, clmul_comm, chunkLo_eq, chunkHi_eq, oh_even, oh_odd]

theorem tag_toNat (seed : Word) (blen : Nat) :
    (tag seed blen).toNat = (seed ^^^ BitVec.ofNat 64 (blen % 256)).toNat * 2 ^ 64 := by
  rw [tag, cat_toNat, show (0 : Word).toNat = 0 from rfl, Nat.add_zero]

/-- Only the two sums and the addition of the tag wrap; the product is exact (R121). -/
theorem enhAt_toNat (k : Key) (seed : Word) (blen i : Nat) (c : ByteString) :
    (enhAt k seed blen i c).toNat =
      (((le64 ((c.drop 8).take 8)).toNat + (keyWord k (5 + 2 * i)).toNat) % 2 ^ 64 *
          (((le64 (c.take 8)).toNat + (keyWord k (4 + 2 * i)).toNat) % 2 ^ 64) +
        (seed ^^^ BitVec.ofNat 64 (blen % 256)).toNat * 2 ^ 64) % 2 ^ 128 := by
  rw [enhAt, enh, add128_toNat, mul128_toNat, add64_toNat, add64_toNat, tag_toNat, chunkLo_eq, chunkHi_eq, oh_even,
    oh_odd]

/-! ### The last chunk set apart -/

theorem length_sub_one_of_concat (cs : List ByteString) (c : ByteString) : (cs ++ [c]).length - 1 = cs.length := by
  rw [List.length_append, List.length_singleton, Nat.add_sub_cancel]

theorem getD_concat_last (cs : List ByteString) (c : ByteString) : (cs ++ [c]).getD cs.length [] = c := by
  rw [List.getD_append_right _ _ _ _ (Nat.le_refl _), Nat.sub_self, List.getD_cons_zero]

theorem map_range_concat {α : Type} (f : Nat → ByteString → α) (cs : List ByteString) (c : ByteString) :
    (List.range cs.length).map (fun i => f i ((cs ++ [c]).getD i [])) =
      (List.range cs.length).map fun i => f i (cs.getD i []) :=
  List.map_congr_left fun i inside => by rw [List.getD_append _ _ _ _ (List.mem_range.mp inside)]

theorem interiorPh_concat (k : Key) (cs : List ByteString) (c : ByteString) :
    interiorPh k (cs ++ [c]) = (List.range cs.length).map fun i => phAt k i (cs.getD i []) := by
  rw [interiorPh, length_sub_one_of_concat, map_range_concat (phAt k)]

/-- In a block with `n` chunks before the last one, chunk `i` is shifted by `n - i` (R124, log 6). -/
theorem shuffledPh_concat (k : Key) (cs : List ByteString) (c : ByteString) :
    shuffledPh k (cs ++ [c]) =
      (List.range cs.length).map fun i => laneshl (phAt k i (cs.getD i [])) (cs.length - i) := by
  have shift (i : Nat) : params.shuf (cs ++ [c]).length i = cs.length - i :=
    congrArg (· - i) (length_sub_one_of_concat cs c)
  simp only [shuffledPh, shuffle, shift, length_sub_one_of_concat]
  exact map_range_concat (fun i b => laneshl (phAt k i b) (cs.length - i)) cs c

theorem lastEnh_concat (k : Key) (seed : Word) (cs : List ByteString) (c : ByteString) (blen : Nat) :
    lastEnh k seed (cs ++ [c]) blen = enhAt k seed blen cs.length c := by
  rw [lastEnh, length_sub_one_of_concat, getD_concat_last]

/-- The low checksum of a block is over all its chunks, the last one too (R123). -/
theorem checksumLo_concat (k : Key) (cs : List ByteString) (c : ByteString) :
    checksumLo k (cs ++ [c]) = xorAll64 ((List.range (cs.length + 1)).map fun i =>
      le64 (((cs ++ [c]).getD i []).take 8) ^^^ keyWord k (4 + 2 * i)) := by
  simp only [checksumLo, chunkLo_eq, oh_even, List.length_append, List.length_singleton]

/-- The high checksum of a block is over all its chunks, the last one too (R123). -/
theorem checksumHi_concat (k : Key) (cs : List ByteString) (c : ByteString) :
    checksumHi k (cs ++ [c]) = xorAll64 ((List.range (cs.length + 1)).map fun i =>
      le64 ((((cs ++ [c]).getD i []).drop 8).take 8) ^^^ keyWord k (5 + 2 * i)) := by
  simp only [checksumHi, chunkHi_eq, oh_odd, List.length_append, List.length_singleton]

/-- The pair `(P, S)` of a block, as sums over the chunks before the last one (R122, R125). -/
theorem ohBlock_concat (k : Key) (seed : Word) (cs : List ByteString) (c : ByteString) (blen : Nat) :
    ohBlock k seed (cs ++ [c]) blen =
      (xorAll ((List.range cs.length).map fun i => phAt k i (cs.getD i [])) ^^^ enhAt k seed blen cs.length c,
        xorAll ((List.range cs.length).map fun i => laneshl (phAt k i (cs.getD i [])) (cs.length - i)) ^^^
            enhAt k seed blen cs.length c ^^^
          checksumMix k (checksumLo k (cs ++ [c])) (checksumHi k (cs ++ [c]))) := by
  rw [ohBlock, primaryValue, secondaryValue, interiorPh_concat, shuffledPh_concat, lastEnh_concat]

/-! ### The running form of a list of chunks -/

theorem chunksOf_getD_self (cs : List ByteString) : chunksOf (fun i => cs.getD i []) cs.length = cs :=
  List.ext_getElem (chunksOf_length _ _) fun i _ inside => by
    simp [chunksOf, inside]

/-- The running form reads only the chunks before the last one; closing it takes the last one (R128). -/
theorem close_runningAfter_concat (k : Key) (seed : Word) (blen : Nat) (cs : List ByteString) (c : ByteString) :
    (runningAfter k (fun i => cs.getD i []) cs.length).close k seed blen cs.length c =
      ohBlock k seed (cs ++ [c]) blen := by
  have before : runningAfter k (fun i => cs.getD i []) cs.length =
      runningAfter k (fun i => (cs ++ [c]).getD i []) cs.length :=
    runningAfter_congr k cs.length fun i inside => (List.getD_append _ _ _ _ inside).symm
  have whole : chunksOf (fun i => (cs ++ [c]).getD i []) (cs.length + 1) = cs ++ [c] := by
    simpa using chunksOf_getD_self (cs ++ [c])
  have closed := close_runningAfter k seed blen (fun i => (cs ++ [c]).getD i []) cs.length
  rwa [getD_concat_last, whole, ← before] at closed

end Sys2Proof.Machine

namespace Sys2Proof.Safety

open Sys2Proof Sys2Proof.Machine

/-- Settles O21: the values are those of `PH`, `ENH` and the two checksums, each read from the key file. -/
theorem blockValuesFromChunksAndKeyWords : Obligations.BlockValuesFromChunksAndKeyWords := by
  unfold Obligations.BlockValuesFromChunksAndKeyWords
  intro k seed blen cs c _
  exact ⟨fun i => phAt k i (cs.getD i []), enhAt k seed blen cs.length c, checksumLo k (cs ++ [c]),
    checksumHi k (cs ++ [c]), fun i _ => phAt_eq k i _, enhAt_toNat k seed blen cs.length c, checksumLo_concat k cs c,
    checksumHi_concat k cs c, ohBlock_concat k seed cs c blen⟩

/-- Settles O22: the second value in progress by its closed form, the pair by closing on the last chunk. -/
theorem runningFormEqualsBlockForm : Obligations.RunningFormEqualsBlockForm := by
  unfold Obligations.RunningFormEqualsBlockForm
  intro k seed blen cs c _
  exact ⟨runningAfter_a1 k (fun i => cs.getD i []) cs.length, close_runningAfter_concat k seed blen cs c⟩

end Sys2Proof.Safety

end

section
/-! PROOFS. The Horner step on integers and modulo 2^61 - 1, and the two hashes of a long input as two separate folds
(R135, R137, R138, R151). -/

namespace Sys2Proof.Machine

/-! ### The Horner step on integers -/

/-- The sum before the reduction is exact (R90). -/
theorem horner2_toNat (acc fsq f y0 y1 : Word) :
    (horner2 acc fsq f y0 y1).toNat = (fsq.toNat * (acc.toNat + y0.toNat) + f.toNat * y1.toNat) % Config.ring := by
  have reduced : (fsq.toNat * (acc.toNat + y0.toNat) + f.toNat * y1.toNat) % Config.ring < 2 ^ 64 :=
    (Nat.mod_lt _ (by decide)).trans (by decide)
  rw [horner2, BitVec.toNat_ofNat, Nat.mod_eq_of_lt reduced]

theorem horner2_lt_ring (acc fsq f y0 y1 : Word) : (horner2 acc fsq f y0 y1).toNat < Config.ring := by
  rw [horner2_toNat]
  exact Nat.mod_lt _ (by decide)

/-- With nothing accumulated and nothing to add, the step gives 0 under any key words. -/
theorem horner2_zero (fsq f : Word) : horner2 0 fsq f 0 0 = 0 :=
  BitVec.eq_of_toNat_eq (by simp [horner2_toNat])

/-! ### The Horner step modulo 2^61 - 1 -/

theorem ring_eq_eight_mul_p61 : Config.ring = 8 * Config.p61 := rfl

theorem p61_dvd_ring : Config.p61 ∣ Config.ring := Dvd.intro_left 8 ring_eq_eight_mul_p61.symm

/-- Where the square is right, the square times the sum is two multiplications by the multiplier, so the step is two
single updates (R137). The reduction does not show, since 2^61 - 1 divides the modulus of the ring (R91). -/
theorem horner2_mod_p61 (acc y0 y1 : Word) {fsq f : Word}
    (squared : fsq.toNat % Config.p61 = f.toNat * f.toNat % Config.p61) :
    (horner2 acc fsq f y0 y1).toNat % Config.p61 =
      f.toNat * (f.toNat * (acc.toNat + y0.toNat) + y1.toNat) % Config.p61 := by
  have expanded : f.toNat * (f.toNat * (acc.toNat + y0.toNat) + y1.toNat) =
      f.toNat * f.toNat * (acc.toNat + y0.toNat) + f.toNat * y1.toNat := by ring
  rw [horner2_toNat, Nat.mod_mod_of_dvd _ p61_dvd_ring, expanded]
  exact (Nat.ModEq.mul_right _ squared).add_right _

/-! ### The fold of a long input -/

/-- The two accumulators never meet: folding both over the blocks is folding each on its own (R138). -/
theorem foldl_foldBlock (k : Key) (seed : Word) (blocks : List Block) (acc : Word × Word) :
    blocks.foldl (foldBlock k seed) acc =
      (blocks.foldl (fun a b => hornerStep k 0 a (primaryValue k seed b.1 b.2)) acc.1,
        blocks.foldl (fun a b => hornerStep k 1 a (secondaryValue k seed b.1 b.2)) acc.2) := by
  induction blocks generalizing acc with
  | nil => rfl
  | cons b bs ih => exact ih (foldBlock k seed acc b)

theorem fprint_long (k : Key) (seed : Word) {d : ByteString} (long : 9 ≤ d.length) :
    fprint k seed d =
      (finalize ((blockify (chunkBytes d)).foldl (foldBlock k seed) accStart).1,
        finalize ((blockify (chunkBytes d)).foldl (foldBlock k seed) accStart).2) :=
  if_neg (Nat.not_le.2 long)

/-- Each hash of a long input is its own fold, finalized (R138, R151). -/
theorem fprint_long_eq_folds (k : Key) (seed : Word) {d : ByteString} (long : 9 ≤ d.length) :
    fprint k seed d =
      (finalize ((blockify (chunkBytes d)).foldl
          (fun a b => hornerStep k 0 a (primaryValue k seed b.1 b.2)) 0),
        finalize ((blockify (chunkBytes d)).foldl
          (fun a b => hornerStep k 1 a (secondaryValue k seed b.1 b.2)) 0)) := by
  rw [fprint_long k seed long, foldl_foldBlock, accStart, params]

end Sys2Proof.Machine

namespace Sys2Proof.Safety

open Sys2Proof Sys2Proof.Machine

/-- The key file of a host that keeps its duty holds the right squares (R210). -/
theorem KeyPrepared.square_mod_p61 {k : Key} (h : KeyPrepared k) {w : Nat} (hw : w < 2) :
    (square k w).toNat % Config.p61 = (multiplier k w).toNat * (multiplier k w).toNat % Config.p61 := by
  rw [h.squares w hw, Nat.mod_mod]

/-- Settles O24: the value and its range on integers, the corner case at 0, and the examples by evaluation. -/
theorem hornerStepIsExactModuloTheRing : Obligations.HornerStepIsExactModuloTheRing := by
  unfold Obligations.HornerStepIsExactModuloTheRing
  exact ⟨fun acc fsq f y0 y1 => ⟨horner2_toNat acc fsq f y0 y1, Nat.le_pred_of_lt (horner2_lt_ring acc fsq f y0 y1)⟩,
    fun _ _ _ _ _ => rfl, horner2_zero, by decide, by decide, by decide, by decide, by decide, by decide⟩

/-- Settles O25: the square of a prepared key is right, and modulo 2^61 - 1 a right square makes two updates of one. -/
theorem hornerStepIsTwoUpdatesInTheField : Obligations.HornerStepIsTwoUpdatesInTheField := by
  unfold Obligations.HornerStepIsTwoUpdatesInTheField
  exact ⟨ring_eq_eight_mul_p61, fun a => Int.emod_emod_of_dvd a (Int.natCast_dvd_natCast.2 p61_dvd_ring),
    fun acc _ _ y0 y1 squared => horner2_mod_p61 acc y0 y1 squared,
    fun _ _ acc y prepared hw => horner2_mod_p61 acc (lo64 y) (hi64 y) (prepared.square_mod_p61 hw)⟩

/-- Settles O26: the fold over pairs is a pair of folds, and each step reads its own two key words. -/
theorem longHashesAreSeparateHornerFolds : Obligations.LongHashesAreSeparateHornerFolds := by
  unfold Obligations.LongHashesAreSeparateHornerFolds
  intro k seed d long
  exact Prod.ext_iff.1 (fprint_long_eq_folds k seed long)

end Sys2Proof.Safety

end

section
/-! PROOFS. The finalizer: exclusive or with two rotations is linear, commutes with its kind, and its square has doubled
counts; after six squarings nothing is left of the finalizer, which is why `unfinalize` inverts it (R145, R146). -/

namespace Sys2Proof.Machine

/-! ### Rotation over exclusive or -/

/-- Bit `i` at place `(i + r) mod 64` for every `i` fixes the whole rotated word: each place is taken by some bit. -/
theorem eq_rotl64_of_bits {a b : Word} {r : Nat}
    (bits : ∀ i < 64, b.getLsbD ((i + r) % 64) = a.getLsbD i) : b = rotl64 a r := by
  refine BitVec.eq_of_getLsbD_eq fun j hj => ?_
  have origin : (j + (64 - r % 64)) % 64 < 64 := Nat.mod_lt _ (by decide)
  have place : ((j + (64 - r % 64)) % 64 + r) % 64 = j := by omega
  have moved := (bits _ origin).trans (rotl64_getLsbD a r origin).symm
  rwa [place] at moved

theorem rotl64_xor (a b : Word) (r : Nat) : rotl64 (a ^^^ b) r = rotl64 a r ^^^ rotl64 b r :=
  (eq_rotl64_of_bits fun i hi => by simp only [BitVec.getLsbD_xor, rotl64_getLsbD _ r hi]).symm

theorem rotl64_rotl64 (a : Word) (r s : Nat) : rotl64 (rotl64 a r) s = rotl64 a (r + s) :=
  eq_rotl64_of_bits fun i hi => by
    have place : (i + (r + s)) % 64 = ((i + r) % 64 + s) % 64 := by omega
    rw [place, rotl64_getLsbD _ s (Nat.mod_lt _ (by decide)), rotl64_getLsbD a r hi]

theorem rotl64_comm (a : Word) (r s : Nat) : rotl64 (rotl64 a r) s = rotl64 (rotl64 a s) r := by
  rw [rotl64_rotl64, rotl64_rotl64, Nat.add_comm]

/-! ### Exclusive or with two rotations -/

theorem xorRotate_xor (a b : Nat) (y z : Word) :
    xorRotate a b (y ^^^ z) = xorRotate a b y ^^^ xorRotate a b z := by
  simp only [xorRotate, rotl64_xor]
  ac_rfl

theorem xorRotate_rotl64 (a b : Nat) (y : Word) (r : Nat) :
    xorRotate a b (rotl64 y r) = rotl64 (xorRotate a b y) r := by
  simp only [xorRotate, rotl64_xor, rotl64_comm y r]

/-- The factors of R146 commute. -/
theorem xorRotate_comm (a b c d : Nat) (y : Word) :
    xorRotate a b (xorRotate c d y) = xorRotate c d (xorRotate a b y) :=
  calc xorRotate a b (xorRotate c d y)
    _ = xorRotate c d y ^^^ xorRotate c d (rotl64 y a) ^^^ xorRotate c d (rotl64 y b) := by
      rw [xorRotate_rotl64, xorRotate_rotl64, xorRotate]
    _ = xorRotate c d (y ^^^ rotl64 y a ^^^ rotl64 y b) := by rw [xorRotate_xor, xorRotate_xor]

/-- What stands twice in a sum over exclusive or goes away. -/
theorem xor_cancel_pairs (y p q s t u : Word) :
    (y ^^^ p ^^^ q) ^^^ (p ^^^ s ^^^ t) ^^^ (q ^^^ t ^^^ u) = y ^^^ s ^^^ u :=
  calc (y ^^^ p ^^^ q) ^^^ (p ^^^ s ^^^ t) ^^^ (q ^^^ t ^^^ u)
    _ = y ^^^ s ^^^ u ^^^ (p ^^^ p) ^^^ (q ^^^ q) ^^^ (t ^^^ t) := by ac_rfl
    _ = y ^^^ s ^^^ u := by simp only [BitVec.xor_self, BitVec.xor_zero]

/-- Squaring in characteristic 2: the mixed terms cancel and each count doubles (R146). -/
theorem xorRotate_xorRotate_self (a b : Nat) (y : Word) :
    xorRotate a b (xorRotate a b y) = xorRotate (a + a) (b + b) y := by
  have mixed : rotl64 (rotl64 y b) a = rotl64 (rotl64 y a) b := rotl64_comm y b a
  simp only [xorRotate, rotl64_xor, mixed, xor_cancel_pairs, rotl64_rotl64]

theorem xorRotate_mod (a b : Nat) (y : Word) : xorRotate (a % 64) (b % 64) y = xorRotate a b y := by
  simp only [xorRotate, rotl64_mod]

theorem xorRotate_zero_zero (y : Word) : xorRotate 0 0 y = y := by
  simp only [xorRotate, rotl64_zero, BitVec.xor_self, BitVec.zero_xor]

/-- The squaring with the counts modulo 64, as R146 lists the factors. -/
theorem xorRotate_squared {a b c d : Nat} (first : (a + a) % 64 = c) (second : (b + b) % 64 = d) (y : Word) :
    xorRotate a b (xorRotate a b y) = xorRotate c d y := by
  rw [xorRotate_xorRotate_self, ← xorRotate_mod, first, second]

/-! ### The finalizer and its inverse -/

theorem finalize_xorRotate (a b : Nat) (y : Word) : finalize (xorRotate a b y) = xorRotate a b (finalize y) :=
  xorRotate_comm _ _ a b y

/-- `finalize` meets its own square in `unfinalize`, gives the next one, and so on to the identity (R146). -/
theorem unfinalize_finalize (x : Word) : unfinalize (finalize x) = x := by
  rw [unfinalize, finalize, Config.rotA, Config.rotB,
    xorRotate_squared (c := 16) (d := 2) rfl rfl, xorRotate_squared (c := 32) (d := 4) rfl rfl,
    xorRotate_squared (c := 0) (d := 8) rfl rfl, xorRotate_squared (c := 0) (d := 16) rfl rfl,
    xorRotate_squared (c := 0) (d := 32) rfl rfl, xorRotate_squared (c := 0) (d := 0) rfl rfl, xorRotate_zero_zero]

theorem finalize_unfinalize (x : Word) : finalize (unfinalize x) = x := by
  have commute : finalize (unfinalize x) = unfinalize (finalize x) := by simp only [unfinalize, finalize_xorRotate]
  rw [commute, unfinalize_finalize]

/-- All ones lie above the modulus of the ring, so no accumulator holds them (R136, R145). -/
theorem horner2_ne_allOnes (acc fsq f y0 y1 : Word) : horner2 acc fsq f y0 y1 ≠ 0xFFFFFFFFFFFFFFFF := by
  intro allOnes
  have below := horner2_lt_ring acc fsq f y0 y1
  rw [allOnes] at below
  exact absurd below (by decide)

end Sys2Proof.Machine

namespace Sys2Proof.Safety

open Sys2Proof Sys2Proof.Machine

/-- Settles O28: the formula is the definition, linearity is that of rotation, and the examples are evaluated. -/
theorem finalizerFormula : Obligations.FinalizerFormula := by
  unfold Obligations.FinalizerFormula
  exact ⟨fun _ => rfl, by decide, fun k seed _ long => fprint_long k seed long, by decide, horner2_ne_allOnes,
    xorRotate_xor Config.rotA Config.rotB, by decide, by decide, by decide, by decide⟩

/-- Settles O29: six squarings turn the finalizer into the identity, and the factors commute with it. -/
theorem unfinalizeInvertsFinalize : Obligations.UnfinalizeInvertsFinalize := by
  unfold Obligations.UnfinalizeInvertsFinalize
  exact fun x => ⟨unfinalize_finalize x, finalize_unfinalize x⟩

end Sys2Proof.Safety

end

section
/-! PROOFS. The words of the key file a hash reads (R152): each compressed value, each fold and the short mix reads its
own words, and every block is small enough that no chunk of it meets `OH[32]` or `OH[33]`. -/

namespace Sys2Proof.Machine

/-! ### How many chunks a block holds -/

theorem blockify_chunks_le {cs : List (ByteString × Nat)} {b : Block} (mem : b ∈ blockify cs) : b.1.length ≤ 16 := by
  obtain ⟨i, -, rfl⟩ := List.mem_map.mp (blockify_eq cs ▸ mem)
  rw [blockOf, List.length_map, blockGroup_length]
  omega

/-! ### The values of a block under two key files -/

section

variable {k k' : Key}

theorem phAt_congr (same : ∀ j < 32, oh k j = oh k' j) {i : Nat} (inside : i < 16) (c : ByteString) :
    phAt k i c = phAt k' i c := by
  rw [phAt, phAt, same (2 * i) (by omega), same (2 * i + 1) (by omega)]

theorem enhAt_congr (same : ∀ j < 32, oh k j = oh k' j) (seed : Word) (blen : Nat) {i : Nat} (inside : i < 16)
    (c : ByteString) : enhAt k seed blen i c = enhAt k' seed blen i c := by
  rw [enhAt, enhAt, same (2 * i) (by omega), same (2 * i + 1) (by omega)]

theorem lastEnh_congr (same : ∀ j < 32, oh k j = oh k' j) (seed : Word) {cs : List ByteString}
    (small : cs.length ≤ 16) (blen : Nat) : lastEnh k seed cs blen = lastEnh k' seed cs blen :=
  enhAt_congr same seed blen (by omega) _

/-- The chunks before the last one enter each hash through their `PH` values alone (R122, R125). -/
theorem map_phAt_congr (same : ∀ j < 32, oh k j = oh k' j) {cs : List ByteString} (small : cs.length ≤ 16)
    (f : Nat → DWord → DWord) :
    (List.range (cs.length - 1)).map (fun i => f i (phAt k i (cs.getD i []))) =
      (List.range (cs.length - 1)).map fun i => f i (phAt k' i (cs.getD i [])) :=
  List.map_congr_left fun i mem => by
    have before := List.mem_range.mp mem
    rw [phAt_congr same (by omega)]

/-- `P` reads the 32 block-compressor words and no others (R122). -/
theorem primaryValue_congr (same : ∀ j < 32, oh k j = oh k' j) (seed : Word) {cs : List ByteString}
    (small : cs.length ≤ 16) (blen : Nat) : primaryValue k seed cs blen = primaryValue k' seed cs blen := by
  have interior : interiorPh k cs = interiorPh k' cs := map_phAt_congr same small fun _ v => v
  rw [primaryValue, primaryValue, interior, lastEnh_congr same seed small]

theorem checksumLo_congr (same : ∀ j < 32, oh k j = oh k' j) {cs : List ByteString} (small : cs.length ≤ 16) :
    checksumLo k cs = checksumLo k' cs :=
  congrArg xorAll64 <| List.map_congr_left fun i mem => by
    have inside := List.mem_range.mp mem
    rw [same (2 * i) (by omega)]

theorem checksumHi_congr (same : ∀ j < 32, oh k j = oh k' j) {cs : List ByteString} (small : cs.length ≤ 16) :
    checksumHi k cs = checksumHi k' cs :=
  congrArg xorAll64 <| List.map_congr_left fun i mem => by
    have inside := List.mem_range.mp mem
    rw [same (2 * i + 1) (by omega)]

/-- `S` reads the two twisting words as well (R123, R125). -/
theorem secondaryValue_congr (same : ∀ j < 34, oh k j = oh k' j) (seed : Word) {cs : List ByteString}
    (small : cs.length ≤ 16) (blen : Nat) : secondaryValue k seed cs blen = secondaryValue k' seed cs blen := by
  have same32 : ∀ j < 32, oh k j = oh k' j := fun j inside => same j (by omega)
  have shuffled : shuffledPh k cs = shuffledPh k' cs := map_phAt_congr same32 small (shuffle cs.length)
  rw [secondaryValue, secondaryValue, shuffled, lastEnh_congr same32 seed small, checksumLo_congr same32 small,
    checksumHi_congr same32 small, checksumMix, checksumMix, same 32 (by decide), same 33 (by decide)]

/-! ### The hashes under two key files -/

/-- The fold of hash `w` reads its own multiplier and square, and the key beyond them only through the blocks' values
(R138). -/
theorem foldl_hornerStep_congr {w : Nat} (multipliers : multiplier k w = multiplier k' w)
    (squares : square k w = square k' w) {blocks : List Block} {value value' : Block → DWord}
    (same : ∀ b ∈ blocks, value b = value' b) (acc : Word) :
    blocks.foldl (fun a b => hornerStep k w a (value b)) acc =
      blocks.foldl (fun a b => hornerStep k' w a (value' b)) acc :=
  List.foldl_ext _ _ acc fun a b mem => by rw [hornerStep, hornerStep, multipliers, squares, same b mem]

/-- Both short hashes read one of the words `OH[0]` to `OH[12]` (R102). -/
theorem shortMix_congr (same : ∀ j < 32, oh k j = oh k' j) (seed : Word) (w : Which) {d : ByteString}
    (short : d.length ≤ 8) : shortMix k seed w d = shortMix k' seed w d := by
  have index : shortIndex w d.length < 32 := by
    cases w with
    | primary => exact Nat.lt_of_le_of_lt short (by decide)
    | secondary => exact Nat.lt_of_le_of_lt (Nat.add_le_add_right short _) (by decide)
  rw [shortMix, shortMix, shortNoise, shortNoise, same _ index]

theorem hashOf_primary_congr (multipliers : multiplier k 0 = multiplier k' 0) (squares : square k 0 = square k' 0)
    (same : ∀ j < 32, oh k j = oh k' j) (seed : Word) (d : ByteString) :
    hashOf k seed .primary d = hashOf k' seed .primary d := by
  rcases Nat.lt_or_ge 8 d.length with long | short
  · rw [hashOf, hashOf, fprint_long_eq_folds k seed long, fprint_long_eq_folds k' seed long]
    exact congrArg finalize <| foldl_hornerStep_congr multipliers squares
      (fun b mem => primaryValue_congr same seed (blockify_chunks_le mem) b.2) 0
  · rw [hashOf_short k seed _ short, hashOf_short k' seed _ short, shortMix_congr same seed _ short]

theorem hashOf_secondary_congr (multipliers : multiplier k 1 = multiplier k' 1) (squares : square k 1 = square k' 1)
    (same : ∀ j < 34, oh k j = oh k' j) (seed : Word) (d : ByteString) :
    hashOf k seed .secondary d = hashOf k' seed .secondary d := by
  rcases Nat.lt_or_ge 8 d.length with long | short
  · rw [hashOf, hashOf, fprint_long_eq_folds k seed long, fprint_long_eq_folds k' seed long]
    exact congrArg finalize <| foldl_hornerStep_congr multipliers squares
      (fun b mem => secondaryValue_congr same seed (blockify_chunks_le mem) b.2) 0
  · have same32 : ∀ j < 32, oh k j = oh k' j := fun j inside => same j (by omega)
    rw [hashOf_short k seed _ short, hashOf_short k' seed _ short, shortMix_congr same32 seed _ short]

end

end Sys2Proof.Machine

namespace Sys2Proof.Safety

open Sys2Proof Sys2Proof.Machine

/-- Settles O23: the words the statement leaves free are none of those the hash reads, by their places in the key file
(R12). -/
theorem hashesIgnoreTheOtherKeyWords : Obligations.HashesIgnoreTheOtherKeyWords := by
  unfold Obligations.HashesIgnoreTheOtherKeyWords
  intro k k' seed d
  constructor
  · intro agree
    exact hashOf_primary_congr (agree 0 (by omega) (by omega) (by omega) (by omega) (by omega))
      (agree 1 (by omega) (by omega) (by omega) (by omega) (by omega))
      (fun j _ => agree (4 + j) (by omega) (by omega) (by omega) (by omega) (by omega)) seed d
  · intro agree
    exact hashOf_secondary_congr (agree 2 (by omega) (by omega) (by omega)) (agree 3 (by omega) (by omega) (by omega))
      (fun j _ => agree (4 + j) (by omega) (by omega) (by omega)) seed d

end Sys2Proof.Safety

end

section
/-! PROOFS. The batch commands in every state: KEYLD, HASH.P, HASH.S, FPRINT and REGRD (R153 to R157), their encodings,
and the step that runs them (R150). -/

namespace Sys2Proof.Machine

/-! ### KEYLD -/

theorem exec_keyld_busy {s : State} (busy : s.sstate = .empty ∨ s.sstate = .accumulating) (image : Key) :
    exec (.keyld image) s = .next (s.raise .keyBusy) := if_pos busy

theorem exec_keyld_idle {s : State} (idle : s.sstate = .uninit ∨ s.sstate = .done) (image : Key) :
    exec (.keyld image) s = .next ((s.loadKey image).ok 0 0) :=
  if_neg (by rcases idle with h | h <;> simp [h])

theorem loadKey_uninit {s : State} (h : s.sstate = .uninit) (image : Key) :
    s.loadKey image = { s with key := image, keyValid := true } := by
  rw [State.loadKey, if_neg (by simp [h])]

theorem loadKey_done {s : State} (h : s.sstate = .done) (image : Key) :
    s.loadKey image = { s with key := image, keyValid := true, sstate := .uninit } := by
  rw [State.loadKey, if_pos h]

/-! ### HASH.P, HASH.S, FPRINT -/

/-- What the three hashing commands share: the check of the key, and a response that is all they write. -/
theorem batch_answers (s : State) (r : Word × Word) :
    (s.keyValid = false → batch s r = .next (s.raise .noKey)) ∧
      (s.keyValid = true → batch s r = .next { s with output := s.output ++ [⟨0x00, r.1, r.2⟩] }) := by
  constructor
  · intro keyless
    exact if_neg (by simp [keyless])
  · intro keyed
    exact if_pos keyed

/-! ### REGRD -/

theorem exec_regrd_reserved {reg : BitVec 8} (reserved : 6 ≤ reg.toNat) (s : State) :
    exec (.regrd reg) s = .next (s.raise .illegalCommand) := if_pos reserved

theorem exec_regrd_uninit {reg : BitVec 8} (low : 1 ≤ reg.toNat) (high : reg.toNat ≤ 5) {s : State}
    (h : s.sstate = .uninit) : exec (.regrd reg) s = .next (s.raise .sinkState) :=
  (if_neg (by omega)).trans (if_pos ⟨low, h⟩)

/-- REGRD of a register that can be read: STATUS always, the others while the sink is initialised (R27). -/
theorem exec_regrd_readable {reg : BitVec 8} (high : reg.toNat ≤ 5) {s : State}
    (readable : reg.toNat = 0 ∨ s.sstate ≠ .uninit) :
    exec (.regrd reg) s = .next { s with output := s.output ++ [⟨0x00, regValue s reg.toNat, 0⟩] } := by
  refine (if_neg (by omega)).trans (if_neg ?_)
  rintro ⟨low, uninit⟩
  exact readable.elim (by omega) (absurd uninit)

/-! ### The fields of POS -/

/-- The layout of `POS` (R27), at the width the laws of append speak of: the sum of the widths of its fields. -/
def posLayout (zeros : BitVec 52) (chunks : BitVec 4) (gap : BitVec 3) (bufn : BitVec 5) : BitVec (52 + 4 + 3 + 5) :=
  zeros ++ chunks ++ gap ++ bufn

theorem pos_eq_posLayout (s : State) : s.pos = posLayout 0 s.chunks 0 s.bufn := rfl

section

variable (zeros : BitVec 52) (chunks : BitVec 4) (gap : BitVec 3) (bufn : BitVec 5)

theorem posLayout_bufn : (posLayout zeros chunks gap bufn).extractLsb' 0 5 = bufn := BitVec.extractLsb'_append_eq_right

theorem posLayout_gap : (posLayout zeros chunks gap bufn).extractLsb' 5 3 = gap := by
  rw [posLayout, BitVec.extractLsb'_append_eq_of_le (by decide)]
  exact BitVec.extractLsb'_append_eq_right

theorem posLayout_chunks : (posLayout zeros chunks gap bufn).extractLsb' 8 4 = chunks := by
  rw [posLayout]
  iterate 2 rw [BitVec.extractLsb'_append_eq_of_le (by decide)]
  exact BitVec.extractLsb'_append_eq_right

theorem posLayout_zeros : (posLayout zeros chunks gap bufn).extractLsb' 12 52 = zeros := by
  rw [posLayout]
  iterate 3 rw [BitVec.extractLsb'_append_eq_of_le (by decide)]
  exact BitVec.extractLsb'_eq_self

end

end Sys2Proof.Machine

namespace Sys2Proof.Safety

open Sys2Proof Sys2Proof.Machine

/-! ### Transactions written out -/

/-- A transaction that is some command's encoding decodes to that command. -/
theorem decode_of_encode_eq {i : Instr} {t : Transaction} (wf : i.wf = true) (written : encode i = t) :
    decode t = .ok i := written ▸ decodeOfEncodeIsTheCommand i wf

/-- Settles O7: each transaction is the encoding of its command, which the decoder reads back. -/
theorem specTransactionsDecode : Obligations.SpecTransactionsDecode := by
  unfold Obligations.SpecTransactionsDecode
  exact ⟨decode_of_encode_eq rfl rfl, decode_of_encode_eq rfl rfl, decode_of_encode_eq rfl rfl,
    decode_of_encode_eq rfl rfl, decode_of_encode_eq rfl rfl, decode_of_encode_eq rfl rfl⟩

/-! ### The commands -/

/-- Settles O33, by the sink state: a stream in progress keeps its key; otherwise the image is loaded as it is. -/
theorem keyldLoadsTheKeyFile : Obligations.KeyldLoadsTheKeyFile := by
  unfold Obligations.KeyldLoadsTheKeyFile
  intro image s
  refine ⟨rfl, keyImageBytes_length image, fun busy => exec_keyld_busy busy image, fun uninit => ?_, fun done => ?_⟩
  · rw [exec_keyld_idle (.inl uninit), loadKey_uninit uninit]
    rfl
  · rw [exec_keyld_idle (.inr done), loadKey_done done]
    rfl

/-- Settles O34: HASH.P is a batch command whose result is the primary hash. -/
theorem hashPRespondsWithThePrimaryHash : Obligations.HashPRespondsWithThePrimaryHash := by
  unfold Obligations.HashPRespondsWithThePrimaryHash
  exact fun seed data s => ⟨rfl, rfl, batch_answers s (hashOf s.key seed .primary data, 0)⟩

/-- Settles O35: HASH.S is a batch command whose result is the secondary hash. -/
theorem hashSRespondsWithTheSecondaryHash : Obligations.HashSRespondsWithTheSecondaryHash := by
  unfold Obligations.HashSRespondsWithTheSecondaryHash
  exact fun seed data s => ⟨rfl, rfl, batch_answers s (hashOf s.key seed .secondary data, 0)⟩

/-- Settles O36: FPRINT is a batch command whose result is the pair that the two hashes are the components of (R152). -/
theorem fprintRespondsWithBothHashes : Obligations.FprintRespondsWithBothHashes := by
  unfold Obligations.FprintRespondsWithBothHashes
  exact fun seed data s => ⟨rfl, rfl, batch_answers s (fprint s.key seed data)⟩

/-- Settles O37: the three outcomes of REGRD by the index and the sink state, then the fields of POS from its layout. -/
theorem regrdReadsTheNamedRegister : Obligations.RegrdReadsTheNamedRegister := by
  unfold Obligations.RegrdReadsTheNamedRegister
  intro s
  refine ⟨fun reg => ⟨rfl, rfl⟩, fun reg reserved => exec_regrd_reserved reserved s,
    fun reg low high uninit => exec_regrd_uninit low high uninit, exec_regrd_readable (by decide) (.inl rfl), ?_, ?_⟩
  · intro initialised
    have readable {reg : BitVec 8} (high : reg.toNat ≤ 5) := exec_regrd_readable high (.inr initialised)
    exact ⟨readable (by decide), readable (by decide), readable (by decide), readable (by decide),
      readable (by decide)⟩
  · rw [pos_eq_posLayout]
    exact ⟨posLayout_bufn .., posLayout_gap .., posLayout_chunks .., posLayout_zeros ..⟩

/-! ### The step -/

/-- Settles O50: the step takes the transaction off the channel, and with no fault a decoded transaction is its
command. -/
theorem stepRunsTheDecodedCommand : Obligations.StepRunsTheDecodedCommand := by
  unfold Obligations.StepRunsTheDecodedCommand
  refine ⟨fun s t rest i sent unfaulted decoded => ?_, fun s empty => step_nil empty⟩
  rw [step_cons sent]
  exact transact_ok (s := s.withInput rest) unfaulted decoded

end Sys2Proof.Safety

end

section
/-! PROOFS. `sink_value` of a sink that stands for an input is the batch hash of that input (R172, R174). -/

namespace Sys2Proof.Safety

open Sys2Proof Sys2Proof.Machine

/-! ### Reading the input back from `BUF` -/

theorem slice_bytesAt (m : Memory) (a : Nat) {n i j : Nat} (h : j ≤ n) :
    slice (m.bytesAt a n) i j = m.bytesAt (a + i) (j - i) := by
  simp only [Memory.bytesAt, slice_map_range _ h, Nat.add_assoc]

/-- Up to 16 bytes are all pending (R24 (e)). -/
theorem Represents.bufn_eq_length {s : State} {d : ByteString} (h : Represents s d) (few : d.length ≤ 16) :
    s.bufn.toNat = d.length := by
  rw [h.bufn]
  unfold closedChunks
  omega

theorem Represents.pending_eq_input {s : State} {d : ByteString} (h : Represents s d) (few : d.length ≤ 16) :
    s.buf.bytesAt 16 d.length = d := by
  have none : closedChunks d.length = 0 := by unfold closedChunks; omega
  have pending := h.pending
  rwa [h.bufn_eq_length few, none] at pending

/-- Once a chunk is closed, `PREV` and what is pending are one window: the input from that chunk on (R22). -/
theorem Represents.window {s : State} {d : ByteString} (h : Represents s d) (closed : 1 ≤ closedChunks d.length) :
    s.buf.bytesAt 0 (16 + s.bufn.toNat) = d.drop (16 * (closedChunks d.length - 1)) := by
  have next : 16 * closedChunks d.length = 16 * (closedChunks d.length - 1) + 16 := by omega
  rw [Memory.bytesAt_add, h.previous closed, h.pending, inputChunk, slice, Nat.add_sub_cancel_left, next,
    ← List.drop_drop, List.take_append_drop]

theorem Represents.bytesAt_pending {s : State} {d : ByteString} (h : Represents s d) (few : d.length ≤ 16)
    {i j : Nat} (inside : j ≤ d.length) : s.buf.bytesAt (16 + i) (j - i) = slice d i j := by
  rw [← slice_bytesAt s.buf 16 inside, h.pending_eq_input few]

/-- The last chunk of a short input: its first and last 8 bytes, both pending (R172). -/
theorem Represents.lastChunk_short {s : State} {d : ByteString} (h : Represents s d) (eight : 8 ≤ d.length)
    (short : d.length < 16) : lastChunk s = .ok (finalChunk d) := by
  have front := h.bytesAt_pending short.le (i := 0) eight
  have back := h.bytesAt_pending short.le (i := d.length - 8) le_rfl
  rw [slice_zero_left] at front
  rw [slice_to_end _ _ _ le_rfl, Nat.sub_sub_self eight, ← Nat.add_sub_assoc eight] at back
  rw [lastChunk, if_pos (by rwa [h.length]), h.bufn_eq_length short.le, readBuf_ok (by omega),
    readBuf_ok (by omega), back, finalChunk, if_pos short, ← front]

/-- The last 16 bytes, of which those not pending are in `PREV` (R172, R24 (d)). -/
theorem Represents.bytesAt_last {s : State} {d : ByteString} (h : Represents s d) (long : 16 ≤ d.length) :
    s.buf.bytesAt s.bufn.toNat 16 = d.drop (d.length - 16) := by
  have bufn := h.bufn
  obtain ⟨left, fits⟩ := closedChunks_bounds (show 1 ≤ d.length by omega)
  rcases Nat.eq_zero_or_pos (closedChunks d.length) with none | closed
  · have all : d.length = 16 := by omega
    have pending := h.pending_eq_input all.le
    rw [h.bufn_eq_length all.le]
    rwa [all] at pending ⊢
  · have whole : (d.drop (16 * (closedChunks d.length - 1))).length = 16 + s.bufn.toNat := by
      rw [List.length_drop]
      omega
    have last := slice_bytesAt s.buf 0 (i := s.bufn.toNat) (le_refl (16 + s.bufn.toNat))
    rw [h.window closed, slice_to_end _ _ _ whole.le, List.drop_drop, Nat.zero_add, Nat.add_sub_cancel] at last
    rw [← last]
    congr 1
    omega

/-- The sink reads the last chunk of the input back (R172, R110). -/
theorem Represents.lastChunk_eq {s : State} {d : ByteString} (h : Represents s d) (eight : 8 ≤ d.length) :
    lastChunk s = .ok (finalChunk d) := by
  rcases Nat.lt_or_ge d.length 16 with short | long
  · exact h.lastChunk_short eight short
  · have bufnLe := h.bufn_le
    rw [lastChunk, if_neg (by rw [h.length]; omega), readBuf_ok (by omega), h.bytesAt_last long, finalChunk,
      if_neg long.not_gt]

/-! ### Closing the block in progress -/

theorem Represents.blockLength_eq {s : State} {d : ByteString} (h : Represents s d) :
    blockLength s = (finalBlock d).2 := by
  rw [blockLength, h.chunks, h.bufn, finalBlock_bytes]
  unfold closedChunks
  omega

/-- The closed chunks that fill no block: those of the last block before its last chunk (R111). -/
def leftoverChunks (d : ByteString) : List ByteString :=
  chunksOf (fun i => inputChunk d (16 * (closedChunks d.length / 16) + i)) (closedChunks d.length % 16)

theorem leftoverChunks_length (d : ByteString) : (leftoverChunks d).length = closedChunks d.length % 16 :=
  chunksOf_length _ _

theorem leftoverChunks_getD {d : ByteString} {i : Nat} (inside : i < closedChunks d.length % 16) :
    (leftoverChunks d).getD i [] = inputChunk d (16 * (closedChunks d.length / 16) + i) :=
  chunksOf_getD (fun i => inputChunk d (16 * (closedChunks d.length / 16) + i)) inside

theorem finalBlock_chunks (d : ByteString) : (finalBlock d).1 = leftoverChunks d ++ [finalChunk d] := rfl

theorem Represents.chunks_eq_leftover {s : State} {d : ByteString} (h : Represents s d) :
    s.chunks.toNat = (leftoverChunks d).length := by rw [h.chunks, leftoverChunks_length]

theorem Represents.running_eq_leftover {s : State} {d : ByteString} (h : Represents s d) :
    s.running = runningAfter s.key (fun i => (leftoverChunks d).getD i []) (leftoverChunks d).length := by
  rw [leftoverChunks_length, h.running]
  exact runningAfter_congr s.key _ fun i inside => (leftoverChunks_getD inside).symm

/-- Closing the running values on the last chunk gives the two values of the last block (R172, R128). -/
theorem Represents.close_eq {s : State} {d : ByteString} (h : Represents s d) :
    s.running.close s.key s.sseed (blockLength s) s.chunks.toNat (finalChunk d) =
      ohBlock s.key s.sseed (finalBlock d).1 (finalBlock d).2 := by
  rw [h.blockLength_eq, h.chunks_eq_leftover, h.running_eq_leftover, close_runningAfter_concat, finalBlock_chunks]

/-- The temporaries of `sink_value` are the fold of the batch hash: the closed blocks, then the last one (R172). -/
theorem Represents.closingDigest_eq {s : State} {d : ByteString} (h : Represents s d) (long : 9 ≤ d.length) :
    closingDigest s (finalChunk d) = fprint s.key s.sseed d := by
  rw [fprint_long _ _ long, blockify_chunkBytes_eq, List.foldl_concat, ← h.folded, foldBlock, ← h.close_eq,
    closingDigest]

/-- Settles O48: a short input is read back whole and mixed; a longer one is hashed up to its last block, which is
closed on the last chunk read back. -/
theorem sinkValueIsTheBatchHash : Obligations.SinkValueIsTheBatchHash := by
  unfold Obligations.SinkValueIsTheBatchHash
  intro s d h
  rcases Nat.lt_or_ge 8 d.length with long | short
  · rw [sinkValue, if_neg (by rw [h.length]; exact long.not_ge), h.lastChunk_eq long.le]
    exact congrArg Except.ok (h.closingDigest_eq long)
  · have room : 16 + d.length ≤ 32 := by omega
    rw [sinkValue, h.length, if_pos short, readBuf_ok room, h.pending_eq_input (by omega), fprint_short _ _ short]
    rfl

end Sys2Proof.Safety

end

section
/-! PROOFS. A stream on the command channel: SINIT.x, any number of SUPD commands, SDIG (R173, R174). -/

namespace Sys2Proof.Safety

open Sys2Proof Sys2Proof.Machine

/-! ### Commands taken off the channel -/

theorem run_of_step {M : Host.Core} {n : Nat} {s t : M.State} (taken : M.step s = .next t) :
    M.run (n + 1) s = M.run n t := by
  rw [Host.Core.run, taken]

/-- With no fault a step runs the command sent first (R150, R204). -/
theorem step_sent {s : State} {i : Instr} {rest : List HostEvent} (channel : s.input = sent [i] ++ rest)
    (unfaulted : s.fault = false) (wf : i.wf = true) : step s = exec i (s.withInput rest) := by
  rw [step_cons (show s.input = .transaction (encode i) :: rest from channel)]
  exact transact_ok (s := s.withInput rest) unfaulted (decodeOfEncodeIsTheCommand i wf)

theorem sinitOf_wf (m : SinkMode) (seed : Word) : (sinitOf m seed).wf = true := by cases m <;> rfl

/-- SINIT.x taken off the channel opens the sink (R166). -/
theorem step_sinitOf {s : State} {m : SinkMode} {seed : Word} {rest : List HostEvent}
    (channel : s.input = sent [sinitOf m seed] ++ rest) (unfaulted : s.fault = false) (keyed : s.keyValid = true) :
    step s = .next (((s.withInput rest).initSink m seed).ok 0 0) := by
  rw [step_sent channel unfaulted (sinitOf_wf m seed), exec_sinitOf]
  exact if_pos keyed

theorem supd_wf {data : ByteString} (fits : data.length < 2 ^ 64) : (Instr.supd data).wf = true := decide_eq_true fits

/-! ### SDIG -/

/-- SDIG after SINIT.x responds with what the mode selects of `sink_value` (R173). -/
theorem execSdig_reports {s : State} (started : s.sstate ≠ .uninit) {v : Word × Word} (digest : sinkValue s = .ok v) :
    execSdig s = .next (s.finish.ok (s.smode.report v).1 (s.smode.report v).2) := by
  rw [execSdig, if_neg started, digest]

/-! ### The stream in progress -/

/-- `s` is what a stream opened on `s₀` by SINIT.x in mode `m` leaves after `n` SUPD commands that carried `d`. -/
structure StreamFrom (s₀ : State) (m : SinkMode) (seed : Word) (d : ByteString) (n : Nat) (s : State) : Prop where
  inProgress : s.sstate = .empty ∨ s.sstate = .accumulating
  unfaulted : s.fault = false
  bufWf : s.buf.wf = true
  stands : Represents s d
  key : s.key = s₀.key
  mode : s.smode = m
  seeded : s.sseed = seed
  answered : s.output = s₀.output ++ List.replicate (n + 1) ⟨okCode, 0, 0⟩

/-- SINIT.x opens a stream that has taken nothing (R166). -/
theorem streamFrom_initSink {s : State} (unfaulted : s.fault = false) (bufWf : s.buf.wf = true) (m : SinkMode)
    (seed : Word) (events : List HostEvent) :
    StreamFrom s m seed [] 0 (((s.withInput events).initSink m seed).ok 0 0) where
  inProgress := .inl rfl
  unfaulted := unfaulted
  bufWf := bufWf
  stands := represents_initSink _ m seed
  key := rfl
  mode := rfl
  seeded := rfl
  answered := rfl

/-- The channel is no part of what a stream stands for. -/
theorem StreamFrom.withInput {s₀ s : State} {m : SinkMode} {seed : Word} {d : ByteString} {n : Nat}
    (h : StreamFrom s₀ m seed d n s) (events : List HostEvent) : StreamFrom s₀ m seed d n (s.withInput events) :=
  { h with stands := ⟨h.stands.length, h.stands.bufn, h.stands.chunks, h.stands.pending, h.stands.previous,
      h.stands.folded, h.stands.running⟩ }

/-- One more SUPD answers OK and carries the stream on (R171). -/
theorem StreamFrom.supd {s₀ s : State} {m : SinkMode} {seed : Word} {d : ByteString} {n : Nat}
    (h : StreamFrom s₀ m seed d n s) {piece : ByteString} (fits : d.length + piece.length < 2 ^ 64) :
    ∃ t, exec (.supd piece) s = .next t ∧ StreamFrom s₀ m seed (d ++ piece) (n + 1) t ∧ t.input = s.input := by
  obtain ⟨u, taken, stands⟩ := h.stands.absorb piece h.bufWf fits
  obtain ⟨v, taken', -, -, key, -, sstate, mode, seeded, fault, -, input, output, wf⟩ :=
    absorb_spec piece h.stands.bufn_le
  obtain rfl : v = u := Except.ok.inj (taken'.symm.trans taken)
  refine ⟨_, execSupd_absorbs h.inProgress (by rwa [h.stands.length]) taken, ?_, input⟩
  exact
    { inProgress := by
        rw [State.ok_sstate, State.afterUpdate_sstate, sstate]
        split
        · exact .inr rfl
        · exact h.inProgress
      unfaulted := fault.trans h.unfaulted
      bufWf := wf h.bufWf
      stands := stands.ok_afterUpdate _
      key := key.trans h.key
      mode := mode.trans h.mode
      seeded := seeded.trans h.seeded
      answered := by
        rw [State.ok_output, State.afterUpdate_output, output, h.answered, List.append_assoc,
          ← List.replicate_succ'] }

/-- The SUPD commands of a list of pieces, one after the other, carry the stream on by their concatenation (R174). -/
theorem StreamFrom.run_supds {s₀ : State} {m : SinkMode} {seed : Word} (pieces : List ByteString)
    (rest : List HostEvent) (k : Nat) {s : State} {d : ByteString} {n : Nat} (h : StreamFrom s₀ m seed d n s)
    (fits : d.length + pieces.flatten.length < 2 ^ 64) (channel : s.input = sent (pieces.map Instr.supd) ++ rest) :
    ∃ t, Host.Core.run core (pieces.length + k) s = Host.Core.run core k t ∧
      StreamFrom s₀ m seed (d ++ pieces.flatten) (n + pieces.length) t ∧ t.input = rest := by
  induction pieces generalizing s d n with
  | nil => exact ⟨s, by simp, by simpa using h, channel⟩
  | cons piece pieces ih =>
    rw [List.flatten_cons, List.length_append] at fits
    have first : s.input = sent [.supd piece] ++ (sent (pieces.map Instr.supd) ++ rest) := channel
    obtain ⟨u, taken, stream, input⟩ :=
      (h.withInput (sent (pieces.map Instr.supd) ++ rest)).supd (piece := piece) (by omega)
    have run : Host.Core.run core ((piece :: pieces).length + k) s = Host.Core.run core (pieces.length + k) u := by
      rw [List.length_cons, Nat.succ_add]
      exact run_of_step (M := core) ((step_sent first h.unfaulted (supd_wf (by omega))).trans taken)
    obtain ⟨t, more, stream, input⟩ := ih stream (by rw [List.length_append]; omega) input
    refine ⟨t, run.trans more, ?_, input⟩
    rw [List.flatten_cons, ← List.append_assoc, List.length_cons, Nat.add_comm pieces.length 1, ← Nat.add_assoc]
    exact stream

/-- SDIG at the end of a stream answers the hashes of the whole input (R173, R174). -/
theorem StreamFrom.sdig {s₀ s : State} {m : SinkMode} {seed : Word} {d : ByteString} {n : Nat}
    (h : StreamFrom s₀ m seed d n s) :
    exec .sdig s =
      .next (s.finish.ok (m.report (fprint s₀.key seed d)).1 (m.report (fprint s₀.key seed d)).2) := by
  have started : s.sstate ≠ .uninit := by rcases h.inProgress with hs | hs <;> simp [hs]
  have digest := sinkValueIsTheBatchHash s d h.stands
  rw [h.key, h.seeded] at digest
  rw [← h.mode]
  exact execSdig_reports started digest

theorem sent_append (is js : List Instr) : sent (is ++ js) = sent is ++ sent js := List.map_append

theorem sent_stream (m : SinkMode) (seed : Word) (pieces : List ByteString) (rest : List HostEvent) :
    sent (sinitOf m seed :: (pieces.map Instr.supd ++ [.sdig])) ++ rest =
      sent [sinitOf m seed] ++ (sent (pieces.map Instr.supd) ++ (sent [.sdig] ++ rest)) := by
  rw [← List.singleton_append, sent_append, sent_append, List.append_assoc, List.append_assoc]

/-- A whole stream on the channel: SINIT.x opens it, each SUPD carries it on, SDIG digests what it stands for (R174). -/
theorem run_stream {s : State} {m : SinkMode} {seed : Word} {pieces : List ByteString} {rest : List HostEvent}
    (unfaulted : s.fault = false) (keyed : s.keyValid = true) (bufWf : s.buf.wf = true)
    (fits : pieces.flatten.length < 2 ^ 64)
    (channel : s.input = sent (sinitOf m seed :: (pieces.map Instr.supd ++ [.sdig])) ++ rest) :
    ∃ u, StreamFrom s m seed pieces.flatten pieces.length u ∧
      Host.Core.run core (pieces.length + 2) s =
        .next ((u.withInput rest).finish.ok (m.report (fprint s.key seed pieces.flatten)).1
          (m.report (fprint s.key seed pieces.flatten)).2) := by
  rw [sent_stream] at channel
  obtain ⟨u, supds, stream, input⟩ := (streamFrom_initSink unfaulted bufWf m seed _).run_supds pieces
    (sent [.sdig] ++ rest) 1 (by simpa using fits) rfl
  rw [List.nil_append, Nat.zero_add] at stream
  have digested := (step_sent input stream.unfaulted rfl).trans (stream.withInput rest).sdig
  refine ⟨u, stream, ?_⟩
  calc Host.Core.run core (pieces.length + 2) s
    _ = Host.Core.run core (pieces.length + 1) _ := run_of_step (M := core) (step_sinitOf channel unfaulted keyed)
    _ = Host.Core.run core 1 u := supds
    _ = _ := run_of_step (M := core) (n := 0) digested

/-- Settles O49: the stream's answers so far, and that of SDIG by the mode. -/
theorem incrementalDigestEqualsBatchHash : Obligations.IncrementalDigestEqualsBatchHash := by
  unfold Obligations.IncrementalDigestEqualsBatchHash
  intro s m seed pieces rest unfaulted keyed bufWf fits
  obtain ⟨u, stream, ran⟩ :=
    run_stream (s := s.withInput (sent (sinitOf m seed :: (pieces.map Instr.supd ++ [.sdig])) ++ rest))
      unfaulted keyed bufWf fits rfl
  refine ⟨_, ran, ?_, rfl, stream.key, rfl⟩
  rw [State.ok_output, State.finish_output, State.withInput_output, stream.answered]
  cases m <;> rfl

end Sys2Proof.Safety

end

section
/-! PROOFS. What SUPD leaves, byte by byte: where the position moves, which registers and bytes stay, what closing a
chunk writes (R169 to R171). -/

namespace Sys2Proof.Machine

open Safety

/-- A register that counts on by `n` without wrapping. -/
theorem toNat_add_ofNat {w : Nat} {x : BitVec w} {n : Nat} (fits : x.toNat + n < 2 ^ w) :
    (x + BitVec.ofNat w n).toNat = x.toNat + n := by
  have small : (BitVec.ofNat w n).toNat = n := Nat.mod_eq_of_lt (by omega)
  rw [BitVec.toNat_add_of_lt (by rwa [small]), small]

/-! ### Making room for a byte -/

/-- With room left, making room moves no position: the counters wrap only when a block closes (R170). -/
theorem makeRoom_position {s : State} (pending : s.bufn.toNat ≤ 16) (room : 16 * s.chunks.toNat + s.bufn.toNat < 256) :
    16 * s.makeRoom.chunks.toNat + s.makeRoom.bufn.toNat = 16 * s.chunks.toNat + s.bufn.toNat := by
  have count := makeRoom_count s
  have bufn := makeRoom_bufn pending
  have chunks := s.makeRoom.chunks.isLt
  omega

/-- The accumulators change only when a block closes (R170). -/
theorem makeRoom_acc {s : State} (room : 16 * s.chunks.toNat + s.bufn.toNat < 256) :
    s.makeRoom.acc0 = s.acc0 ∧ s.makeRoom.acc1 = s.acc1 := by
  rcases makeRoom_cases s with ⟨full, made⟩ | ⟨-, made⟩ <;> rw [made]
  · rcases closeChunk_cases s with ⟨-, closed⟩ | ⟨sixteenth, -⟩
    · rw [closed]
      exact ⟨rfl, rfl⟩
    · rw [sixteenth, full] at room
      exact absurd room (by decide)
  · exact ⟨rfl, rfl⟩

/-- Closing a chunk stores its 16 bytes in `PREV` and nothing else (R170). -/
theorem closeChunk_read {s : State} (wf : s.buf.wf = true) (a : Nat) :
    s.closeChunk.buf.read a = if a < 16 then s.buf.read (16 + a) else s.buf.read a := by
  obtain ⟨-, -, -, -, -, -, -, -, -, -, buf, -⟩ := closeChunk_frame s
  rw [buf, Memory.read_writeBytes wf (by rw [pend_length]; omega), pend_length]
  rcases Nat.lt_or_ge a 16 with inside | outside
  · rw [if_pos ⟨a.zero_le, by omega⟩, if_pos inside]
    exact Memory.bytesAt_getD _ _ _ _ inside _
  · rw [if_neg (by omega), if_neg outside.not_gt]

theorem makeRoom_read {s : State} (wf : s.buf.wf = true) {a : Nat} (kept : a < 16 → s.bufn.toNat < 16) :
    s.makeRoom.buf.read a = s.buf.read a := by
  rcases makeRoom_cases s with ⟨full, made⟩ | ⟨-, made⟩ <;> rw [made]
  rw [closeChunk_read wf, if_neg fun low => ?_]
  have room := kept low
  rw [full] at room
  exact absurd room (by decide)

/-! ### Absorbing a byte string -/

/-- The state after `absorb_byte` on each byte, where it answers one (R171). -/
def State.absorbedAll (s : State) (data : ByteString) : State := data.foldl State.absorbed s

@[simp] theorem absorbedAll_nil (s : State) : s.absorbedAll [] = s := rfl

@[simp] theorem absorbedAll_cons (s : State) (b : Byte) (bs : ByteString) :
    s.absorbedAll (b :: bs) = (s.absorbed b).absorbedAll bs := rfl

theorem absorbedAll_append (s : State) (a b : ByteString) :
    s.absorbedAll (a ++ b) = (s.absorbedAll a).absorbedAll b := List.foldl_append

theorem absorb_eq_absorbedAll (data : ByteString) {s : State} (pending : s.bufn.toNat ≤ 16) :
    absorb data s = .ok (s.absorbedAll data) := by
  induction data generalizing s with
  | nil => rfl
  | cons b bs ih => rw [absorb_cons pending, ih (absorbed_bufn_le pending b), absorbedAll_cons]

theorem absorbedAll_bufn_le (data : ByteString) {s : State} (pending : s.bufn.toNat ≤ 16) :
    (s.absorbedAll data).bufn.toNat ≤ 16 := by
  induction data generalizing s with
  | nil => exact pending
  | cons b bs ih => exact ih (absorbed_bufn_le pending b)

theorem absorbedAll_bufn_pos {data : ByteString} (nonempty : 1 ≤ data.length) {s : State}
    (pending : s.bufn.toNat ≤ 16) : 1 ≤ (s.absorbedAll data).bufn.toNat := by
  induction data generalizing s with
  | nil => exact absurd nonempty (by decide)
  | cons b bs ih =>
    have le := absorbed_bufn_le pending b
    cases bs with
    | nil =>
      rw [absorbedAll_cons, absorbedAll_nil, absorbed_bufn pending]
      omega
    | cons c cs => exact ih (Nat.le_add_left 1 _) le

theorem absorbedAll_sstate (data : ByteString) (s : State) : (s.absorbedAll data).sstate = s.sstate := by
  induction data generalizing s with
  | nil => rfl
  | cons b bs ih =>
    obtain ⟨-, -, sstate, -⟩ := absorbed_frame s b
    rw [absorbedAll_cons, ih, sstate]

theorem absorbedAll_bytes (data : ByteString) {s : State} (fits : s.bytes.toNat + data.length < 2 ^ 64) :
    (s.absorbedAll data).bytes.toNat = s.bytes.toNat + data.length := by
  induction data generalizing s with
  | nil => rfl
  | cons b bs ih =>
    rw [List.length_cons] at fits ⊢
    have byte := absorbed_bytes (s := s) (by omega) b
    rw [absorbedAll_cons, ih (by omega), byte, Nat.add_assoc, Nat.add_comm 1]

theorem absorbed_chunks (s : State) (b : Byte) : (s.absorbed b).chunks = s.makeRoom.chunks := rfl

/-- The position moves on by the number of bytes, modulo 256 (R171, R24 (a)). -/
theorem absorbedAll_position (data : ByteString) {s : State} (pending : s.bufn.toNat ≤ 16) :
    (16 * (s.absorbedAll data).chunks.toNat + (s.absorbedAll data).bufn.toNat) % 256 =
      (16 * s.chunks.toNat + s.bufn.toNat + data.length) % 256 := by
  induction data generalizing s with
  | nil => rfl
  | cons b bs ih =>
    have count := makeRoom_count s
    rw [absorbedAll_cons, ih (absorbed_bufn_le pending b), absorbed_bufn pending, absorbed_chunks, List.length_cons]
    omega

/-- As long as the block in progress is not closed, the accumulators stay (R170). -/
theorem absorbedAll_acc (data : ByteString) {s : State} (pending : s.bufn.toNat ≤ 16)
    (room : 16 * s.chunks.toNat + s.bufn.toNat + data.length ≤ 256) :
    (s.absorbedAll data).acc0 = s.acc0 ∧ (s.absorbedAll data).acc1 = s.acc1 := by
  induction data generalizing s with
  | nil => exact ⟨rfl, rfl⟩
  | cons b bs ih =>
    rw [List.length_cons] at room
    have position := makeRoom_position pending (by omega)
    obtain ⟨acc0, acc1⟩ := makeRoom_acc (s := s) (by omega)
    obtain ⟨rest0, rest1⟩ := ih (absorbed_bufn_le pending b) (by rw [absorbed_bufn pending, absorbed_chunks]; omega)
    exact ⟨rest0.trans acc0, rest1.trans acc1⟩

/-- Every byte of `BUF` stays but those the data bytes go to, by their positions, and those of `PREV` once a chunk
closes (R169). -/
theorem absorbedAll_read (data : ByteString) {s : State} (wf : s.buf.wf = true) (pending : s.bufn.toNat ≤ 16) {a : Nat}
    (elsewhere : ∀ k < data.length, a ≠ 16 + (pendAddr s + k) % 16)
    (kept : a < 16 → s.bufn.toNat + data.length ≤ 16) : (s.absorbedAll data).buf.read a = s.buf.read a := by
  induction data generalizing s with
  | nil => rfl
  | cons b bs ih =>
    rw [List.length_cons] at elsewhere kept
    have count := makeRoom_count s
    have bufn := absorbed_bufn pending b
    have room := makeRoom_bufn pending
    have first := elsewhere 0 (Nat.succ_pos _)
    rw [pendAddr_eq] at first
    have byte : (s.absorbed b).buf.read a = s.buf.read a := by
      rw [absorbed_buf, Memory.read_write_of_ne _ b (by omega), makeRoom_read wf (by omega)]
    rw [absorbedAll_cons,
      ih (absorbed_wf wf pending b) (absorbed_bufn_le pending b) (fun k inside => ?_) (fun low => ?_), byte]
    · have next := elsewhere (k + 1) (Nat.succ_lt_succ inside)
      rw [pendAddr_eq] at next ⊢
      omega
    · have fits := kept low
      rw [bufn, makeRoom_of_bufn_lt (by omega)]
      omega

/-! ### Bytes that fit in `PEND` -/

/-- The state with `data` stored from the first free address of `PEND` on, and counted (R169 steps 2 to 4). -/
def State.appended (s : State) (data : ByteString) : State :=
  { s with
    buf := s.buf.writeBytes (pendAddr s) data
    bufn := s.bufn + BitVec.ofNat 5 data.length
    bytes := s.bytes + BitVec.ofNat 64 data.length }

theorem add_one_add_ofNat {w : Nat} (x : BitVec w) (n : Nat) :
    x + 1#w + BitVec.ofNat w n = x + BitVec.ofNat w (n + 1) := by
  rw [BitVec.add_assoc, ← BitVec.ofNat_add, Nat.add_comm]

/-- With room in `PEND`, a byte and then others are appended as one string. -/
theorem absorbed_appended {s : State} {b : Byte} {bs : ByteString} (room : s.bufn.toNat < 16) :
    (s.absorbed b).appended bs = s.appended (b :: bs) := by
  have next : pendAddr (s.absorbed b) = pendAddr s + 1 := by
    rw [pendAddr_eq, pendAddr_eq, absorbed_bufn room.le, makeRoom_of_bufn_lt room, Nat.add_assoc]
  rw [State.appended, next, State.absorbed, makeRoom_of_bufn_lt room, State.appended, List.length_cons,
    ← add_one_add_ofNat s.bufn, ← add_one_add_ofNat s.bytes]
  rfl

/-- Bytes that fit in `PEND` close no chunk (R169). -/
theorem absorbedAll_eq_appended (data : ByteString) {s : State} (fits : s.bufn.toNat + data.length ≤ 16) :
    s.absorbedAll data = s.appended data := by
  induction data generalizing s with
  | nil =>
    rw [State.appended, List.length_nil, BitVec.add_zero, BitVec.add_zero]
    rfl
  | cons b bs ih =>
    rw [List.length_cons] at fits
    have room : s.bufn.toNat < 16 := by omega
    have bufn : (s.absorbed b).bufn.toNat = s.bufn.toNat + 1 := by
      rw [absorbed_bufn room.le, makeRoom_of_bufn_lt room]
    rw [absorbedAll_cons, ih (by omega), absorbed_appended room]

/-! ### Closing a chunk -/

/-- The compressor's registers are those of the room made; the byte is stored and counted there (R169). -/
theorem absorbed_written (s : State) (b : Byte) :
    (s.absorbed b).chunks = s.makeRoom.chunks ∧ (s.absorbed b).acc0 = s.makeRoom.acc0 ∧
      (s.absorbed b).acc1 = s.makeRoom.acc1 ∧ (s.absorbed b).ohacc0 = s.makeRoom.ohacc0 ∧
      (s.absorbed b).ohacc1 = s.makeRoom.ohacc1 ∧ (s.absorbed b).lrc = s.makeRoom.lrc ∧
      (s.absorbed b).buf = s.makeRoom.buf.write (pendAddr s.makeRoom) b ∧
      (s.absorbed b).bufn = s.makeRoom.bufn + 1 :=
  ⟨rfl, rfl, rfl, rfl, rfl, rfl, rfl, rfl⟩

/-- At a full `PEND` a byte finds the sink as closing the chunk leaves it, and goes to address 16 (R169). -/
theorem absorbed_of_full {s : State} (full : s.bufn = 16) (b : Byte) :
    (s.absorbed b).chunks = s.closeChunk.chunks ∧ (s.absorbed b).acc0 = s.closeChunk.acc0 ∧
      (s.absorbed b).acc1 = s.closeChunk.acc1 ∧ (s.absorbed b).ohacc0 = s.closeChunk.ohacc0 ∧
      (s.absorbed b).ohacc1 = s.closeChunk.ohacc1 ∧ (s.absorbed b).lrc = s.closeChunk.lrc ∧
      (s.absorbed b).buf = s.closeChunk.buf.write 16 b ∧ (s.absorbed b).bufn = 1 := by
  have made : s.makeRoom = s.closeChunk := if_pos full
  obtain ⟨-, -, -, -, -, -, -, -, -, -, -, emptied⟩ := closeChunk_frame s
  have written := absorbed_written s b
  rwa [made, pendAddr_eq, emptied] at written

/-- Closing a full block on its chunk 15: the tag holds the seed alone, since 256 is 0 modulo 256 (R112, R170). -/
theorem close_full_block (k : Key) (seed : Word) (c : ByteString) (r : Running) {e : DWord}
    (last : e = enh c (oh k 30) (oh k 31) (cat seed 0)) :
    r.close k seed 256 15 c =
      (r.a0 ^^^ e, r.a1 ^^^ e ^^^
        clmul (hi64 r.k ^^^ chunkHi c ^^^ oh k 31 ^^^ oh k 33) (lo64 r.k ^^^ chunkLo c ^^^ oh k 30 ^^^ oh k 32)) := by
  have tagged : enhAt k seed 256 15 c = e := by rw [enhAt, tag_full_block, last]
  simp only [Running.close, tagged, checksumMix, checksumStep, lo64_cat, hi64_cat]

/-- An interior chunk enters the running values (R170). -/
theorem closeChunk_interior {s : State} (interior : s.chunks.toNat < 15) :
    s.closeChunk.chunks = s.chunks + 1 ∧ s.closeChunk.acc0 = s.acc0 ∧ s.closeChunk.acc1 = s.acc1 ∧
      s.closeChunk.ohacc0 = s.ohacc0 ^^^ phAt s.key s.chunks.toNat (pend s) ∧
      s.closeChunk.ohacc1 = laneshl (s.ohacc1 ^^^ phAt s.key s.chunks.toNat (pend s)) 1 ∧
      lo64 s.closeChunk.lrc = lo64 s.lrc ^^^ chunkLo (pend s) ^^^ oh s.key (2 * s.chunks.toNat) ∧
      hi64 s.closeChunk.lrc = hi64 s.lrc ^^^ chunkHi (pend s) ^^^ oh s.key (2 * s.chunks.toNat + 1) := by
  have closed : s.closeChunk = s.closeInterior.shiftBuf := by rw [State.closeChunk, if_pos interior]
  rw [closed]
  exact ⟨rfl, rfl, rfl, rfl, rfl, lo64_cat _ _, hi64_cat _ _⟩

/-- The sixteenth chunk closes the block into both accumulators, and the next block starts fresh (R170). -/
theorem closeChunk_block {s : State} (sixteenth : s.chunks.toNat = 15) :
    s.closeChunk.chunks = 0 ∧ s.closeChunk.ohacc0 = 0 ∧ s.closeChunk.ohacc1 = 0 ∧ s.closeChunk.lrc = 0 ∧
      s.closeChunk.acc0 = hornerStep s.key 0 s.acc0 (s.running.close s.key s.sseed 256 15 (pend s)).1 ∧
      s.closeChunk.acc1 = hornerStep s.key 1 s.acc1 (s.running.close s.key s.sseed 256 15 (pend s)).2 := by
  have closed : s.closeChunk = s.closeBlock.shiftBuf := by rw [State.closeChunk, if_neg (by omega)]
  rw [closed, ← sixteenth]
  exact ⟨rfl, rfl, rfl, rfl, rfl, rfl⟩

/-! ### The state word and the answers play no part -/

/-- The state with another state word and other answers, the two things SUPD writes after its bytes. -/
def State.withStatus (s : State) (word : SinkState) (answers : List Response) : State :=
  { s with sstate := word, output := answers }

section

variable (s : State) (word : SinkState) (answers : List Response)

theorem closeInterior_withStatus :
    (s.withStatus word answers).closeInterior = s.closeInterior.withStatus word answers := rfl

theorem closeBlock_withStatus : (s.withStatus word answers).closeBlock = s.closeBlock.withStatus word answers := rfl

theorem shiftBuf_withStatus : (s.withStatus word answers).shiftBuf = s.shiftBuf.withStatus word answers := by
  have pending : pend (s.withStatus word answers) = pend s := rfl
  have memory : (s.withStatus word answers).buf = s.buf := rfl
  rw [State.shiftBuf, State.shiftBuf, pending, memory]
  generalize s.buf.writeBytes 0 (pend s) = shifted
  rfl

theorem closeChunk_withStatus : (s.withStatus word answers).closeChunk = s.closeChunk.withStatus word answers := by
  have same : (s.withStatus word answers).chunks = s.chunks := rfl
  rw [State.closeChunk, State.closeChunk, same, closeInterior_withStatus, closeBlock_withStatus]
  split
  · rw [shiftBuf_withStatus]
  · rw [shiftBuf_withStatus]

theorem makeRoom_withStatus : (s.withStatus word answers).makeRoom = s.makeRoom.withStatus word answers := by
  have same : (s.withStatus word answers).bufn = s.bufn := rfl
  rw [State.makeRoom, State.makeRoom, same, closeChunk_withStatus]
  split
  · rfl
  · rfl

theorem absorbed_withStatus (b : Byte) :
    (s.withStatus word answers).absorbed b = (s.absorbed b).withStatus word answers := by
  rw [State.absorbed, makeRoom_withStatus]
  rfl

theorem absorbedAll_withStatus (data : ByteString) :
    (s.withStatus word answers).absorbedAll data = (s.absorbedAll data).withStatus word answers := by
  induction data generalizing s with
  | nil => rfl
  | cons b bs ih => rw [absorbedAll_cons, absorbed_withStatus, ih, absorbedAll_cons]

end

end Sys2Proof.Machine

namespace Sys2Proof.Safety

open Sys2Proof Sys2Proof.Machine

/-! ### SUPD -/

/-- What an SUPD that is not refused leaves (R171). -/
def afterSupd (s : State) (data : ByteString) : State := ((s.absorbedAll data).afterUpdate data.length).ok 0 0

theorem exec_supd {data : ByteString} {s : State} (inStream : s.sstate = .empty ∨ s.sstate = .accumulating)
    (pending : s.bufn.toNat ≤ 16) (fits : s.bytes.toNat + data.length < 2 ^ 64) :
    exec (.supd data) s = .next (afterSupd s data) :=
  execSupd_absorbs inStream fits (absorb_eq_absorbedAll data pending)

/-- Settles O42: the position and the frame of absorbing, byte after byte. -/
theorem supdTakesAllItsBytes : Obligations.SupdTakesAllItsBytes := by
  unfold Obligations.SupdTakesAllItsBytes
  intro data s inStream pending wf nonempty fits
  obtain ⟨t, taken, -, -, key, keyValid, -, mode, seed, fault, cause, input, output, -⟩ := absorb_spec data pending
  obtain rfl : s.absorbedAll data = t := Except.ok.inj ((absorb_eq_absorbedAll data pending).symm.trans taken)
  refine ⟨_, exec_supd inStream pending fits, if_pos nonempty, absorbedAll_bytes data fits,
    absorbedAll_bufn_pos nonempty pending, absorbedAll_bufn_le data pending, absorbedAll_position data pending,
    key, keyValid, mode, seed, fault, cause, input, ?answer, fun room => ?compressor, absorbedAll_acc data pending,
    fun a elsewhere kept => absorbedAll_read data wf pending elsewhere kept⟩
  case answer =>
    rw [afterSupd, State.ok_output, State.afterUpdate_output, output]
    rfl
  case compressor =>
    rw [afterSupd, absorbedAll_eq_appended data room]
    exact ⟨rfl, rfl, rfl, rfl⟩

/-- Settles O43: with room for them all, the bytes are one store. -/
theorem supdAppendsToPend : Obligations.SupdAppendsToPend := by
  unfold Obligations.SupdAppendsToPend
  intro data s inStream wf room fits
  have pending : s.bufn.toNat ≤ 16 := by omega
  refine ⟨_, exec_supd inStream pending fits, ?_⟩
  rw [afterSupd, absorbedAll_eq_appended data room]
  have small : s.bufn.toNat + data.length < 2 ^ 5 := by omega
  exact ⟨toNat_add_ofNat small, rfl, rfl, rfl, rfl, rfl, rfl,
    fun a => Memory.read_writeBytes wf (by rw [pendAddr_eq]; omega) a⟩

/-- Settles O44: the chunk is closed first, in one of its two cases, then the byte is stored. -/
theorem supdAtFullPendClosesTheChunk : Obligations.SupdAtFullPendClosesTheChunk := by
  unfold Obligations.SupdAtFullPendClosesTheChunk
  intro b s inStream wf full fits
  have pending : s.bufn.toNat ≤ 16 := by rw [full]; decide
  refine ⟨_, exec_supd (data := [b]) inStream pending fits, ?_⟩
  obtain ⟨chunks, acc0, acc1, ohacc0, ohacc1, lrc, buf, bufn⟩ := absorbed_of_full full b
  rw [afterSupd, absorbedAll_cons, absorbedAll_nil]
  generalize s.absorbed b = u at *
  refine ⟨bufn, fun a => ?memory, fun interior => ?interior, fun sixteenth => ?block⟩
  case memory =>
    rw [State.ok_buf, State.afterUpdate_buf, buf, Memory.read_write (closeChunk_wf wf), closeChunk_read wf]
    rcases Nat.lt_trichotomy a 16 with low | rfl | high
    · rw [if_neg low.ne, if_pos low, if_pos low]
    · rfl
    · rw [if_neg high.ne', if_neg high.not_gt, if_neg high.not_gt, if_neg high.ne']
  case interior =>
    have closed := closeChunk_interior interior
    rw [← chunks, ← acc0, ← acc1, ← ohacc0, ← ohacc1, ← lrc] at closed
    exact closed
  case block =>
    obtain ⟨chunks', ohacc0', ohacc1', lrc', acc0', acc1'⟩ := closeChunk_block sixteenth
    rw [close_full_block s.key s.sseed (pend s) s.running rfl] at acc0' acc1'
    exact ⟨chunks.trans chunks', ohacc0.trans ohacc0', ohacc1.trans ohacc1', lrc.trans lrc', _, _, _, rfl, rfl, rfl,
      acc0.trans acc0', acc1.trans acc1'⟩

theorem afterSupd_bytes {data : ByteString} {s : State} (fits : s.bytes.toNat + data.length < 2 ^ 64) :
    (afterSupd s data).bytes.toNat = s.bytes.toNat + data.length := absorbedAll_bytes data fits

theorem afterSupd_bufn_le (data : ByteString) {s : State} (pending : s.bufn.toNat ≤ 16) :
    (afterSupd s data).bufn.toNat ≤ 16 := absorbedAll_bufn_le data pending

theorem afterSupd_sstate (s : State) (data : ByteString) :
    (afterSupd s data).sstate = if 1 ≤ data.length then .accumulating else s.sstate := by
  rw [afterSupd, State.ok_sstate, State.afterUpdate_sstate, absorbedAll_sstate]

theorem afterSupd_inStream {s : State} (inStream : s.sstate = .empty ∨ s.sstate = .accumulating) (data : ByteString) :
    (afterSupd s data).sstate = .empty ∨ (afterSupd s data).sstate = .accumulating := by
  rw [afterSupd_sstate]
  split
  · exact .inr rfl
  · exact inStream

/-- The registers after SUPD: those that absorbing leaves, and the state word. -/
theorem registers_afterSupd (s : State) (data : ByteString) :
    registers (afterSupd s data) = registers ((s.absorbedAll data).withStatus (afterSupd s data).sstate []) := rfl

/-- What the second of two SUPDs absorbs is what one SUPD of both goes on to absorb. -/
theorem absorbedAll_afterSupd (s : State) (a b : ByteString) :
    (afterSupd s a).absorbedAll b =
      (s.absorbedAll (a ++ b)).withStatus (afterSupd s a).sstate (afterSupd s a).output := by
  have first : afterSupd s a = (s.absorbedAll a).withStatus (afterSupd s a).sstate (afterSupd s a).output := rfl
  rw [absorbedAll_append, ← absorbedAll_withStatus, ← first]

/-- The state word after two SUPDs is that after one: a byte in either makes it ACCUMULATING (R171). -/
theorem afterSupd_append_sstate (s : State) (a b : ByteString) :
    (afterSupd (afterSupd s a) b).sstate = (afterSupd s (a ++ b)).sstate := by
  rw [afterSupd_sstate, afterSupd_sstate, afterSupd_sstate, List.length_append]
  rcases Nat.eq_zero_or_pos b.length with none | some
  · rw [none, Nat.add_zero]
    rfl
  · rw [if_pos (show 1 ≤ b.length from some), if_pos (show 1 ≤ a.length + b.length by omega)]

/-- Settles O45: absorbing is one byte after the other, and reads neither the state word nor the answers. -/
theorem supdDependsOnlyOnTheConcatenation : Obligations.SupdDependsOnlyOnTheConcatenation := by
  unfold Obligations.SupdDependsOnlyOnTheConcatenation
  intro a b s inStream pending fits
  have both : s.bytes.toNat + (a ++ b).length < 2 ^ 64 := by rwa [List.length_append, ← Nat.add_assoc]
  have first : s.bytes.toNat + a.length < 2 ^ 64 := by omega
  have second : (afterSupd s a).bytes.toNat + b.length < 2 ^ 64 := by rwa [afterSupd_bytes first]
  refine ⟨_, _, _, exec_supd inStream pending both, exec_supd inStream pending first,
    exec_supd (afterSupd_inStream inStream a) (afterSupd_bufn_le a pending) second, ?_⟩
  rw [registers_afterSupd, registers_afterSupd, afterSupd_append_sstate, absorbedAll_afterSupd]
  rfl

end Sys2Proof.Safety

end

section
/-! PROOFS. The sink commands in every state: what SINIT.x initialises, when SUPD faults, what SDIG reports, and where
each command takes the state word (R165 to R168, R171, R173, R176, R177). -/

namespace Sys2Proof.Safety

open Sys2Proof Sys2Proof.Machine

/-! ### SINIT -/

/-- Settles O39: each of the three commands is the same initialisation in its mode. -/
theorem sinitInitialisesTheSink : Obligations.SinitInitialisesTheSink := by
  unfold Obligations.SinitInitialisesTheSink
  refine ⟨fun seed => ⟨rfl, rfl, rfl⟩, fun m seed => ?operands, fun i m seed s command => ?meaning⟩
  case operands => cases m <;> rfl
  case meaning =>
    have opens : exec i s = sinit m seed s := by
      rcases command with ⟨rfl, rfl⟩ | ⟨rfl, rfl⟩ | ⟨rfl, rfl⟩ <;> rfl
    rw [opens]
    exact ⟨fun keyless => if_neg (by simp [keyless]), fun keyed => if_pos keyed⟩

/-! ### SUPD -/

/-- Settles O40, by the order of the checks: the sink state, then the count. -/
theorem supdChecksBeforeTakingAByte : Obligations.SupdChecksBeforeTakingAByte := by
  unfold Obligations.SupdChecksBeforeTakingAByte
  exact fun data s => ⟨fun closed => execSupd_closed closed data, execSupd_overflows⟩

/-- Settles O41: there is no byte to absorb, and no byte that could overflow the count. -/
theorem emptySupdChangesNothing : Obligations.EmptySupdChangesNothing := by
  unfold Obligations.EmptySupdChangesNothing
  exact fun s => ⟨fun inStream => execSupd_absorbs (data := []) inStream s.bytes.isLt rfl,
    fun done => execSupd_closed (.inr done) []⟩

/-! ### SDIG -/

/-- The digest reads neither the state word nor the answers (R172). -/
theorem sinkValue_withStatus (s : State) (word : SinkState) (answers : List Response) :
    sinkValue (s.withStatus word answers) = sinkValue s := rfl

/-- The response of SDIG for each mode (R173, R17). -/
def digestResponse (m : SinkMode) (v : Word × Word) : Response := ⟨okCode, (m.report v).1, (m.report v).2⟩

theorem sinkValue_of_no_bytes {s : State} (none : s.bytes = 0) : sinkValue s = .ok (fprint s.key s.sseed []) := by
  rw [sinkValue, none]
  rfl

/-- Settles O46: the digest is defined, and SDIG changes nothing that it reads. -/
theorem sdigReportsTheSinkValue : Obligations.SdigReportsTheSinkValue := by
  unfold Obligations.SdigReportsTheSinkValue
  refine ⟨rfl, rfl, fun s => ⟨fun uninit => if_pos uninit, fun started pending => ?_⟩⟩
  obtain ⟨⟨p, q⟩, digest⟩ := sinkValue_ok pending
  refine ⟨p, q, digestResponse s.smode (p, q), digest, ?response, execSdig_reports started digest,
    execSdig_reports (show SinkState.done ≠ .uninit by decide) ((sinkValue_withStatus s .done _).trans digest),
    fun _ none => Except.ok.inj (digest.symm.trans (sinkValue_of_no_bytes none))⟩
  case response => cases s.smode <;> rfl

/-! ### The state word -/

theorem batch_sstate {s t : State} {r : Word × Word} (h : batch s r = .next t) : t.sstate = s.sstate := by
  rcases batch_spec s r with ⟨-, hb⟩ | ⟨-, hb⟩ <;> obtain rfl := Host.Outcome.next.inj (hb.symm.trans h) <;> rfl

theorem sinit_sstate {m : SinkMode} {seed : Word} {s t : State} (h : sinit m seed s = .next t) :
    t.sstate = if s.keyValid then .empty else s.sstate := by
  rcases sinit_spec m seed s with ⟨hk, hs⟩ | ⟨hk, hs⟩ <;> obtain rfl := Host.Outcome.next.inj (hs.symm.trans h)
  · rw [if_pos hk]
    rfl
  · rw [hk]
    rfl

theorem execKeyld_sstate {image : Key} {s t : State} (h : execKeyld image s = .next t) :
    t.sstate = if s.sstate = .done then .uninit else s.sstate := by
  rcases execKeyld_spec image s with ⟨busy, hx⟩ | ⟨-, hx⟩ <;> obtain rfl := Host.Outcome.next.inj (hx.symm.trans h)
  · rw [if_neg (by rcases busy with hs | hs <;> simp [hs])]
    rfl
  · rfl

theorem absorb_sstate {data : ByteString} {s t : State} (h : absorb data s = .ok t) : t.sstate = s.sstate := by
  rcases absorb_ok_cases h with rfl | pending
  · rfl
  · obtain rfl := Except.ok.inj ((absorb_eq_absorbedAll data pending).symm.trans h)
    exact absorbedAll_sstate data s

theorem execSupd_sstate {data : ByteString} {s t : State} (h : execSupd data s = .next t) :
    t.sstate =
      if (s.sstate = .empty ∨ s.sstate = .accumulating) ∧ 1 ≤ data.length ∧ s.bytes.toNat + data.length < 2 ^ 64 then
        .accumulating
      else s.sstate := by
  rcases execSupd_spec data s with ⟨closed, hx⟩ | ⟨-, overflow, hx⟩ | ⟨inStream, fits, ⟨u, taken, hx⟩ | ⟨f, -, hx⟩⟩ <;>
    rw [hx] at h
  · obtain rfl := Host.Outcome.next.inj h
    rw [if_neg fun ⟨inStream, _⟩ => by rcases closed with hs | hs <;> simp [hs] at inStream]
    rfl
  · obtain rfl := Host.Outcome.next.inj h
    rw [if_neg fun ⟨_, _, fits⟩ => by omega]
    rfl
  · obtain rfl := Host.Outcome.next.inj h
    rw [State.ok_sstate, State.afterUpdate_sstate, absorb_sstate taken]
    simp only [inStream, fits, true_and, and_true]
  · cases h

theorem execSdig_sstate {s t : State} (h : execSdig s = .next t) :
    t.sstate = if s.sstate = .uninit then .uninit else .done := by
  rcases execSdig_spec s with ⟨uninit, hx⟩ | ⟨started, ⟨v, -, hx⟩ | ⟨f, -, hx⟩⟩ <;> rw [hx] at h
  · obtain rfl := Host.Outcome.next.inj h
    rw [if_pos uninit]
    exact uninit
  · obtain rfl := Host.Outcome.next.inj h
    rw [if_neg started]
    rfl
  · cases h

theorem execRegrd_sstate {reg : BitVec 8} {s t : State} (h : execRegrd reg s = .next t) : t.sstate = s.sstate := by
  rcases execRegrd_spec reg s with ⟨-, hx⟩ | ⟨-, -, -, hx⟩ | ⟨-, hx⟩ <;>
    obtain rfl := Host.Outcome.next.inj (hx.symm.trans h) <;> rfl

/-- Settles O54, command by command. -/
theorem sinkStateTransitions : Obligations.SinkStateTransitions := by
  unfold Obligations.SinkStateTransitions
  intro i s t h
  cases i with
  | keyld image => exact execKeyld_sstate h
  | hashP seed data => exact batch_sstate h
  | hashS seed data => exact batch_sstate h
  | fprint seed data => exact batch_sstate h
  | sinitP seed => exact sinit_sstate (m := .primary) h
  | sinitS seed => exact sinit_sstate (m := .secondary) h
  | sinitF seed => exact sinit_sstate (m := .both) h
  | supd data => exact execSupd_sstate h
  | sdig => exact execSdig_sstate h
  | regrd reg => exact execRegrd_sstate h

end Sys2Proof.Safety

end

section
/-! PROOFS. The serialised form of a transaction (R60, R204): four bytes of the word, then the operands as they are. -/

namespace Sys2Proof

open Sys2Proof.Machine

theorem le32_leBytes (w : CommandWord) : le32 (leBytes 4 w.toNat) = w := by
  refine BitVec.eq_of_toNat_eq ?_
  rw [le32_toNat (leBytes_length 4 _).le, leNat_leBytes]
  exact Nat.mod_eq_of_lt w.isLt

/-- Any four bytes are a word, and what follows them are its operands (R60). -/
theorem parseTransaction_append {head : ByteString} (four : head.length = 4) (operands : ByteString) :
    parseTransaction (head ++ operands) = some ⟨le32 head, operands⟩ := by
  have enough : 4 ≤ (head ++ operands).length := by rw [List.length_append]; omega
  rw [parseTransaction, if_pos enough, List.take_left' four, List.drop_left' four]

end Sys2Proof

namespace Sys2Proof.Safety

open Sys2Proof Sys2Proof.Machine

/-- Settles O6: the first four bytes read back as the word. -/
theorem serialisedTransactionsParseBack : Obligations.SerialisedTransactionsParseBack := by
  unfold Obligations.SerialisedTransactionsParseBack
  intro t
  rw [Transaction.bytes, parseTransaction_append (leBytes_length 4 _), le32_leBytes]

end Sys2Proof.Safety

end

section
/-! PROOFS. Taking a fault and the faulted block (R196 to R199): only the response channel moves until a reset. -/

namespace Sys2Proof.Machine

/-! ### Fault entry -/

theorem raise_unfaulted {s : State} (unfaulted : s.fault = false) (c : Cause) :
    s.raise c = { s with fcause := c.code, fault := true, output := s.output ++ [⟨c.code, 0, 0⟩] } := by
  rw [State.raise, unfaulted]
  rfl

/-- A block that is faulted already keeps its cause and its flag (R25). -/
theorem raise_faulted {s : State} (faulted : s.fault = true) (c : Cause) :
    s.raise c = { s with output := s.output ++ [⟨c.code, 0, 0⟩] } := by
  have kept : { s with fault := true } = s := by rw [← faulted]
  calc s.raise c
    _ = { s with fault := true }.respond c.code 0 0 := by rw [State.raise, if_pos faulted]
    _ = s.respond c.code 0 0 := by rw [kept]

/-! ### The faulted block -/

theorem readsStatus_iff (t : Transaction) : readsStatus t = true ↔ t.word = 0x00000007 ∧ t.operands = [] := by
  rw [readsStatus, Bool.and_eq_true, beq_iff_eq, List.isEmpty_iff]

/-- The response of a faulted block (R197). -/
def faultedResponse (t : Transaction) (s : State) : Response :=
  if t.word = 0x00000007 ∧ t.operands = [] then ⟨okCode, s.status, 0⟩ else ⟨refusedCode, 0, 0⟩

theorem answerFaulted_eq (t : Transaction) (s : State) :
    answerFaulted t s = { s with output := s.output ++ [faultedResponse t s] } := by
  rw [answerFaulted, faultedResponse]
  by_cases statusRead : readsStatus t = true
  · rw [if_pos statusRead, if_pos ((readsStatus_iff t).mp statusRead)]
    rfl
  · rw [if_neg statusRead, if_neg (mt (readsStatus_iff t).mpr statusRead)]
    rfl

end Sys2Proof.Machine

namespace Sys2Proof.Safety

open Sys2Proof Sys2Proof.Machine

/-- Settles O30: the flag is set or set already, and the cause is written in the first case alone. -/
theorem faultEntryRecordsTheFirstCause : Obligations.FaultEntryRecordsTheFirstCause := by
  unfold Obligations.FaultEntryRecordsTheFirstCause
  exact fun s c => ⟨fun unfaulted => raise_unfaulted unfaulted c, fun faulted => raise_faulted faulted c⟩

/-- Settles O31: the check of `FAULT` comes before decoding (R150 step 1). -/
theorem faultedBlockRefusesTransactions : Obligations.FaultedBlockRefusesTransactions := by
  unfold Obligations.FaultedBlockRefusesTransactions
  intro s t rest faulted
  rw [step_transaction, transact_faulted (s := s.withInput rest) faulted, answerFaulted_eq]
  rfl

/-! ### Any number of transactions -/

/-- A faulted block to which only transactions are sent, so that no reset is on its way to clear the fault (R198). -/
def FaultedForGood (s : State) : Prop := s.fault = true ∧ ∀ e ∈ s.input, ∃ t, e = HostEvent.transaction t

/-- One step of such a block takes a transaction or waits; it changes no register and stays such a block (R197). -/
theorem FaultedForGood.step {s : State} (h : FaultedForGood s) :
    ∃ t, step s = .next t ∧ registers t = registers s ∧ FaultedForGood t := by
  obtain ⟨faulted, onlyTransactions⟩ := h
  cases channel : s.input with
  | nil => exact ⟨s, step_nil channel, rfl, faulted, onlyTransactions⟩
  | cons e rest =>
    rw [channel] at onlyTransactions
    obtain ⟨⟨tr, rfl⟩, later⟩ := List.forall_mem_cons.mp onlyTransactions
    refine ⟨{ s.withInput rest with output := s.output ++ [faultedResponse tr (s.withInput rest)] }, ?_, rfl,
      faulted, later⟩
    rw [step_cons channel]
    exact (transact_faulted (s := s.withInput rest) faulted tr).trans (congrArg _ (answerFaulted_eq _ _))

theorem FaultedForGood.run (n : Nat) {s : State} (h : FaultedForGood s) :
    ∃ t : State, Host.Core.run Sys2Proof.core n s = .next t ∧ registers t = registers s := by
  induction n generalizing s with
  | zero => exact ⟨s, rfl, rfl⟩
  | succ n ih =>
    obtain ⟨u, taken, same, stillFaulted⟩ := h.step
    obtain ⟨t, ran, kept⟩ := ih stillFaulted
    exact ⟨t, (run_of_step (M := Sys2Proof.core) taken).trans ran, kept.trans same⟩

/-- Settles O32, by induction on the number of steps. -/
theorem faultIsFinalWithoutReset : Obligations.FaultIsFinalWithoutReset := by
  unfold Obligations.FaultIsFinalWithoutReset
  exact fun n s faulted onlyTransactions => FaultedForGood.run n ⟨faulted, onlyTransactions⟩

end Sys2Proof.Safety

end

section
/-! PROOFS. Two hazards of the hash values: what tells two block lengths apart (R232), and a zero multiplier (R228). -/

namespace Sys2Proof.Machine

/-! ### Tags -/

/-- For one seed a tag holds the block length modulo 256, no more and no less (R112). -/
theorem tag_eq_tag_iff (seed : Word) (m n : Nat) : tag seed m = tag seed n ↔ m % 256 = n % 256 := by
  refine ⟨fun same => ?_, fun same => by rw [tag, tag, same]⟩
  have lanes := congrArg hi64 same
  rw [tag, tag, hi64_cat, hi64_cat, BitVec.xor_right_inj] at lanes
  have lengths := congrArg BitVec.toNat lanes
  rw [BitVec.toNat_ofNat, BitVec.toNat_ofNat] at lengths
  omega

/-! ### A zero multiplier -/

/-- With both key words 0 a step forgets the accumulator and the compressed value alike (R135). -/
theorem horner2_of_zero_words (acc y0 y1 : Word) : horner2 acc 0 0 y0 y1 = 0 :=
  BitVec.eq_of_toNat_eq (by simp [horner2_toNat])

theorem hornerStep_of_zero_key {k : Key} {w : Nat} (multiplierZero : multiplier k w = 0) (squareZero : square k w = 0)
    (acc : Word) (y : DWord) : hornerStep k w acc y = 0 := by
  rw [hornerStep, multiplierZero, squareZero, horner2_of_zero_words]

theorem foldl_hornerStep_of_zero_key {k : Key} {w : Nat} (multiplierZero : multiplier k w = 0)
    (squareZero : square k w = 0) (value : Block → DWord) (blocks : List Block) :
    blocks.foldl (fun acc b => hornerStep k w acc (value b)) 0 = 0 :=
  List.foldl_fixed' (fun b => hornerStep_of_zero_key multiplierZero squareZero 0 (value b)) blocks

theorem finalize_zero : finalize 0 = 0 := by decide

/-- Such a fold is 0 all the way, and the finalizer keeps 0 (R145). -/
theorem finalize_foldl_of_zero_key {k : Key} {w : Nat} (multiplierZero : multiplier k w = 0)
    (squareZero : square k w = 0) (value : Block → DWord) (blocks : List Block) :
    finalize (blocks.foldl (fun acc b => hornerStep k w acc (value b)) 0) = 0 := by
  rw [foldl_hornerStep_of_zero_key multiplierZero squareZero, finalize_zero]

end Sys2Proof.Machine

namespace Sys2Proof.Safety

open Sys2Proof Sys2Proof.Machine

/-- Settles O20: from 1 to 256 only one length leaves a given remainder, 256 standing for the remainder 0. -/
theorem tagSeparatesBlockLengths : Obligations.TagSeparatesBlockLengths := by
  unfold Obligations.TagSeparatesBlockLengths
  intro seed m n mPos mLe nPos nLe same
  have remainders := (tag_eq_tag_iff seed m n).mp same
  omega

/-- Settles O27: each hash is its own fold, which reads its own multiplier and square. -/
theorem zeroMultiplierMakesTheLongHashZero : Obligations.ZeroMultiplierMakesTheLongHashZero := by
  unfold Obligations.ZeroMultiplierMakesTheLongHashZero
  intro k seed d long
  obtain ⟨primary, secondary⟩ := Prod.ext_iff.1 (fprint_long_eq_folds k seed long)
  exact ⟨fun multiplierZero squareZero => primary.trans (finalize_foldl_of_zero_key multiplierZero squareZero _ _),
    fun multiplierZero squareZero => secondary.trans (finalize_foldl_of_zero_key multiplierZero squareZero _ _)⟩

end Sys2Proof.Safety

end

section
/-! PROOFS. The reset input, and what the block answers before it has a key (R220, R221). -/

namespace Sys2Proof.Safety

open Sys2Proof Sys2Proof.Machine

/-- Settles O52: reset is an event of its own, and what it leaves is evaluated. -/
theorem resetInputLeavesTheResetState : Obligations.ResetInputLeavesTheResetState := by
  unfold Obligations.ResetInputLeavesTheResetState
  exact ⟨fun s _ rest => step_cons (s := s.withInput _) rfl, rfl, rfl, rfl, rfl, rfl, rfl, by decide⟩

theorem sinit_keyless {s : State} (keyless : s.keyValid = false) (m : SinkMode) (seed : Word) :
    sinit m seed s = .next (s.raise .noKey) := if_neg (by simp [keyless])

theorem execSdig_uninit {s : State} (uninit : s.sstate = .uninit) : execSdig s = .next (s.raise .sinkState) :=
  if_pos uninit

/-- Settles O53: the hashes and SINIT.x miss the key; SUPD, SDIG and the sink registers miss the sink. -/
theorem withoutAKeyCommandsFault : Obligations.WithoutAKeyCommandsFault := by
  unfold Obligations.WithoutAKeyCommandsFault
  intro s keyless uninit
  have hashes (r : Word × Word) : batch s r = .next (s.raise .noKey) := (batch_answers s r).1 keyless
  have inits (m : SinkMode) (seed : Word) := sinit_keyless keyless m seed
  exact ⟨fun seed data => ⟨hashes _, hashes _, hashes _, inits .primary seed, inits .secondary seed, inits .both seed,
      execSupd_closed (.inl uninit) data, execSdig_uninit uninit⟩,
    fun _ low high => exec_regrd_uninit low high uninit⟩

end Sys2Proof.Safety

end
